-- ==== Sys2Proof/Word.lean ====
section
/-! DEFINITION. The words of the machine (rule R12): a byte and the 16-bit RegisterAddress. -/

namespace Sys2Proof

/-- A byte: 8 bits, numbered 7 down to 0 (rule R12). -/
abbrev Byte := BitVec 8

/-- A RegisterAddress: 16 bits (rules R12, R31). -/
abbrev Addr := BitVec 16

end Sys2Proof
end

