-- ==== Sys2Proof/Config.lean ====
section
/-! DEFINITION. The parameters an implementation fixes (rules R9, R10) and the free values (rule R11). -/

namespace Sys2Proof

/-- A pin level. -/
inductive Level where
  | low
  | high
  deriving DecidableEq, Repr, Inhabited

/-- The implementation parameters of rule R9, in its order. The last field is the model's own: whether
an operation at a Normal-space address whose low byte is above 0x3F is refused, as U2 recommends, or follows
the hardware, as U2 allows (log 8).
The constraints are `Params.ok` (rule R10, U21). -/
structure Params where
  strobeSRES : Byte
  strobeSRX : Byte
  strobeSTX : Byte
  strobeSIDLE : Byte
  strobeSPWD : Byte
  strobeSFRX : Byte
  strobeSFTX : Byte
  strobeSNOP : Byte
  addrMarcState : Addr
  addrMarcStatus0 : Addr
  addrMarcStatus1 : Addr
  addrModemStatus0 : Addr
  addrModemStatus1 : Addr
  addrNumRxBytes : Addr
  addrDevAddr : Addr
  tRstLowMs : Nat
  tRstHighMs : Nat
  tInitMs : Nat
  tCfgMs : Nat
  hasResetLine : Bool
  initHwReset : Bool
  readyActiveLevel : Level
  readyTimeout : Option Nat
  resolveSingleSample : Bool
  refuseWideAddress : Bool
  deriving DecidableEq, Repr

/-- The test configuration TC1 (95_test_vectors.md section 1): the suggested values of rule R9.
PRESUMED (strobes, addresses, ready level: the spec's general knowledge GK1 to GK3) and DESIGN CHOICE
(delays, reset line, `refuseWideAddress`); log 2, unsafe. A claim that holds for every `Params` does not
rest on it. -/
def testConfiguration : Params where
  strobeSRES := 0x30#8
  strobeSRX := 0x34#8
  strobeSTX := 0x35#8
  strobeSIDLE := 0x36#8
  strobeSPWD := 0x39#8
  strobeSFRX := 0x3A#8
  strobeSFTX := 0x3B#8
  strobeSNOP := 0x3D#8
  addrMarcState := 0x2F73#16
  addrMarcStatus0 := 0x2F95#16
  addrMarcStatus1 := 0x2F94#16
  addrModemStatus0 := 0x2F93#16
  addrModemStatus1 := 0x2F92#16
  addrNumRxBytes := 0x2FD7#16
  addrDevAddr := 0x001E#16
  tRstLowMs := 10
  tRstHighMs := 10
  tInitMs := 100
  tCfgMs := 10
  hasResetLine := true
  initHwReset := true
  readyActiveLevel := .low
  readyTimeout := none
  resolveSingleSample := false
  refuseWideAddress := false

/-- Free value: the byte the peer returns in the `n`-th exchange, where no scripted byte is left
(rules R6, R11; log 3). -/
opaque Config.peerByte : Nat → Byte

/-- Free value: the level of the ready line at the `n`-th sample, where no scripted sample is left
(rules R6, R112; log 3). -/
opaque Config.readyLevel : Nat → Level

/-- Free value: the `n`-th pad byte of writeTxFifo, where no scripted pad is left (rules R11, R142; log 4). -/
opaque Config.padByte : Nat → Byte

end Sys2Proof
end

