-- ==== Sys2Proof/Syntax.lean ====
section
/-! DEFINITION. The instructions: one constructor per row of spec/opcode_table.json. -/

namespace Sys2Proof

/-- StatusType (rule R36), in the order of the codes 0 to 5 of rule R102. -/
inductive StatusType where
  | status
  | marcState
  | marcStatus0
  | marcStatus1
  | modemStatus0
  | modemStatus1
  deriving DecidableEq, Repr

/-- RegisterSetting: an (address, value) pair (rule R32). -/
structure Setting where
  address : Addr
  value : Byte
  deriving DecidableEq, Repr

/-- The 20 host operations of rule R99 and the 14 wire emission patterns of rules R82 to R90.
Lengths are naturals (D7), the shift amount is a signed integer (rule R135); `Instr.wf` bounds them.
A wire pattern's operand is what its row leaves free: the 6-bit field A, the offset byte, or the low
four bits of a strobe. -/
inductive Instr where
  -- host operations
  | init
  | shutdown
  | reset (hardware : Bool)
  | configure (settings : List Setting)
  | readRegister (address : Addr) (length : Nat)
  | writeRegister (address : Addr) (bytes : List Byte)
  | updateRegister (address : Addr) (bits : Byte)
  | strobe (command : Byte)
  | idle
  | powerDown
  | transmitArm
  | receiveArm
  | flushRx
  | flushTx
  | getStatus (type : StatusType) (keepBits : Byte) (shiftLR : Int)
  | readRxFifo
  | writeTxFifo (bytes : List Byte)
  | resolveFifoError
  | setAddress (addr : Byte)
  | getAddress (force : Bool)
  -- wire emission patterns
  | wireWriteSingleNormal (a : BitVec 6)
  | wireWriteBurstNormal (a : BitVec 6)
  | wireReadSingleNormal (a : BitVec 6)
  | wireReadBurstNormal (a : BitVec 6)
  | wireWriteSingleExtended (offset : Byte)
  | wireWriteBurstExtended (offset : Byte)
  | wireReadSingleExtended (offset : Byte)
  | wireReadBurstExtended (offset : Byte)
  | wireStrobe (c : BitVec 4)
  | wireFifoReadSingle
  | wireFifoReadBurst
  | wireFifoWriteBurst
  | wireFifoWriteSingle
  | wireDummy
  deriving DecidableEq, Repr

/-- The short form `getStatus T` (rule R106). -/
def Instr.getStatusDefault (t : StatusType) : Instr := .getStatus t 0xFF#8 0

/-- The short form `getStatus T, K` (rule R106). -/
def Instr.getStatusKeep (t : StatusType) (keepBits : Byte) : Instr := .getStatus t keepBits 0

/-- Is the instruction a wire emission pattern (rule R80), not an operation of the command port? -/
def Instr.isWire : Instr → Bool
  | .init => false
  | .shutdown => false
  | .reset _ => false
  | .configure _ => false
  | .readRegister _ _ => false
  | .writeRegister _ _ => false
  | .updateRegister _ _ => false
  | .strobe _ => false
  | .idle => false
  | .powerDown => false
  | .transmitArm => false
  | .receiveArm => false
  | .flushRx => false
  | .flushTx => false
  | .getStatus _ _ _ => false
  | .readRxFifo => false
  | .writeTxFifo _ => false
  | .resolveFifoError => false
  | .setAddress _ => false
  | .getAddress _ => false
  | .wireWriteSingleNormal _ => true
  | .wireWriteBurstNormal _ => true
  | .wireReadSingleNormal _ => true
  | .wireReadBurstNormal _ => true
  | .wireWriteSingleExtended _ => true
  | .wireWriteBurstExtended _ => true
  | .wireReadSingleExtended _ => true
  | .wireReadBurstExtended _ => true
  | .wireStrobe _ => true
  | .wireFifoReadSingle => true
  | .wireFifoReadBurst => true
  | .wireFifoWriteBurst => true
  | .wireFifoWriteSingle => true
  | .wireDummy => true

end Sys2Proof
end

