-- ==== Sys2Proof/Machine/State.lean ====
section
/-! DEFINITION. The state of the engine (10_state.md), as plain data, its reset value, and the reasons a step
can stop. -/

namespace Sys2Proof.Machine

/-- The lifecycle states (rules R21, R150). -/
inductive Life where
  | uninitialized
  | ready
  | idle
  | receiving
  | transmitting
  | poweredDown
  deriving DecidableEq, Repr

/-- What the engine drives on the select line (rule R23). -/
inductive CsLine where
  | released
  | low
  | high
  deriving DecidableEq, Repr

/-- What the engine drives on the reset control line (rule R24). -/
inductive RstLine where
  | absent
  | released
  | low
  | high
  deriving DecidableEq, Repr

/-- The pins of rule R13. -/
inductive Pin where
  | cs
  | ready
  | rst
  deriving DecidableEq, Repr

/-- How `PinMode` configures a pin (rule R13): OUT, IN, RELEASED. -/
inductive PinRole where
  | out
  | inp
  | released
  deriving DecidableEq, Repr

/-- The events of the trace (rule R13; `rdy`: rule R112). -/
inductive Event where
  | pin (p : Pin) (m : PinRole)
  | cs (l : Level)
  | rst (l : Level)
  | rdy
  | x (sent returned : Byte)
  | dly (ms : Nat)
  | bus (on : Bool)
  deriving DecidableEq, Repr

/-- What an operation returns (rules R99, R104). -/
inductive Value where
  | none
  | bytes (bs : List Byte)
  | byte (b : Byte)
  | count (n : Nat)
  deriving DecidableEq, Repr

/-- The reasons of a refused operation: outcomes O1 to O4 (rule R176). -/
inductive Reason where
  | notInitialized
  | alreadyInitialized
  | badDescriptor
  | badAddress
  deriving DecidableEq, Repr

/-- How an operation ends (rule R176): O0, O1 to O4, O5. It is given to the host, which goes on (rule R183). -/
inductive Reply where
  | done (v : Value)
  | refused (r : Reason)
  | busNotReady
  deriving DecidableEq, Repr

/-- The micro-operations of a transaction (rules R110 to R113). `wait left`: the ready wait with the samples
it may still take, none for no bound (rule R115). `recv` keeps the returned byte, `send` discards it. -/
inductive Micro where
  | select
  | wait (left : Option Nat)
  | send (b : Byte)
  | recv (b : Byte)
  | deselect
  deriving DecidableEq, Repr

/-- What the operation in progress does when its transaction has ended: the continuations of the pseudocode
of files 41 to 45 (rules R27, R29). -/
inductive After where
  /-- Done, no result. -/
  | ack
  /-- Done with the bytes read. -/
  | bytes
  /-- getStatus: mask and shift the byte read (rule R136). -/
  | masked (keepBits : Byte) (shiftLR : Int)
  /-- updateRegister: OR `bits` in, write back if it differs (rule R123). -/
  | merge (address : Addr) (bits : Byte)
  /-- readRxFifo: read as many bytes as the count says (rule R141). -/
  | drain
  /-- A lifecycle operation: write `life` (rule R151). -/
  | enter (l : Life)
  /-- configure: the settle delay (rule R155). -/
  | settle
  /-- setAddress: write `shadow` (rule R162). -/
  | setShadow (addr : Byte)
  /-- getAddress true: the byte read becomes `shadow` (rule R163). -/
  | adopt
  /-- resolveFifoError: the first MarcState sample is tested (rule R143). -/
  | rxTest
  /-- resolveFifoError: the RX flush has been issued. -/
  | rxFlushed
  /-- resolveFifoError: the second sample is tested, `count` flushes so far. -/
  | txTest (count : Nat)
  /-- resolveFifoError: the TX flush has been issued, `count` flushes before it. -/
  | txFlushed (count : Nat)
  /-- A wire pattern alone: the transaction stays open for what follows (log 25). -/
  | leaveOpen
  deriving DecidableEq, Repr

/-- The sequencer position of the operation in progress (rule R29): the micro-operations still to do and
what follows them. -/
structure Job where
  seq : List Micro
  after : After
  deriving DecidableEq, Repr

/-- What the outside supplies (rules R7, R11): the descriptors the host will present, the ready samples and
bytes of the peer, the pads, each list oldest first; and how many of each have been drawn, the index of the
free values used where a list has run out (logs 3, 4, 31). -/
structure Env where
  host : List (List Byte)
  ready : List Level
  bytes : List Byte
  pads : List Byte
  samples : Nat
  draws : Nat
  padDraws : Nat
  deriving DecidableEq, Repr

/-- The whole state. `life` to `busOn` and the latches `job`, `buf` are rule R20; `cfg` is the configuration
(rule R45, log 1), `env` the draws (log 3), `trace` and `replies` the bookkeeping of rules R44 and R176. -/
structure State where
  cfg : Params
  life : Life
  shadow : Option Byte
  cs : CsLine
  rst : RstLine
  busOn : Bool
  job : Option Job
  buf : List Byte
  env : Env
  trace : List Event
  replies : List Reply
  deriving DecidableEq, Repr

/-- No draw scripted, none taken. DESIGN CHOICE: the spec gives no reset value of the outside (logs 3, 4, 31). -/
def Env.start : Env where
  host := []
  ready := []
  bytes := []
  pads := []
  samples := 0
  draws := 0
  padDraws := 0

/-- The state after the engine's own power-on reset under the configuration `c` (rules R43, R200, R201). -/
def State.powerOn (c : Params) : State where
  cfg := c
  life := .uninitialized
  shadow := none
  cs := .released
  rst := if c.hasResetLine then .released else .absent
  busOn := false
  job := none
  buf := []
  env := Env.start
  trace := []
  replies := []

/-- The state after reset: power-on under TC1 (the configuration is PRESUMED, log 2). -/
def State.reset : State := State.powerOn testConfiguration

/-- Why the machine stops with a fault. -/
inductive Fault where
  /-- Raised by getAddress false where `life` is initialized and `shadow` holds no value. No run reaches such
  a state (rule R22: "no operation that reads it can run then"). Safe: the model stops where nothing is
  said (log 29). -/
  | shadowMissing
  deriving DecidableEq, Repr

/-- Why a step has no meaning. -/
inductive Refusal where
  /-- Raised by an arm of exec whose instruction has no meaning yet; safe. No arm raises it. -/
  | notModelled (mnemonic : String)
  /-- Raised by step where the configuration violates a constraint of rule R10 or U21 ("refuse the
  configuration"). Safe: nothing is provable about such a machine (log 30). -/
  | badConfiguration
  /-- Raised by a host operation issued while a transaction is open or an operation is in progress: the host
  is blocked then and has no move (rules R98, R114, U18, U19). step never issues one. Safe (log 28). -/
  | transactionOpen
  /-- Raised by a wire pattern emitted outside an open transaction, which the engine never does (rules R110,
  R116). Safe (log 25). -/
  | noTransaction
  deriving DecidableEq, Repr

end Sys2Proof.Machine
end

