-- ==== Sys2Proof/Machine/Flags.lean ====
section
/-! DEFINITION. The engine keeps no flags (rule R30); the flag-like quantities are fields of bytes the peer
returns, extracted by mask and shift (rules R94, R95, R135, R138). -/

namespace Sys2Proof.Machine

/-- The mask-and-shift pipeline (rule R135): mask first, then a logical shift right by 1 to 8, or left by 1 to
8 truncated to a byte, else no shift. -/
def maskShift (raw keepBits : Byte) (shiftLR : Int) : Byte :=
  let m := raw &&& keepBits
  if 1 ≤ shiftLR ∧ shiftLR ≤ 8 then m >>> shiftLR.toNat
  else if -8 ≤ shiftLR ∧ shiftLR ≤ -1 then m <<< (0 - shiftLR).toNat
  else m

/-- CHIP_RDY, bit 7 of the status byte (rules R33, R94). -/
def chipReady (status : Byte) : Byte := maskShift status 0x80#8 7

/-- STATE, bits 6:4 of the status byte (rules R33, R94). -/
def coarseState (status : Byte) : Byte := maskShift status 0x70#8 4

/-- MARC_STATE, the low 5 bits of the MarcState register (rules R34, R95): MARC_STATE_MASK = 0x1F. -/
def marcState (m : Byte) : Byte := maskShift m 0x1F#8 0

/-- MARC_2PIN_STATE, bits 6:5 of the MarcState register (rules R34, R95). -/
def marc2Pin (m : Byte) : Byte := maskShift m 0x60#8 5

/-- MARC_RX_FIFO_ERR (rules R8, R35). -/
def marcRxFifoErr : Byte := 17#8

/-- MARC_TX_FIFO_ERR (rules R8, R35). -/
def marcTxFifoErr : Byte := 22#8

end Sys2Proof.Machine
end

