-- ==== Sys2Proof/WellFormed.lean ====
section
/-! DEFINITION. Which instructions are well formed: what a descriptor or a wire pattern can express. -/

namespace Sys2Proof

/-- The longest length, count or list an operand can express (rules R27, R101, D7). -/
def maxLength : Nat := 65535

/-- Well-formedness of the operands: counts fit a `u16` (rule R101), the shift fits an `i8`, the buffer of
writeTxFifo holds at most 65534 bytes (rules R103, R142), a strobe is 0x30..0x3D (rule R89). -/
def Instr.wf : Instr → Bool
  | .init => true
  | .shutdown => true
  | .reset _ => true
  | .configure settings => decide (settings.length ≤ maxLength)
  | .readRegister _ length => decide (length ≤ maxLength)
  | .writeRegister _ bytes => decide (bytes.length ≤ maxLength)
  | .updateRegister _ _ => true
  | .strobe _ => true
  | .idle => true
  | .powerDown => true
  | .transmitArm => true
  | .receiveArm => true
  | .flushRx => true
  | .flushTx => true
  | .getStatus _ _ shiftLR => decide (-128 ≤ shiftLR ∧ shiftLR ≤ 127)
  | .readRxFifo => true
  | .writeTxFifo bytes => decide (bytes.length + 1 ≤ maxLength)
  | .resolveFifoError => true
  | .setAddress _ => true
  | .getAddress _ => true
  | .wireWriteSingleNormal _ => true
  | .wireWriteBurstNormal _ => true
  | .wireReadSingleNormal _ => true
  | .wireReadBurstNormal _ => true
  | .wireWriteSingleExtended _ => true
  | .wireWriteBurstExtended _ => true
  | .wireReadSingleExtended _ => true
  | .wireReadBurstExtended _ => true
  | .wireStrobe c => decide (c ≤ 13#4)
  | .wireFifoReadSingle => true
  | .wireFifoReadBurst => true
  | .wireFifoWriteBurst => true
  | .wireFifoWriteSingle => true
  | .wireDummy => true

end Sys2Proof
end

