-- ==== Sys2Proof/Decode.lean ====
section
/-! DEFINITION. The two encodings of 30_encoding.md: command descriptors (rules R98 to R103), with a decoder
that rejects by name, and the header bytes of the wire patterns (rules R82 to R90); then the encoder. -/

namespace Sys2Proof

/-- `a[15:8]`, the high byte of a RegisterAddress (rule R12). -/
def highByte (a : Addr) : Byte := a.extractLsb' 8 8

/-- `a[7:0]`, the low byte of a RegisterAddress (rule R12). -/
def lowByte (a : Addr) : Byte := a.extractLsb' 0 8

/-- The 16-bit value whose high byte comes first (rule R101, `u16`). -/
def joinBytes (hi lo : Byte) : Addr := hi ++ lo

/-! ### Header opcodes and selectors (rules R8, R83) -/

def opWriteSingle : Byte := 0x00#8
def opWriteBurst : Byte := 0x40#8
def opReadSingle : Byte := 0x80#8
def opReadBurst : Byte := 0xC0#8

/-- EXT_SELECTOR: the selector ORed into the first header byte of an Extended access, and the high byte of
an Extended address (rules R8, R84). -/
def extSelector : Byte := 0x2F#8

/-- FIFO_SELECTOR (rules R8, R57). -/
def fifoSelector : Byte := 0x3F#8

/-- DUMMY: the byte driven out for every read payload exchange (rules R8, R87). -/
def dummyByte : Byte := 0xFF#8

/-- Header byte, format H1: opcode in bits 7:6, the 6-bit address or selector in bits 5:0 (rule R82). -/
def headerH1 (opcode : Byte) (a : BitVec 6) : Byte := opcode ||| a.setWidth 8

/-- Strobe frame, format S: 0x30 with the low four bits (rule R89). -/
def strobeByte (c : BitVec 4) : Byte := 0x30#8 ||| c.setWidth 8

/-! ### Decoding a descriptor (rules R100 to R103) -/

/-- Why a byte string is not an operation (rule R103). -/
inductive DecodeError where
  /-- No operation number (V-X10). -/
  | emptyDescriptor
  /-- Byte 0 is not one of the 20 operation numbers of rule R99. -/
  | unknownOperation (opnum : Byte)
  /-- The operands end too early. -/
  | truncated
  /-- A `bool` byte is neither 0x00 nor 0x01. -/
  | badBool (b : Byte)
  /-- A StatusType code is above 5. -/
  | badStatusType (b : Byte)
  /-- A writeTxFifo count of 65535, whose `k + 1` exceeds the length bound (D7). -/
  | lengthBound
  /-- A byte after the last operand. -/
  | trailingBytes
  deriving DecidableEq, Repr

/-- What reading an operand gives: the value and the bytes that follow it, or the reason there is none. -/
abbrev Parsed (α : Type) := Except DecodeError (α × List Byte)

def takeU8 : List Byte → Parsed Byte
  | [] => .error .truncated
  | b :: rest => .ok (b, rest)

/-- `u16`: two bytes, high byte first. -/
def takeU16 : List Byte → Parsed Addr
  | hi :: lo :: rest => .ok (joinBytes hi lo, rest)
  | _ => .error .truncated

/-- `i8`: one byte read as two's complement. -/
def takeI8 : List Byte → Parsed Int
  | [] => .error .truncated
  | b :: rest => .ok (b.toInt, rest)

/-- `bool`: 0x00 false, 0x01 true, anything else malformed. -/
def takeBool : List Byte → Parsed Bool
  | [] => .error .truncated
  | b :: rest =>
    if b = 0x00#8 then .ok (false, rest)
    else if b = 0x01#8 then .ok (true, rest)
    else .error (.badBool b)

/-- StatusType codes (rule R102). -/
def takeStatusType : List Byte → Parsed StatusType
  | [] => .error .truncated
  | b :: rest =>
    if b = 0#8 then .ok (.status, rest)
    else if b = 1#8 then .ok (.marcState, rest)
    else if b = 2#8 then .ok (.marcStatus0, rest)
    else if b = 3#8 then .ok (.marcStatus1, rest)
    else if b = 4#8 then .ok (.modemStatus0, rest)
    else if b = 5#8 then .ok (.modemStatus1, rest)
    else .error (.badStatusType b)

/-- Exactly `k` bytes, in index order. -/
def takeExactly (k : Nat) (bs : List Byte) : Parsed (List Byte) :=
  if k ≤ bs.length then .ok (bs.take k, bs.drop k) else .error .truncated

/-- `bytes`: a `u16` count `k`, then `k` bytes. -/
def takeBytes (bs : List Byte) : Parsed (List Byte) :=
  match takeU16 bs with
  | .ok (k, rest) => takeExactly k.toNat rest
  | .error e => .error e

/-- `k` entries of `settings`: each a `u16` address followed by a `u8` value. -/
def takeEntries : Nat → List Byte → Parsed (List Setting)
  | 0, bs => .ok ([], bs)
  | k + 1, hi :: lo :: v :: rest =>
    match takeEntries k rest with
    | .ok (entries, rest') => .ok (⟨joinBytes hi lo, v⟩ :: entries, rest')
    | .error e => .error e
  | _ + 1, _ => .error .truncated

/-- `settings`: a `u16` count `k`, then `k` entries. -/
def takeSettings (bs : List Byte) : Parsed (List Setting) :=
  match takeU16 bs with
  | .ok (k, rest) => takeEntries k.toNat rest
  | .error e => .error e

/-- Turn the operand read into the instruction that carries it. -/
def Parsed.carry {α β : Type} (p : Parsed α) (f : α → β) : Parsed β :=
  match p with
  | .ok (a, rest) => .ok (f a, rest)
  | .error e => .error e

/-- Read one operand, then what follows it. -/
def Parsed.andThen {α β : Type} (p : Parsed α) (f : α → List Byte → Parsed β) : Parsed β :=
  match p with
  | .ok (a, rest) => f a rest
  | .error e => .error e

/-- The operands of the operation number `op` (the table of rule R99), and the bytes after the last. -/
def takeOperands (op : Byte) (bs : List Byte) : Parsed Instr :=
  if op = 0x01#8 then .ok (.init, bs)
  else if op = 0x02#8 then .ok (.shutdown, bs)
  else if op = 0x03#8 then (takeBool bs).carry .reset
  else if op = 0x04#8 then (takeSettings bs).carry .configure
  else if op = 0x10#8 then
    (takeU16 bs).andThen fun a r => (takeU16 r).carry fun n => .readRegister a n.toNat
  else if op = 0x11#8 then
    (takeU16 bs).andThen fun a r => (takeBytes r).carry (.writeRegister a)
  else if op = 0x12#8 then
    (takeU16 bs).andThen fun a r => (takeU8 r).carry (.updateRegister a)
  else if op = 0x20#8 then (takeU8 bs).carry .strobe
  else if op = 0x21#8 then .ok (.idle, bs)
  else if op = 0x22#8 then .ok (.powerDown, bs)
  else if op = 0x23#8 then .ok (.transmitArm, bs)
  else if op = 0x24#8 then .ok (.receiveArm, bs)
  else if op = 0x25#8 then .ok (.flushRx, bs)
  else if op = 0x26#8 then .ok (.flushTx, bs)
  else if op = 0x30#8 then
    (takeStatusType bs).andThen fun t r => (takeU8 r).andThen fun k r' =>
      (takeI8 r').carry (.getStatus t k)
  else if op = 0x40#8 then .ok (.readRxFifo, bs)
  else if op = 0x41#8 then
    (takeBytes bs).andThen fun d r =>
      if d.length + 1 ≤ maxLength then .ok (.writeTxFifo d, r) else .error .lengthBound
  else if op = 0x42#8 then .ok (.resolveFifoError, bs)
  else if op = 0x50#8 then (takeU8 bs).carry .setAddress
  else if op = 0x51#8 then (takeBool bs).carry .getAddress
  else .error (.unknownOperation op)

/-- The operation a byte string begins with, and the bytes after its last operand. -/
def decodePrefix : List Byte → Parsed Instr
  | [] => .error .emptyDescriptor
  | op :: bs => takeOperands op bs

/-- Decode a descriptor: "with no padding and nothing after the last operand" (rule R100). -/
def decode (d : List Byte) : Except DecodeError Instr :=
  match decodePrefix d with
  | .ok (i, []) => .ok i
  | .ok (_, _ :: _) => .error .trailingBytes
  | .error e => .error e

/-! ### Naming a wire pattern by its bytes

The rows are emission patterns, not a decode table (rules R80, R92): several rows can share a byte. The most
specific row is named: a FIFO header before a strobe, a strobe before a Normal header (log 26). -/

/-- The wire pattern whose header bytes these are; the dummy byte has the value of the FIFO burst-read
header and is never named (rule R90). -/
def decodeWire : List Byte → Option Instr
  | [h] =>
    if h = 0xBF#8 then some .wireFifoReadSingle
    else if h = 0xFF#8 then some .wireFifoReadBurst
    else if h = 0x7F#8 then some .wireFifoWriteBurst
    else if h = 0x3F#8 then some .wireFifoWriteSingle
    else if 0x30#8 ≤ h ∧ h ≤ 0x3D#8 then some (.wireStrobe (h.extractLsb' 0 4))
    else if h.extractLsb' 6 2 = 0b00#2 then some (.wireWriteSingleNormal (h.extractLsb' 0 6))
    else if h.extractLsb' 6 2 = 0b01#2 then some (.wireWriteBurstNormal (h.extractLsb' 0 6))
    else if h.extractLsb' 6 2 = 0b10#2 then some (.wireReadSingleNormal (h.extractLsb' 0 6))
    else some (.wireReadBurstNormal (h.extractLsb' 0 6))
  | [h, offset] =>
    if h = 0x2F#8 then some (.wireWriteSingleExtended offset)
    else if h = 0x6F#8 then some (.wireWriteBurstExtended offset)
    else if h = 0xAF#8 then some (.wireReadSingleExtended offset)
    else if h = 0xEF#8 then some (.wireReadBurstExtended offset)
    else none
  | _ => none

/-! ### Words of spec/opcode_table.json -/

/-- The bytes of a table word with the operand bytes of zeros after it. A row of 8 bits is one byte; a row
of 16 bits has its first byte in bits 15:8, as the table's own note says ("16-bit pattern written first byte
in bits 15:8"). -/
def tableBytes (nbits w : Nat) : List Byte :=
  if nbits ≤ 8 then [BitVec.ofNat 8 w] else [BitVec.ofNat 8 (w / 256), BitVec.ofNat 8 w]

/-- Operand bytes of zeros, as many as the longest row with zero counts can take. -/
def zeroOperands : List Byte := List.replicate 8 0x00#8

/-- The instruction of a table word: a command descriptor where the byte is an operation number, else the
wire pattern the bytes name (log 26: the words 0x30, 0x40 and 0xFF stand in two rows each). -/
def decodeTableWord (nbits w : Nat) : Option Instr :=
  if nbits ≤ 8 then
    match decodePrefix (tableBytes nbits w ++ zeroOperands) with
    | .ok (i, _) => some i
    | .error _ => decodeWire (tableBytes nbits w)
  else if nbits ≤ 16 then decodeWire (tableBytes nbits w)
  else none

/-- The bytes that present a table word at the command port: the word and just the zero operand bytes its
operation takes; the word alone where it is no operation number. -/
def tableDescriptor (nbits w : Nat) : List Byte :=
  match decodePrefix (tableBytes nbits w ++ zeroOperands) with
  | .ok (_, rest) => (tableBytes nbits w ++ zeroOperands).take
      ((tableBytes nbits w ++ zeroOperands).length - rest.length)
  | .error _ => tableBytes nbits w

/-! ### Encoding -/

/-- `u16`, high byte first (rule R101). -/
def encodeU16 (a : Addr) : List Byte := [highByte a, lowByte a]

/-- A count as `u16`. -/
def encodeCount (k : Nat) : List Byte := encodeU16 (BitVec.ofNat 16 k)

/-- `bool` (rule R101). -/
def encodeBool (b : Bool) : Byte := if b then 0x01#8 else 0x00#8

/-- StatusType codes (rule R102). -/
def encodeStatusType : StatusType → Byte
  | .status => 0#8
  | .marcState => 1#8
  | .marcStatus0 => 2#8
  | .marcStatus1 => 3#8
  | .modemStatus0 => 4#8
  | .modemStatus1 => 5#8

/-- One entry of `settings` (rule R101). -/
def encodeSetting (e : Setting) : List Byte := encodeU16 e.address ++ [e.value]

/-- The bytes of an instruction: the descriptor of a host operation (rules R99 to R102), the header bytes of
a wire pattern (rules R82 to R90). -/
def encode : Instr → List Byte
  | .init => [0x01#8]
  | .shutdown => [0x02#8]
  | .reset hardware => [0x03#8, encodeBool hardware]
  | .configure settings => 0x04#8 :: (encodeCount settings.length ++ settings.flatMap encodeSetting)
  | .readRegister a n => 0x10#8 :: (encodeU16 a ++ encodeCount n)
  | .writeRegister a bytes => 0x11#8 :: (encodeU16 a ++ (encodeCount bytes.length ++ bytes))
  | .updateRegister a bits => 0x12#8 :: (encodeU16 a ++ [bits])
  | .strobe command => [0x20#8, command]
  | .idle => [0x21#8]
  | .powerDown => [0x22#8]
  | .transmitArm => [0x23#8]
  | .receiveArm => [0x24#8]
  | .flushRx => [0x25#8]
  | .flushTx => [0x26#8]
  | .getStatus t keepBits shiftLR => [0x30#8, encodeStatusType t, keepBits, BitVec.ofInt 8 shiftLR]
  | .readRxFifo => [0x40#8]
  | .writeTxFifo bytes => 0x41#8 :: (encodeCount bytes.length ++ bytes)
  | .resolveFifoError => [0x42#8]
  | .setAddress addr => [0x50#8, addr]
  | .getAddress force => [0x51#8, encodeBool force]
  | .wireWriteSingleNormal a => [headerH1 opWriteSingle a]
  | .wireWriteBurstNormal a => [headerH1 opWriteBurst a]
  | .wireReadSingleNormal a => [headerH1 opReadSingle a]
  | .wireReadBurstNormal a => [headerH1 opReadBurst a]
  | .wireWriteSingleExtended offset => [opWriteSingle ||| extSelector, offset]
  | .wireWriteBurstExtended offset => [opWriteBurst ||| extSelector, offset]
  | .wireReadSingleExtended offset => [opReadSingle ||| extSelector, offset]
  | .wireReadBurstExtended offset => [opReadBurst ||| extSelector, offset]
  | .wireStrobe c => [strobeByte c]
  | .wireFifoReadSingle => [opReadSingle ||| fifoSelector]
  | .wireFifoReadBurst => [opReadBurst ||| fifoSelector]
  | .wireFifoWriteBurst => [opWriteBurst ||| fifoSelector]
  | .wireFifoWriteSingle => [opWriteSingle ||| fifoSelector]
  | .wireDummy => [dummyByte]

/-- The first byte of the instruction's row in spec/opcode_table.json: its match and its mask. -/
def tableRow : Instr → Byte × Byte
  | .init => (0x01#8, 0xFF#8)
  | .shutdown => (0x02#8, 0xFF#8)
  | .reset _ => (0x03#8, 0xFF#8)
  | .configure _ => (0x04#8, 0xFF#8)
  | .readRegister _ _ => (0x10#8, 0xFF#8)
  | .writeRegister _ _ => (0x11#8, 0xFF#8)
  | .updateRegister _ _ => (0x12#8, 0xFF#8)
  | .strobe _ => (0x20#8, 0xFF#8)
  | .idle => (0x21#8, 0xFF#8)
  | .powerDown => (0x22#8, 0xFF#8)
  | .transmitArm => (0x23#8, 0xFF#8)
  | .receiveArm => (0x24#8, 0xFF#8)
  | .flushRx => (0x25#8, 0xFF#8)
  | .flushTx => (0x26#8, 0xFF#8)
  | .getStatus _ _ _ => (0x30#8, 0xFF#8)
  | .readRxFifo => (0x40#8, 0xFF#8)
  | .writeTxFifo _ => (0x41#8, 0xFF#8)
  | .resolveFifoError => (0x42#8, 0xFF#8)
  | .setAddress _ => (0x50#8, 0xFF#8)
  | .getAddress _ => (0x51#8, 0xFF#8)
  | .wireWriteSingleNormal _ => (0x00#8, 0xC0#8)
  | .wireWriteBurstNormal _ => (0x40#8, 0xC0#8)
  | .wireReadSingleNormal _ => (0x80#8, 0xC0#8)
  | .wireReadBurstNormal _ => (0xC0#8, 0xC0#8)
  | .wireWriteSingleExtended _ => (0x2F#8, 0xFF#8)
  | .wireWriteBurstExtended _ => (0x6F#8, 0xFF#8)
  | .wireReadSingleExtended _ => (0xAF#8, 0xFF#8)
  | .wireReadBurstExtended _ => (0xEF#8, 0xFF#8)
  | .wireStrobe _ => (0x30#8, 0xF0#8)
  | .wireFifoReadSingle => (0xBF#8, 0xFF#8)
  | .wireFifoReadBurst => (0xFF#8, 0xFF#8)
  | .wireFifoWriteBurst => (0x7F#8, 0xFF#8)
  | .wireFifoWriteSingle => (0x3F#8, 0xFF#8)
  | .wireDummy => (0xFF#8, 0xFF#8)

/-! ### The textual form (rule R105) -/

/-- A hexadecimal digit. -/
def hexDigit (d : BitVec 4) : Char :=
  ['0', '1', '2', '3', '4', '5', '6', '7', '8', '9', 'A', 'B', 'C', 'D', 'E', 'F'].getD d.toNat '0'

/-- The two digits of a byte. -/
def hexDigits (b : Byte) : List Char := [hexDigit (b.extractLsb' 4 4), hexDigit (b.extractLsb' 0 4)]

/-- A byte with `0x`. -/
def byteText (b : Byte) : List Char := ['0', 'x'] ++ hexDigits b

/-- A RegisterAddress with `0x`. -/
def addrText (a : Addr) : List Char := ['0', 'x'] ++ hexDigits (highByte a) ++ hexDigits (lowByte a)

def boolText (b : Bool) : List Char := if b then "true".toList else "false".toList

/-- A number in decimal. -/
def natText (n : Nat) : List Char := Nat.toDigits 10 n

def intText (x : Int) : List Char := if x < 0 then '-' :: natText x.natAbs else natText x.natAbs

/-- Entries separated by commas, in square brackets. -/
def listText (entries : List (List Char)) : List Char := ['['] ++ [',', ' '].intercalate entries ++ [']']

/-- A setting as a parenthesised pair. -/
def settingText (e : Setting) : List Char := ['('] ++ addrText e.address ++ [',', ' '] ++ byteText e.value ++ [')']

def statusTypeText : StatusType → List Char
  | .status => "Status".toList
  | .marcState => "MarcState".toList
  | .marcStatus0 => "MarcStatus0".toList
  | .marcStatus1 => "MarcStatus1".toList
  | .modemStatus0 => "ModemStatus0".toList
  | .modemStatus1 => "ModemStatus1".toList

/-- A mnemonic followed by its operands, separated by commas. -/
def opText (mnemonic : String) (operands : List (List Char)) : List Char :=
  if operands.isEmpty then mnemonic.toList else mnemonic.toList ++ [' '] ++ [',', ' '].intercalate operands

/-- The textual form of an operation (rule R105); a wire pattern is written with its row's mnemonic, and the
bytes it emits, which rule R105 gives no form. -/
def Instr.text : Instr → List Char
  | .init => opText "init" []
  | .shutdown => opText "shutdown" []
  | .reset hardware => opText "reset" [boolText hardware]
  | .configure settings => opText "configure" [listText (settings.map settingText)]
  | .readRegister a n => opText "readRegister" [addrText a, natText n]
  | .writeRegister a bytes => opText "writeRegister" [addrText a, listText (bytes.map byteText)]
  | .updateRegister a bits => opText "updateRegister" [addrText a, byteText bits]
  | .strobe command => opText "strobe" [byteText command]
  | .idle => opText "idle" []
  | .powerDown => opText "powerDown" []
  | .transmitArm => opText "transmitArm" []
  | .receiveArm => opText "receiveArm" []
  | .flushRx => opText "flushRx" []
  | .flushTx => opText "flushTx" []
  | .getStatus t keepBits shiftLR =>
    opText "getStatus" [statusTypeText t, byteText keepBits, intText shiftLR]
  | .readRxFifo => opText "readRxFifo" []
  | .writeTxFifo bytes => opText "writeTxFifo" [listText (bytes.map byteText)]
  | .resolveFifoError => opText "resolveFifoError" []
  | .setAddress addr => opText "setAddress" [byteText addr]
  | .getAddress force => opText "getAddress" [boolText force]
  | .wireWriteSingleNormal a => opText "wire.write_single.normal" [byteText (headerH1 opWriteSingle a)]
  | .wireWriteBurstNormal a => opText "wire.write_burst.normal" [byteText (headerH1 opWriteBurst a)]
  | .wireReadSingleNormal a => opText "wire.read_single.normal" [byteText (headerH1 opReadSingle a)]
  | .wireReadBurstNormal a => opText "wire.read_burst.normal" [byteText (headerH1 opReadBurst a)]
  | .wireWriteSingleExtended offset => opText "wire.write_single.extended" [byteText 0x2F#8, byteText offset]
  | .wireWriteBurstExtended offset => opText "wire.write_burst.extended" [byteText 0x6F#8, byteText offset]
  | .wireReadSingleExtended offset => opText "wire.read_single.extended" [byteText 0xAF#8, byteText offset]
  | .wireReadBurstExtended offset => opText "wire.read_burst.extended" [byteText 0xEF#8, byteText offset]
  | .wireStrobe c => opText "wire.strobe" [byteText (strobeByte c)]
  | .wireFifoReadSingle => opText "wire.fifo.read_single" [byteText 0xBF#8]
  | .wireFifoReadBurst => opText "wire.fifo.read_burst" [byteText 0xFF#8]
  | .wireFifoWriteBurst => opText "wire.fifo.write_burst" [byteText 0x7F#8]
  | .wireFifoWriteSingle => opText "wire.fifo.write_single" [byteText 0x3F#8]
  | .wireDummy => opText "wire.dummy" [byteText dummyByte]

end Sys2Proof
end

