-- ==== Sys2Proof/Machine/Operands.lean ====
section
/-! DEFINITION. The operand forms: address classes, header assembly, strobe range, status addresses, and the
constraints on the parameters. -/

namespace Sys2Proof.Machine

/-- Classification (rule R51): Extended exactly when the high byte is 0x2F. -/
def isExtended (a : Addr) : Bool := highByte a == extSelector

/-- Direction of an access. -/
inductive Dir where
  | read
  | write
  deriving DecidableEq, Repr

/-- The header opcode, by direction and length only (rule R83). `n = 0` never reaches it (rule R62). -/
def opcode (d : Dir) (n : Nat) : Byte :=
  match d with
  | .read => if n = 1 then opReadSingle else opReadBurst
  | .write => if n = 1 then opWriteSingle else opWriteBurst

/-- Header assembly (rule R85): two bytes for an Extended address, one for a Normal one; the low byte is ORed
in unmasked (rule R86). -/
def hdr (d : Dir) (a : Addr) (n : Nat) : List Byte :=
  if isExtended a then [opcode d n ||| extSelector, lowByte a] else [opcode d n ||| lowByte a]

/-- FIFO_ADDR, for both directions (rules R57, R140). -/
def fifoAddr : Addr := 0x003F#16

/-- The register address of a status type; none for the pseudo-address `Status` (rules R36, R137). -/
def statusAddress (c : Params) : StatusType → Option Addr
  | .status => none
  | .marcState => some c.addrMarcState
  | .marcStatus0 => some c.addrMarcStatus0
  | .marcStatus1 => some c.addrMarcStatus1
  | .modemStatus0 => some c.addrModemStatus0
  | .modemStatus1 => some c.addrModemStatus1

/-- Is the address one the model refuses? A Normal-space address with low byte 0x2F always (rules R52, R214,
U3, D5; log 9); one with low byte above 0x3F where `refuseWideAddress` says so (U2, D4; log 8). -/
def badAddress (c : Params) (a : Addr) : Bool :=
  !isExtended a && (lowByte a == extSelector || (c.refuseWideAddress && decide (0x3F#8 < lowByte a)))

/-- The addresses an operation accesses, named in an operand or taken from a parameter. A wire pattern names
none: no command port sees it (rule R117). -/
def addresses (c : Params) : Instr → List Addr
  | .configure settings => settings.map (·.address)
  | .readRegister a _ | .writeRegister a _ | .updateRegister a _ => [a]
  | .getStatus t _ _ => (statusAddress c t).toList
  | .readRxFifo => [c.addrNumRxBytes, fifoAddr]
  | .writeTxFifo _ => [fifoAddr]
  | .resolveFifoError => [c.addrMarcState]
  | .setAddress _ => [c.addrDevAddr]
  | .getAddress force => if force then [c.addrDevAddr] else []
  | .init | .shutdown | .reset _ | .strobe _ | .idle | .powerDown | .transmitArm | .receiveArm | .flushRx
  | .flushTx | .wireWriteSingleNormal _ | .wireWriteBurstNormal _ | .wireReadSingleNormal _
  | .wireReadBurstNormal _ | .wireWriteSingleExtended _ | .wireWriteBurstExtended _
  | .wireReadSingleExtended _ | .wireReadBurstExtended _ | .wireStrobe _ | .wireFifoReadSingle
  | .wireFifoReadBurst | .wireFifoWriteBurst | .wireFifoWriteSingle | .wireDummy => []

/-- Does an operation access an address the model refuses? -/
def namesBadAddress (c : Params) (i : Instr) : Bool := (addresses c i).any (badAddress c)

/-- Strobe validity (rule R131): STROBE_MIN = 0x30 to STROBE_MAX = 0x3D, both included. -/
def isStrobe (c : Byte) : Bool := decide (0x30#8 ≤ c) && decide (c ≤ 0x3D#8)

/-- The eight strobe parameters (rule R9). -/
def strobes (c : Params) : List Byte :=
  [c.strobeSRES, c.strobeSRX, c.strobeSTX, c.strobeSIDLE, c.strobeSPWD, c.strobeSFRX, c.strobeSFTX,
    c.strobeSNOP]

/-- The five status addresses (rule R9). -/
def statusAddresses (c : Params) : List Addr :=
  [c.addrMarcState, c.addrMarcStatus0, c.addrMarcStatus1, c.addrModemStatus0, c.addrModemStatus1]

/-- Are no two entries of the list equal? -/
def allDistinct : List Byte → Bool
  | [] => true
  | b :: bs => !bs.contains b && allDistinct bs

/-- The constraints on the parameters: every strobe in range, every status address Extended (rule R10), no two
strobes equal (U21). -/
def configOk (c : Params) : Bool :=
  (strobes c).all isStrobe && (statusAddresses c).all isExtended && allDistinct (strobes c)

end Sys2Proof.Machine
end

