-- ==== Sys2Proof/Machine/Ops.lean ====
section
/-! DEFINITION. The shared operations: the platform primitives of rule R13, the draws of rule R11, the
transaction (rules R110 to R116), running an operation to its end or to a ready wait that holds, giving the
host an outcome (rule R176), and the checks before an operation (rule R182). -/

namespace Sys2Proof.Machine

abbrev Answer := Host.Outcome State Fault Refusal

/-! ### The trace and the outcome -/

/-- Append an event to the trace (rule R13). -/
def State.log (e : Event) (s : State) : State := { s with trace := s.trace ++ [e] }

/-- Give the host an outcome; nothing else changes (rules R176, R183). -/
def State.answer (r : Reply) (s : State) : State := { s with replies := s.replies ++ [r] }

/-- End the operation in progress: its latches are dropped and the host is given the outcome (rules R27, R29,
R202). -/
def State.finish (r : Reply) (s : State) : State :=
  { s with job := none, buf := [], replies := s.replies ++ [r] }

/-! ### Draws (rules R6, R11) -/

/-- The byte the peer returns in the next exchange. -/
def State.nextByte (s : State) : Byte := s.env.bytes.head?.getD (Config.peerByte s.env.draws)

/-- The state once that byte has been drawn. -/
def State.byteDrawn (s : State) : State :=
  { s with env := { s.env with bytes := s.env.bytes.tail, draws := s.env.draws + 1 } }

/-- The level of the ready line at the next sample, `PinGet(READY)`. -/
def State.nextLevel (s : State) : Level := s.env.ready.head?.getD (Config.readyLevel s.env.samples)

/-- The state once that sample has been taken. -/
def State.levelSampled (s : State) : State :=
  { s with env := { s.env with ready := s.env.ready.tail, samples := s.env.samples + 1 } }

/-- The next pad byte (rule R142). -/
def State.nextPad (s : State) : Byte := s.env.pads.head?.getD (Config.padByte s.env.padDraws)

/-- The state once the pad has been drawn. -/
def State.padDrawn (s : State) : State :=
  { s with env := { s.env with pads := s.env.pads.tail, padDraws := s.env.padDraws + 1 } }

/-! ### Platform primitives (rule R13) -/

/-- `PinMode(p, m)`. -/
def State.pinMode (p : Pin) (m : PinRole) (s : State) : State := s.log (.pin p m)

/-- `PinSet(CS, l)` and the register `cs` (rule R23). -/
def State.driveCs (l : Level) (s : State) : State :=
  { s with cs := (match l with | .low => .low | .high => .high), trace := s.trace ++ [.cs l] }

/-- `PinSet(RST, l)` and the register `rst` (rule R24). -/
def State.driveRst (l : Level) (s : State) : State :=
  { s with rst := (match l with | .low => .low | .high => .high), trace := s.trace ++ [.rst l] }

/-- `DelayMs(n)`: blocks, and leaves only its event (rules R13, R223). -/
def State.delayMs (n : Nat) (s : State) : State := s.log (.dly n)

/-- `BusEnable()` and `BusDisable()`, and the register `bus_on` (rule R25). -/
def State.setBus (on : Bool) (s : State) : State :=
  { s with busOn := on, trace := s.trace ++ [.bus on] }

/-- `Xfer(b)` (rule R110): the state afterwards; the byte returned is `s.nextByte`. -/
def State.xfer (b : Byte) (s : State) : State := s.byteDrawn.log (.x b s.nextByte)

/-- Keep a returned byte in the latch of bytes read so far (rules R27, R87). -/
def State.keep (r : Byte) (s : State) : State := { s with buf := s.buf ++ [r] }

/-- `End()` (rule R113). -/
def State.endTransaction (s : State) : State := s.driveCs .high

/-! ### The ready wait (rules R112, R115) -/

/-- How one turn of the ready wait ends: the peer is ready, the wait holds (with the samples it may still
take), or a bounded wait has given up. -/
inductive WaitEnd where
  | ready
  | holding (left : Option Nat)
  | expired
  deriving DecidableEq, Repr

/-- What the sample `l` does to a wait that may still take `left` samples. -/
def waitEnd (c : Params) (left : Option Nat) (l : Level) : WaitEnd :=
  if l = c.readyActiveLevel then .ready
  else
    match left with
    | none => .holding none
    | some n => if n ≤ 1 then .expired else .holding (some (n - 1))

/-- One turn of the ready wait: one sample (none where no sample is left), and what it does. -/
def State.waitTurn (left : Option Nat) (s : State) : WaitEnd × State :=
  if left = some 0 then (.expired, s) else (waitEnd s.cfg left s.nextLevel, s.levelSampled)

/-! ### Transactions -/

/-- One transaction around the exchanges `xs`: `Begin(); xs; End()` (rules R111 to R114). -/
def transaction (c : Params) (xs : List Micro) : List Micro :=
  [.select, .wait c.readyTimeout] ++ xs ++ [.deselect]

/-- `ReadBody(a, n)` (rule R120). -/
def readBody (a : Addr) (n : Nat) : List Micro :=
  (hdr .read a n).map .send ++ List.replicate n (.recv dummyByte)

/-- `WriteBody(a, bytes)` (rule R120). -/
def writeBody (a : Addr) (bytes : List Byte) : List Micro :=
  (hdr .write a bytes.length).map .send ++ bytes.map .send

/-- The micro-operations of `readRegister(a, n)` (rule R121): none if `n = 0`. -/
def readSeq (c : Params) (a : Addr) (n : Nat) : List Micro :=
  if n = 0 then [] else transaction c (readBody a n)

/-- The micro-operations of `writeRegister(a, bytes)` (rule R122): none if there is no byte. -/
def writeSeq (c : Params) (a : Addr) (bytes : List Byte) : List Micro :=
  if bytes.length = 0 then [] else transaction c (writeBody a bytes)

/-- The micro-operations of `strobe(v)` (rule R130): none if `v` is out of range. -/
def strobeSeq (c : Params) (v : Byte) : List Micro :=
  if isStrobe v then transaction c [.send v] else []

/-- The micro-operations of the status query of type `t` (rule R136). -/
def statusSeq (c : Params) (t : StatusType) : List Micro :=
  match statusAddress c t with
  | none => transaction c [.recv c.strobeSNOP]
  | some a => readSeq c a 1

/-- The micro-operations of the configure batch (rules R97, R155). -/
def configureSeq (c : Params) (settings : List Setting) : List Micro :=
  transaction c (settings.flatMap fun e => writeBody e.address [e.value])

/-- How running micro-operations ends: all done, held in a ready wait with these still to do, or a bounded
wait has given up. -/
inductive SeqEnd where
  | done
  | held (rest : List Micro)
  | expired
  deriving DecidableEq, Repr

/-- Run micro-operations until the end, a ready wait that holds, or a bounded wait that gives up, after which
the select line is raised (rules R110 to R115). -/
def runSeq : List Micro → State → SeqEnd × State
  | [], s => (.done, s)
  | .select :: ms, s => runSeq ms (s.driveCs .low)
  | .wait left :: ms, s =>
    match s.waitTurn left with
    | (.ready, s') => runSeq ms (s'.log .rdy)
    | (.holding left', s') => (.held (.wait left' :: ms), s')
    | (.expired, s') => (.expired, s'.endTransaction)
  | .send b :: ms, s => runSeq ms (s.xfer b)
  | .recv b :: ms, s => runSeq ms ((s.xfer b).keep s.nextByte)
  | .deselect :: ms, s => runSeq ms s.endTransaction

/-! ### The rest of an operation after a transaction -/

/-- What the operation does next: end with an outcome, go on with another transaction, or (a wire pattern
alone) stop with the transaction open. -/
inductive Continue where
  | reply (r : Reply)
  | go (j : Job)
  | leave
  deriving DecidableEq, Repr

/-- The first byte read, `..[0]` of the pseudocode; a free value where none has been read, which no
operation's sequence allows (log 37). -/
def State.firstByte (s : State) : Byte := s.buf.head?.getD s.nextByte

/-- resolveFifoError: the test of the MarcState code `m` against TX_FIFO_ERR with `count` flushes so far
(rule R143). -/
def txDecide (c : Params) (m : Byte) (count : Nat) : Continue :=
  if m = marcTxFifoErr then .go ⟨strobeSeq c c.strobeSFTX, .txFlushed count⟩
  else .reply (.done (.count count))

/-- The MarcState sample of resolveFifoError, then the test `k`. -/
def marcSample (c : Params) (k : After) : Continue := .go ⟨statusSeq c .marcState, k⟩

/-- What follows the transaction (rules R121 to R163), from the bytes it has read. -/
def continueWith (k : After) (s : State) : Continue :=
  match k with
  | .ack => .reply (.done .none)
  | .bytes => .reply (.done (.bytes s.buf))
  | .masked keepBits shiftLR => .reply (.done (.byte (maskShift s.firstByte keepBits shiftLR)))
  | .merge a bits =>
    if s.firstByte ||| bits = s.firstByte then .reply (.done .none)
    else .go ⟨writeSeq s.cfg a [s.firstByte ||| bits], .ack⟩
  | .drain =>
    if s.firstByte.toNat = 0 then .reply (.done (.bytes []))
    else .go ⟨readSeq s.cfg fifoAddr s.firstByte.toNat, .bytes⟩
  | .enter _ => .reply (.done .none)
  | .settle => .reply (.done .none)
  | .setShadow _ => .reply (.done .none)
  | .adopt => .reply (.done (.byte s.firstByte))
  | .rxTest =>
    if marcState s.firstByte = marcRxFifoErr then .go ⟨strobeSeq s.cfg s.cfg.strobeSFRX, .rxFlushed⟩
    else if s.cfg.resolveSingleSample then txDecide s.cfg (marcState s.firstByte) 0
    else marcSample s.cfg (.txTest 0)
  | .rxFlushed =>
    if s.cfg.resolveSingleSample then txDecide s.cfg marcRxFifoErr 1
    else marcSample s.cfg (.txTest 1)
  | .txTest count => txDecide s.cfg (marcState s.firstByte) count
  | .txFlushed count => .reply (.done (.count (count + 1)))
  | .leaveOpen => .leave

/-- The engine registers written after the transaction: `life`, `shadow` (rules R151, R162, R163), and the
settle delay of configure (rule R155). -/
def writeBack (k : After) (s : State) : State :=
  match k with
  | .enter l => { s with life := l }
  | .settle => s.delayMs s.cfg.tCfgMs
  | .setShadow addr => { s with shadow := some addr }
  | .adopt => { s with shadow := some s.firstByte }
  | .ack | .bytes | .masked _ _ | .merge _ _ | .drain | .rxTest | .rxFlushed | .txTest _ | .txFlushed _
  | .leaveOpen => s

/-- Run an operation through at most `fuel` transactions, until it ends or a ready wait holds. A held
operation stays in `job`; a bounded wait that gives up ends it with `BusNotReady` and no further effect
(rules R29, R112, R115). -/
def runJob : Nat → Job → State → State
  | 0, j, s => { s with job := some j, buf := [] }
  | fuel + 1, j, s =>
    match runSeq j.seq s with
    | (.held rest, s') => { s' with job := some ⟨rest, j.after⟩ }
    | (.expired, s') => s'.finish .busNotReady
    | (.done, s') =>
      match continueWith j.after s' with
      | .reply r => (writeBack j.after s').finish r
      | .go j' => runJob fuel j' { s' with buf := [] }
      | .leave => { s' with job := none }

/-- The most transactions an operation makes: resolveFifoError with both flushes (rule R173). -/
def maxTransactions : Nat := 4

/-- Start an operation as the micro-operations `seq` and what follows them, with empty latches. -/
def State.start (seq : List Micro) (k : After) (s : State) : State :=
  runJob maxTransactions ⟨seq, k⟩ { s with buf := [] }

/-- Go on with the operation in progress: the next turn of its ready wait, and what follows. -/
def State.resume (j : Job) (s : State) : State := runJob maxTransactions j s

/-! ### Issuing an operation -/

/-- Is an operation in progress or a transaction open (rule R26)? The host has no move then. -/
def State.engaged (s : State) : Bool := s.job.isSome || decide (s.cs = .low)

/-- The checks before an operation other than `init`, in the order of rule R182: descriptor, lifetime,
address (U2, U3; logs 8, 9); then its body. -/
def issue (i : Instr) (s : State) (body : State → Answer) : Answer :=
  if s.engaged then .refused .transactionOpen
  else if i.wf = false then .next (s.answer (.refused .badDescriptor))
  else if s.life = .uninitialized then .next (s.answer (.refused .notInitialized))
  else if namesBadAddress s.cfg i then .next (s.answer (.refused .badAddress))
  else body s

/-- Issue an operation whose body is micro-operations and what follows them. -/
def issueSeq (i : Instr) (s : State) (seq : List Micro) (k : After) : Answer :=
  issue i s fun s => .next (s.start seq k)

/-- Emit a wire pattern: its exchanges inside the open transaction (rules R85, R89, R110). -/
def emit (ms : List Micro) (s : State) : Answer :=
  if s.cs = .low ∧ s.busOn = true ∧ s.job = none then .next (runSeq ms s).2 else .refused .noTransaction

/-! ### The command port -/

/-- Take the next descriptor from the command port. -/
def State.accepted (rest : List (List Byte)) (s : State) : State := { s with env := { s.env with host := rest } }

/-- A descriptor that is not an operation: no activity, no state change (rule R103). -/
def State.rejected (s : State) : State := s.answer (.refused .badDescriptor)

/-- Present a descriptor as the next one at the command port, the engine being between operations. -/
def State.present (d : List Byte) (s : State) : State :=
  { s with
    job := none
    cs := if s.cs = .low then .high else s.cs
    env := { s.env with host := d :: s.env.host } }

/-- The exchanges of a wire pattern: the dummy byte reads a payload byte (rule R87), every other header byte
is sent and the answer discarded (D6); a strobe byte out of range is never sent (rule R131). A host operation
is no wire pattern and has none. -/
def wireMicros (i : Instr) : List Micro :=
  match i with
  | .wireWriteSingleNormal a => [.send (headerH1 opWriteSingle a)]
  | .wireWriteBurstNormal a => [.send (headerH1 opWriteBurst a)]
  | .wireReadSingleNormal a => [.send (headerH1 opReadSingle a)]
  | .wireReadBurstNormal a => [.send (headerH1 opReadBurst a)]
  | .wireWriteSingleExtended offset => [.send (opWriteSingle ||| extSelector), .send offset]
  | .wireWriteBurstExtended offset => [.send (opWriteBurst ||| extSelector), .send offset]
  | .wireReadSingleExtended offset => [.send (opReadSingle ||| extSelector), .send offset]
  | .wireReadBurstExtended offset => [.send (opReadBurst ||| extSelector), .send offset]
  | .wireStrobe c => if isStrobe (strobeByte c) then [.send (strobeByte c)] else []
  | .wireFifoReadSingle => [.send (opReadSingle ||| fifoSelector)]
  | .wireFifoReadBurst => [.send (opReadBurst ||| fifoSelector)]
  | .wireFifoWriteBurst => [.send (opWriteBurst ||| fifoSelector)]
  | .wireFifoWriteSingle => [.send (opWriteSingle ||| fifoSelector)]
  | .wireDummy => [.recv dummyByte]
  | .init | .shutdown | .reset _ | .configure _ | .readRegister _ _ | .writeRegister _ _
  | .updateRegister _ _ | .strobe _ | .idle | .powerDown | .transmitArm | .receiveArm | .flushRx | .flushTx
  | .getStatus _ _ _ | .readRxFifo | .writeTxFifo _ | .resolveFifoError | .setAddress _
  | .getAddress _ => []

/-- Place a wire pattern as the sequencer's next micro-operation inside an open transaction. -/
def State.presentWire (i : Instr) (s : State) : State :=
  { s with cs := .low, busOn := true, buf := [], job := some ⟨wireMicros i, .leaveOpen⟩ }

end Sys2Proof.Machine
end

