-- ==== Sys2Proof/Machine/Controller.lean ====
section
/-! DEFINITION. DeviceController (45_device_controller.md): the lifecycle operations, configuration, the semantic
strobes, the device address. -/

namespace Sys2Proof.Machine

/-- `HwResetPulse()` (rule R154): one delay after each edge. -/
def hwResetPulse (s : State) : State :=
  let s := (s.driveRst .low).delayMs s.cfg.tRstLowMs
  (s.driveRst .high).delayMs s.cfg.tRstHighMs

/-- The pin setup of `init` (rule R152). -/
def pinSetup (s : State) : State :=
  let s := (s.pinMode .cs .out).driveCs .high
  let s := s.pinMode .ready .inp
  if s.cfg.hasResetLine then (s.pinMode .rst .out).driveRst .high else s

/-- The body of `init` (rule R152): pin setup, byte-transfer unit, the shadow's default (broadcast, 0), the
optional pulse, the settle delay, `life`. -/
def bringUp (s : State) : State :=
  let s := (pinSetup s).setBus true
  let s := { s with shadow := some 0x00#8 }
  let s := if s.cfg.hasResetLine && s.cfg.initHwReset then hwResetPulse s else s
  let s := s.delayMs s.cfg.tInitMs
  { s with life := .ready }

/-- The body of `shutdown` (rule R164). -/
def tearDown (s : State) : State :=
  let s := s.setBus false
  let s := { s.pinMode .cs .released with cs := .released }
  let s := s.pinMode .ready .released
  let s := if s.cfg.hasResetLine then { s.pinMode .rst .released with rst := .released } else s
  { s with shadow := none, life := .uninitialized }

/-- `init()` (rule R152): refused while initialized (rule R165). -/
def execInit (s : State) : Answer :=
  if s.engaged then .refused .transactionOpen
  else if s.life = .uninitialized then .next ((bringUp s).answer (.done .none))
  else .next (s.answer (.refused .alreadyInitialized))

/-- `shutdown()` (rule R164). -/
def execShutdown (s : State) : Answer :=
  issue .shutdown s fun s => .next ((tearDown s).answer (.done .none))

/-- `reset(hardware)` (rule R153): the pulse where it is asked for and there is a line, else the strobe. -/
def execReset (hardware : Bool) (s : State) : Answer :=
  issue (.reset hardware) s fun s =>
    if hardware && s.cfg.hasResetLine then
      .next ({ hwResetPulse s with life := .ready }.answer (.done .none))
    else .next (s.start (strobeSeq s.cfg s.cfg.strobeSRES) (.enter .ready))

/-- `configure(settings)` (rule R155): the whole batch in one transaction, then the settle delay. -/
def execConfigure (settings : List Setting) (s : State) : Answer :=
  issueSeq (.configure settings) s (configureSeq s.cfg settings) .settle

/-- `idle()` (rule R156). -/
def execIdle (s : State) : Answer :=
  issueSeq .idle s (strobeSeq s.cfg s.cfg.strobeSIDLE) (.enter .idle)

/-- `powerDown()` (rule R157). -/
def execPowerDown (s : State) : Answer :=
  issueSeq .powerDown s (strobeSeq s.cfg s.cfg.strobeSPWD) (.enter .poweredDown)

/-- `transmitArm()` (rule R158). -/
def execTransmitArm (s : State) : Answer :=
  issueSeq .transmitArm s (strobeSeq s.cfg s.cfg.strobeSTX) (.enter .transmitting)

/-- `receiveArm()` (rule R159). -/
def execReceiveArm (s : State) : Answer :=
  issueSeq .receiveArm s (strobeSeq s.cfg s.cfg.strobeSRX) (.enter .receiving)

/-- `flushRx()` (rule R160): `life` is not written. -/
def execFlushRx (s : State) : Answer :=
  issueSeq .flushRx s (strobeSeq s.cfg s.cfg.strobeSFRX) .ack

/-- `flushTx()` (rule R161): `life` is not written. -/
def execFlushTx (s : State) : Answer :=
  issueSeq .flushTx s (strobeSeq s.cfg s.cfg.strobeSFTX) .ack

/-- `setAddress(addr)` (rule R162): the register write first, then the shadow. -/
def execSetAddress (addr : Byte) (s : State) : Answer :=
  issueSeq (.setAddress addr) s (writeSeq s.cfg s.cfg.addrDevAddr [addr]) (.setShadow addr)

/-- `getAddress(force)` (rule R163): without `force` the shadow, with no bus activity; with `force` the peer's
register is read into the shadow first. A shadow without a value cannot be read (rule R22, log 29). -/
def execGetAddress (force : Bool) (s : State) : Answer :=
  issue (.getAddress force) s fun s =>
    if force then .next (s.start (readSeq s.cfg s.cfg.addrDevAddr 1) .adopt)
    else
      match s.shadow with
      | some addr => .next (s.answer (.done (.byte addr)))
      | none => .fault .shadowMissing

end Sys2Proof.Machine
end

