-- ==== Sys2Proof/Machine/Fifo.lean ====
section
/-! DEFINITION. FifoManager (44_fifo_manager.md). -/

namespace Sys2Proof.Machine

/-- `readRxFifo()` (rule R141): the count register, then that many bytes of the FIFO. -/
def execReadRxFifo (s : State) : Answer :=
  issueSeq .readRxFifo s (readSeq s.cfg s.cfg.addrNumRxBytes 1) .drain

/-- `writeTxFifo(bytes)` (rule R142): nothing for two bytes or fewer, else the buffer and one pad byte, a free
draw, in one burst write. -/
def execWriteTxFifo (bytes : List Byte) (s : State) : Answer :=
  issue (.writeTxFifo bytes) s fun s =>
    if bytes.length ≤ 2 then .next (s.answer (.done .none))
    else .next (s.padDrawn.start (writeSeq s.cfg fifoAddr (bytes ++ [s.nextPad])) .ack)

/-- `resolveFifoError()` (rule R143): a MarcState sample, the RX test, a second sample unless
RESOLVE_SINGLE_SAMPLE, the TX test. -/
def execResolveFifoError (s : State) : Answer :=
  issueSeq .resolveFifoError s (statusSeq s.cfg .marcState) .rxTest

end Sys2Proof.Machine
end

