-- ==== Sys2Proof/Machine/Register.lean ====
section
/-! DEFINITION. RegisterAccessor (41_register_access.md). -/

namespace Sys2Proof.Machine

/-- `readRegister(address, length)` (rule R121). -/
def execReadRegister (address : Addr) (length : Nat) (s : State) : Answer :=
  issueSeq (.readRegister address length) s (readSeq s.cfg address length) .bytes

/-- `writeRegister(address, bytes)` (rule R122). -/
def execWriteRegister (address : Addr) (bytes : List Byte) (s : State) : Answer :=
  issueSeq (.writeRegister address bytes) s (writeSeq s.cfg address bytes) .ack

/-- `updateRegister(address, bits)` (rule R123): a one-byte read, then a write in a transaction of its own if
ORing `bits` in changes the byte. -/
def execUpdateRegister (address : Addr) (bits : Byte) (s : State) : Answer :=
  issueSeq (.updateRegister address bits) s (readSeq s.cfg address 1) (.merge address bits)

end Sys2Proof.Machine
end

