-- ==== Sys2Proof/Machine/Status.lean ====
section
/-! DEFINITION. StatusReader (43_status_reader.md). -/

namespace Sys2Proof.Machine

/-- `getStatus(type, keepBits, shiftLR)` (rule R136): the byte of a no-op strobe or of a one-byte register
read, masked then shifted. -/
def execGetStatus (type : StatusType) (keepBits : Byte) (shiftLR : Int) (s : State) : Answer :=
  issueSeq (.getStatus type keepBits shiftLR) s (statusSeq s.cfg type) (.masked keepBits shiftLR)

end Sys2Proof.Machine
end

