-- ==== Sys2Proof/Machine/Strobe.lean ====
section
/-! DEFINITION. CommandStrobe (42_command_strobe.md). -/

namespace Sys2Proof.Machine

/-- `strobe(command)` (rule R130): one framed exchange, nothing at all out of range; `life` is not written. -/
def execStrobe (command : Byte) (s : State) : Answer :=
  issueSeq (.strobe command) s (strobeSeq s.cfg command) .ack

end Sys2Proof.Machine
end

