-- ==== Sys2Proof/Machine/Wire.lean ====
section
/-! DEFINITION. The wire emission patterns (30_encoding.md): what the sequencer emits inside an open transaction
(log 25). -/

namespace Sys2Proof.Machine

/-- The header of a Normal single write (rules R82, R85). -/
def execWireWriteSingleNormal (a : BitVec 6) (s : State) : Answer :=
  emit [.send (headerH1 opWriteSingle a)] s

/-- The header of a Normal burst write (rules R82, R85). -/
def execWireWriteBurstNormal (a : BitVec 6) (s : State) : Answer :=
  emit [.send (headerH1 opWriteBurst a)] s

/-- The header of a Normal single read (rules R82, R85). -/
def execWireReadSingleNormal (a : BitVec 6) (s : State) : Answer :=
  emit [.send (headerH1 opReadSingle a)] s

/-- The header of a Normal burst read (rules R82, R85). -/
def execWireReadBurstNormal (a : BitVec 6) (s : State) : Answer :=
  emit [.send (headerH1 opReadBurst a)] s

/-- The two header bytes of an Extended single write (rule R84). -/
def execWireWriteSingleExtended (offset : Byte) (s : State) : Answer :=
  emit [.send (opWriteSingle ||| extSelector), .send offset] s

/-- The two header bytes of an Extended burst write (rule R84). -/
def execWireWriteBurstExtended (offset : Byte) (s : State) : Answer :=
  emit [.send (opWriteBurst ||| extSelector), .send offset] s

/-- The two header bytes of an Extended single read (rule R84). -/
def execWireReadSingleExtended (offset : Byte) (s : State) : Answer :=
  emit [.send (opReadSingle ||| extSelector), .send offset] s

/-- The two header bytes of an Extended burst read (rule R84). -/
def execWireReadBurstExtended (offset : Byte) (s : State) : Answer :=
  emit [.send (opReadBurst ||| extSelector), .send offset] s

/-- A strobe byte, sent unchanged; out of range nothing is sent (rules R89, R130). -/
def execWireStrobe (c : BitVec 4) (s : State) : Answer :=
  emit (if isStrobe (strobeByte c) then [.send (strobeByte c)] else []) s

/-- The FIFO header 0xBF: read one byte (rule R90). -/
def execWireFifoReadSingle (s : State) : Answer :=
  emit [.send (opReadSingle ||| fifoSelector)] s

/-- The FIFO header 0xFF: read several bytes (rule R90). -/
def execWireFifoReadBurst (s : State) : Answer :=
  emit [.send (opReadBurst ||| fifoSelector)] s

/-- The FIFO header 0x7F: write several bytes (rule R90). -/
def execWireFifoWriteBurst (s : State) : Answer :=
  emit [.send (opWriteBurst ||| fifoSelector)] s

/-- The FIFO header 0x3F: write one byte (rule R90). -/
def execWireFifoWriteSingle (s : State) : Answer :=
  emit [.send (opWriteSingle ||| fifoSelector)] s

/-- The dummy byte: one payload byte is read and kept (rule R87). -/
def execWireDummy (s : State) : Answer :=
  emit [.recv dummyByte] s

end Sys2Proof.Machine
end

