-- ==== Sys2Proof/Machine/Dispatch.lean ====
section
/-! DEFINITION. One arm per instruction, each a call of its meaning. -/

namespace Sys2Proof.Machine

def exec (i : Instr) (s : State) : Host.Outcome State Fault Refusal :=
  match i with
  | .init => Sys2Proof.Machine.execInit s
  | .shutdown => Sys2Proof.Machine.execShutdown s
  | .reset hardware => Sys2Proof.Machine.execReset hardware s
  | .configure settings => Sys2Proof.Machine.execConfigure settings s
  | .readRegister address length => Sys2Proof.Machine.execReadRegister address length s
  | .writeRegister address bytes => Sys2Proof.Machine.execWriteRegister address bytes s
  | .updateRegister address bits => Sys2Proof.Machine.execUpdateRegister address bits s
  | .strobe command => Sys2Proof.Machine.execStrobe command s
  | .idle => Sys2Proof.Machine.execIdle s
  | .powerDown => Sys2Proof.Machine.execPowerDown s
  | .transmitArm => Sys2Proof.Machine.execTransmitArm s
  | .receiveArm => Sys2Proof.Machine.execReceiveArm s
  | .flushRx => Sys2Proof.Machine.execFlushRx s
  | .flushTx => Sys2Proof.Machine.execFlushTx s
  | .getStatus type keepBits shiftLR => Sys2Proof.Machine.execGetStatus type keepBits shiftLR s
  | .readRxFifo => Sys2Proof.Machine.execReadRxFifo s
  | .writeTxFifo bytes => Sys2Proof.Machine.execWriteTxFifo bytes s
  | .resolveFifoError => Sys2Proof.Machine.execResolveFifoError s
  | .setAddress addr => Sys2Proof.Machine.execSetAddress addr s
  | .getAddress force => Sys2Proof.Machine.execGetAddress force s
  | .wireWriteSingleNormal a => Sys2Proof.Machine.execWireWriteSingleNormal a s
  | .wireWriteBurstNormal a => Sys2Proof.Machine.execWireWriteBurstNormal a s
  | .wireReadSingleNormal a => Sys2Proof.Machine.execWireReadSingleNormal a s
  | .wireReadBurstNormal a => Sys2Proof.Machine.execWireReadBurstNormal a s
  | .wireWriteSingleExtended offset => Sys2Proof.Machine.execWireWriteSingleExtended offset s
  | .wireWriteBurstExtended offset => Sys2Proof.Machine.execWireWriteBurstExtended offset s
  | .wireReadSingleExtended offset => Sys2Proof.Machine.execWireReadSingleExtended offset s
  | .wireReadBurstExtended offset => Sys2Proof.Machine.execWireReadBurstExtended offset s
  | .wireStrobe c => Sys2Proof.Machine.execWireStrobe c s
  | .wireFifoReadSingle => Sys2Proof.Machine.execWireFifoReadSingle s
  | .wireFifoReadBurst => Sys2Proof.Machine.execWireFifoReadBurst s
  | .wireFifoWriteBurst => Sys2Proof.Machine.execWireFifoWriteBurst s
  | .wireFifoWriteSingle => Sys2Proof.Machine.execWireFifoWriteSingle s
  | .wireDummy => Sys2Proof.Machine.execWireDummy s

end Sys2Proof.Machine
end

