-- ==== Sys2Proof/Machine/Step.lean ====
section
/-! DEFINITION. One step of the engine, and how an instruction comes to be the next one it runs. -/

namespace Sys2Proof.Machine

/-- One step: the operation in progress goes on with its ready wait (rules R29, R112); between operations the
next descriptor at the command port is decoded and run, or refused (rules R98, R103); with none the engine
waits for one (rule R201). A configuration outside its constraints is refused (rule R10, U21). -/
def step (s : State) : Host.Outcome State Fault Refusal :=
  if configOk s.cfg = false then .refused .badConfiguration
  else
    match s.job with
    | some j => .next (s.resume j)
    | none =>
      match s.env.host with
      | [] => .next s
      | d :: rest =>
        match decode d with
        | .ok i => exec i (s.accepted rest)
        | .error _ => .next (s.accepted rest).rejected

/-- The state whose next step runs the instruction of the table word `w`: a host operation is the next
descriptor at the command port; a wire pattern is the sequencer's next micro-operation inside an open
transaction (logs 26, 27). -/
def State.withFetchWord (s : State) (nbits w : Nat) : State :=
  match decodeTableWord nbits w with
  | some i => if i.isWire then s.presentWire i else s.present (tableDescriptor nbits w)
  | none => s.present (tableDescriptor nbits w)

end Sys2Proof.Machine
end

