-- ==== Sys2Proof/Safety.lean ====
section
/-! DEFINITION. The terms claims are stated in: what the peer will answer, the state after a whole transaction,
when an operation is admitted, which runs are without a refusal, the frame grammar of the trace, and the
invariant of the machine. -/

namespace Sys2Proof.Machine

/-! ### What the peer will answer -/

/-- The byte the peer returns in the `k`-th exchange from now (rules R6, R11). -/
def State.byteAt (s : State) (k : Nat) : Byte := s.env.bytes[k]?.getD (Config.peerByte (s.env.draws + k))

/-- The level of the `k`-th ready sample from now. -/
def State.levelAt (s : State) (k : Nat) : Level :=
  s.env.ready[k]?.getD (Config.readyLevel (s.env.samples + k))

/-- The peer signals ready at the first sample of each of the next `k` ready waits, and a bounded wait takes a
sample at all (rules R112, R115). -/
abbrev State.Answers (k : Nat) (s : State) : Prop :=
  s.cfg.readyTimeout ≠ some 0 ∧ ∀ i, i < k → s.levelAt i = s.cfg.readyActiveLevel

/-- The peer is not ready at any of the next `k` samples. -/
abbrev State.Unready (k : Nat) (s : State) : Prop := ∀ i, i < k → s.levelAt i ≠ s.cfg.readyActiveLevel

/-- The `n` bytes returned from exchange `k` on, in order. -/
def State.payload (s : State) (k n : Nat) : List Byte := (List.range n).map fun i => s.byteAt (k + i)

/-! ### Exchanges and whole transactions -/

/-- The exchange events of the bytes `sent`, the first being the `k`-th exchange from now. -/
def State.exchangesFrom (s : State) : Nat → List Byte → List Event
  | _, [] => []
  | k, b :: bs => .x b (s.byteAt k) :: s.exchangesFrom (k + 1) bs

/-- The state after exchanges inside an open transaction that send `sent` and keep `kept`: as many bytes have
been drawn as were sent, each has its event in the trace, and nothing else differs (rule R110). -/
def State.clocked (sent kept : List Byte) (s : State) : State :=
  { s with
    env := { s.env with bytes := s.env.bytes.drop sent.length, draws := s.env.draws + sent.length }
    buf := s.buf ++ kept
    trace := s.trace ++ s.exchangesFrom 0 sent }

/-- The state after one transaction that drives out `sent`, the peer being ready at the first sample: the select
line is high again, one sample and as many bytes as were sent have been drawn, and the trace has the frame
`CS(LOW), RDY, X(..).., CS(HIGH)`. Nothing else differs (rules R111 to R113, R116). -/
def State.exchanged (sent : List Byte) (s : State) : State :=
  { s with
    cs := .high
    env := { s.env with
      ready := s.env.ready.tail, samples := s.env.samples + 1
      bytes := s.env.bytes.drop sent.length, draws := s.env.draws + sent.length }
    trace := s.trace ++ ([.cs .low, .rdy] ++ s.exchangesFrom 0 sent ++ [.cs .high]) }

/-- The bytes driven out by a read of `n` bytes at `a` (rule R81). -/
def readFrame (a : Addr) (n : Nat) : List Byte := hdr .read a n ++ List.replicate n 0xFF#8

/-- The bytes driven out by a write of `bytes` at `a` (rule R81). -/
def writeFrame (a : Addr) (bytes : List Byte) : List Byte := hdr .write a bytes.length ++ bytes

/-- The length of the header of an access at `a`: `h(a)` of rule R173. -/
def headerLength (a : Addr) : Nat := if isExtended a then 2 else 1

/-- What is left of a transaction that stands at its ready wait, the select line low already, once the next sample
is ready: the bytes `sent` are driven out and the select line is raised. One sample and as many bytes as were
sent have been drawn, and the trace has gained `RDY, X(..).., CS(HIGH)`. Nothing else differs (rules R112,
R113). -/
def State.resumed (sent : List Byte) (s : State) : State :=
  { s with
    cs := .high
    env := { s.env with
      ready := s.env.ready.tail, samples := s.env.samples + 1
      bytes := s.env.bytes.drop sent.length, draws := s.env.draws + sent.length }
    trace := s.trace ++ ([.rdy] ++ s.exchangesFrom 0 sent ++ [.cs .high]) }

/-- `n` samples of the ready line have been taken. -/
def State.sampled (n : Nat) (s : State) : State :=
  { s with env := { s.env with ready := s.env.ready.drop n, samples := s.env.samples + n } }

/-- `k` steps, stopping at the first that gives no next state. -/
def run : Nat → State → Host.Outcome State Fault Refusal
  | 0, s => .next s
  | k + 1, s =>
    match step s with
    | .next t => run k t
    | .fault r => .fault r
    | .refused r => .refused r

/-- What the host and the bus show of an answer `k` steps later: the trace and the outcomes given. -/
def observed (k : Nat) (a : Answer) : Host.Outcome (List Event × List Reply) Fault Refusal :=
  match a with
  | .fault r => .fault r
  | .refused r => .refused r
  | .next t =>
    match run k t with
    | .next u => .next (u.trace, u.replies)
    | .fault r => .fault r
    | .refused r => .refused r

/-! ### The first transaction of an operation -/

/-- The exchanges of the first transaction of an operation and what follows it (rules R120 to R163), `pad` being
the pad byte; none for an operation that opens no transaction: no bytes to move (rules R62, R142), a strobe out
of range (rule R131), the operations without an exchange (rules R152, R153, R163, R164), and wire patterns. -/
def firstTransaction (c : Params) (pad : Byte) (i : Instr) : Option (List Micro × After) :=
  match i with
  | .readRegister a n => if n = 0 then none else some (readBody a n, .bytes)
  | .writeRegister a bs => if bs.length = 0 then none else some (writeBody a bs, .ack)
  | .updateRegister a bits => some (readBody a 1, .merge a bits)
  | .configure es => some (es.flatMap fun e => writeBody e.address [e.value], .settle)
  | .strobe v => if isStrobe v then some ([.send v], .ack) else none
  | .reset hw => if hw && c.hasResetLine then none else some ([.send c.strobeSRES], .enter .ready)
  | .idle => some ([.send c.strobeSIDLE], .enter .idle)
  | .powerDown => some ([.send c.strobeSPWD], .enter .poweredDown)
  | .transmitArm => some ([.send c.strobeSTX], .enter .transmitting)
  | .receiveArm => some ([.send c.strobeSRX], .enter .receiving)
  | .flushRx => some ([.send c.strobeSFRX], .ack)
  | .flushTx => some ([.send c.strobeSFTX], .ack)
  | .getStatus t keepBits shiftLR =>
    match statusAddress c t with
    | none => some ([.recv c.strobeSNOP], .masked keepBits shiftLR)
    | some a => some (readBody a 1, .masked keepBits shiftLR)
  | .readRxFifo => some (readBody c.addrNumRxBytes 1, .drain)
  | .writeTxFifo bs => if bs.length ≤ 2 then none else some (writeBody fifoAddr (bs ++ [pad]), .ack)
  | .resolveFifoError => some (readBody c.addrMarcState 1, .rxTest)
  | .setAddress v => some (writeBody c.addrDevAddr [v], .setShadow v)
  | .getAddress force => if force then some (readBody c.addrDevAddr 1, .adopt) else none
  | .init | .shutdown | .wireWriteSingleNormal _ | .wireWriteBurstNormal _ | .wireReadSingleNormal _
  | .wireReadBurstNormal _ | .wireWriteSingleExtended _ | .wireWriteBurstExtended _
  | .wireReadSingleExtended _ | .wireReadBurstExtended _ | .wireStrobe _ | .wireFifoReadSingle
  | .wireFifoReadBurst | .wireFifoWriteBurst | .wireFifoWriteSingle | .wireDummy => none

/-- The state once an operation has drawn its pad byte: writeTxFifo alone draws one, before its transaction
(rule R142, log 4). -/
def State.padded (i : Instr) (s : State) : State := if i matches .writeTxFifo _ then s.padDrawn else s

/-- The state right after `CS(LOW)`, before the first ready sample: an operation stands at the ready wait of a
transaction around the exchanges `xs`, with `k` to follow, and nothing else differs (rules R111, R112). -/
def State.selectedAt (xs : List Micro) (k : After) (s : State) : State :=
  { s with
    cs := .low, buf := [], trace := s.trace ++ [.cs .low]
    job := some ⟨.wait s.cfg.readyTimeout :: (xs ++ [.deselect]), k⟩ }

/-- The same after one sample that was not ready: the sample is drawn and counted against READY_TIMEOUT, where
there is one (rules R112, R115). -/
def State.heldAt (xs : List Micro) (k : After) (s : State) : State :=
  { s.sampled 1 with
    cs := .low, buf := [], trace := s.trace ++ [.cs .low]
    job := some ⟨.wait (s.cfg.readyTimeout.map (· - 1)) :: (xs ++ [.deselect]), k⟩ }

/-! ### Admission -/

/-- The engine is between operations and the checks of rule R182 let the operation through. -/
abbrev State.Admits (i : Instr) (s : State) : Prop :=
  s.engaged = false ∧ i.wf = true ∧ s.life ≠ .uninitialized ∧
    namesBadAddress s.cfg i = false

/-- The optional peer assumption P-RT at the location `a` (rule R73): the payload byte of the one-byte read issued
right after the one-byte write of `v` there is `v`. The model assumes it nowhere (log 40). -/
abbrev State.RoundTrip (a : Addr) (v : Byte) (s : State) : Prop := s.byteAt (2 * headerLength a + 1) = v

/-- No operation was refused so far: the premise a claim about a sequence of operations takes (rule R176). -/
abbrev State.NoRefusal (s : State) : Prop := ∀ r, Reply.refused r ∉ s.replies

/-- `life` after an operation that runs to its end in an initialized state (rule R151). -/
def lifeAfter (i : Instr) (l : Life) : Life :=
  match i with
  | .init => .ready
  | .reset _ => .ready
  | .idle => .idle
  | .receiveArm => .receiving
  | .transmitArm => .transmitting
  | .powerDown => .poweredDown
  | .shutdown => .uninitialized
  | .configure _ | .readRegister _ _ | .writeRegister _ _ | .updateRegister _ _ | .strobe _ | .flushRx
  | .flushTx | .getStatus _ _ _ | .readRxFifo | .writeTxFifo _ | .resolveFifoError | .setAddress _
  | .getAddress _ | .wireWriteSingleNormal _ | .wireWriteBurstNormal _ | .wireReadSingleNormal _
  | .wireReadBurstNormal _ | .wireWriteSingleExtended _ | .wireWriteBurstExtended _
  | .wireReadSingleExtended _ | .wireReadBurstExtended _ | .wireStrobe _ | .wireFifoReadSingle
  | .wireFifoReadBurst | .wireFifoWriteBurst | .wireFifoWriteSingle | .wireDummy => l

/-! ### The frame grammar of the trace (rules R114, R116) -/

/-- Where the select line stands: not driven, high, low and waiting for ready, low and ready. -/
inductive Phase where
  | released
  | idle
  | selected
  | opened
  deriving DecidableEq, Repr

/-- What an event does to the phase; none where the frame invariant forbids the event (rule R116): an exchange
only after `CS(LOW), RDY`, `CS(LOW)` only with the line high, `RDY` once and first, and no pin, delay or bus
event inside a frame (rule R114). -/
def Phase.next (p : Phase) (e : Event) : Option Phase :=
  match p, e with
  | .released, .cs .high => some .idle
  | .released, .cs .low | .released, .rdy | .released, .x _ _ => none
  | .released, .pin _ _ | .released, .rst _ | .released, .dly _ | .released, .bus _ => some .released
  | .idle, .cs .low => some .selected
  | .idle, .pin .cs .released => some .released
  | .idle, .cs .high | .idle, .rdy | .idle, .x _ _ => none
  | .idle, .pin _ _ | .idle, .rst _ | .idle, .dly _ | .idle, .bus _ => some .idle
  | .selected, .rdy => some .opened
  | .selected, .cs .high => some .idle
  | .selected, .cs .low | .selected, .x _ _ | .selected, .pin _ _ | .selected, .rst _ | .selected, .dly _
  | .selected, .bus _ => none
  | .opened, .x _ _ => some .opened
  | .opened, .cs .high => some .idle
  | .opened, .cs .low | .opened, .rdy | .opened, .pin _ _ | .opened, .rst _ | .opened, .dly _
  | .opened, .bus _ => none

/-- The phase after a trace, from the phase `p`; none where the trace breaks the frame invariant. -/
def Phase.after (p : Phase) : List Event → Option Phase
  | [] => some p
  | e :: es =>
    match p.next e with
    | some q => q.after es
    | none => none

/-- The phase the select line's register stands for at the end of a step: a line left low is waiting. -/
def CsLine.phase : CsLine → Phase
  | .released => .released
  | .high => .idle
  | .low => .selected

/-! ### The invariant -/

/-- Is the micro-operation an exchange? -/
def Micro.isExchange : Micro → Bool
  | .send _ | .recv _ => true
  | .select | .wait _ | .deselect => false

/-- Does the continuation use the first byte read, or write a count that the operation allows? -/
def After.sound (k : After) (kept : Bool) : Prop :=
  match k with
  | .masked _ _ | .merge _ _ | .drain | .adopt | .rxTest => kept = true
  | .txTest count => kept = true ∧ count ≤ 1
  | .txFlushed count => count ≤ 1
  | .enter l => l ≠ .uninitialized
  | .leaveOpen => False
  | .ack | .bytes | .settle | .setShadow _ | .rxFlushed => True

/-- A job held between steps: it stands at the ready wait of a transaction whose exchanges are still to do
(rules R29, R112), a bounded wait has samples left, and what follows can use what is read. -/
def Job.Held (j : Job) : Prop :=
  ∃ left xs, j.seq = .wait left :: (xs ++ [.deselect]) ∧ left ≠ some 0 ∧
    (∀ m ∈ xs, m.isExchange = true) ∧ j.after.sound (xs.any fun m => m matches .recv _)

/-- The invariant of the machine between steps: what the tables of rules R21 to R26 and R43 say of each
register inside and outside the initialized lifetime. -/
structure State.Inv (s : State) : Prop where
  /-- The reset line is absent for ever exactly without `HAS_RESET_LINE` (rule R24). -/
  rst_absent : s.rst = .absent ↔ s.cfg.hasResetLine = false
  /-- Outside the lifetime nothing is held, driven or in progress (rule R43). -/
  down : s.life = .uninitialized →
    s.shadow = none ∧ s.cs = .released ∧ s.busOn = false ∧ s.job = none ∧
      (s.cfg.hasResetLine = true → s.rst = .released)
  /-- Inside it the shadow holds a byte, the bus is on, the reset line rests high and the select line is low
  exactly while an operation is in progress (rules R22 to R26). -/
  up : s.life ≠ .uninitialized →
    s.shadow.isSome = true ∧ s.busOn = true ∧ (s.cfg.hasResetLine = true → s.rst = .high) ∧
      s.cs = (if s.job.isSome then .low else .high)
  /-- No byte is latched between steps (rule R27). -/
  latch : s.buf = []
  /-- An operation in progress stands at a ready wait. -/
  held : ∀ j, s.job = some j → j.Held

/-- The invariant together with the frame invariant of the trace (rule R116). -/
def State.Framed (s : State) : Prop :=
  s.Inv ∧ Phase.after .released s.trace = some s.cs.phase

end Sys2Proof.Machine
end

