-- ==== Sys2Proof/Certificates/Slice0/Obligations.lean ====
section
/-! DEFINITION. The statements for the provers, one `def Obligations.<Name> : Prop` each. -/

open Sys2Proof Sys2Proof.Machine

/-- For every host operation i that is well formed, with every operand at every value its descriptor admits,
decode (encode i) is i. The descriptor format is the spec's own choice (D20, log 22). [30_encoding.md R99,
30_encoding.md R100, 30_encoding.md R101, 30_encoding.md R102] -/
def Obligations.HostOperationsRoundTrip : Prop :=
  ∀ i : Instr, i.isWire = false → i.wf = true → decode (encode i) = .ok i

/-- If decode d is i, then i is a well-formed host operation and d is encode i: no byte of a descriptor is
dropped, none is read two ways, and nothing follows the last operand (D20, log 22). [30_encoding.md R100,
30_encoding.md R101, 30_encoding.md R103] -/
def Obligations.DecodedDescriptorIsItsEncoding : Prop :=
  ∀ (d : List Byte) (i : Instr), decode d = .ok i → encode i = d ∧ i.wf = true ∧ i.isWire = false

/-- decodeWire gives back every burst or read Normal pattern but A = 0x3F, every single-byte Normal write
outside 0x30..0x3D and 0x3F, every Extended pattern, every strobe 0x30..0x3D and the four FIFO headers.
Which row a shared byte names is the model's choice (log 26). [30_encoding.md R82, 30_encoding.md R84,
30_encoding.md R89, 30_encoding.md R90, 30_encoding.md R92] -/
def Obligations.WirePatternsNamedByTheirHeader : Prop :=
  (∀ a : BitVec 6, a ≠ 0x3F#6 →
      decodeWire (encode (.wireWriteBurstNormal a)) = some (.wireWriteBurstNormal a) ∧
      decodeWire (encode (.wireReadSingleNormal a)) = some (.wireReadSingleNormal a) ∧
      decodeWire (encode (.wireReadBurstNormal a)) = some (.wireReadBurstNormal a)) ∧
    (∀ a : BitVec 6, a < 0x30#6 ∨ a = 0x3E#6 →
      decodeWire (encode (.wireWriteSingleNormal a)) = some (.wireWriteSingleNormal a)) ∧
    (∀ o : Byte,
      decodeWire (encode (.wireWriteSingleExtended o)) = some (.wireWriteSingleExtended o) ∧
      decodeWire (encode (.wireWriteBurstExtended o)) = some (.wireWriteBurstExtended o) ∧
      decodeWire (encode (.wireReadSingleExtended o)) = some (.wireReadSingleExtended o) ∧
      decodeWire (encode (.wireReadBurstExtended o)) = some (.wireReadBurstExtended o)) ∧
    (∀ c : BitVec 4, (Instr.wireStrobe c).wf = true →
      decodeWire (encode (.wireStrobe c)) = some (.wireStrobe c)) ∧
    decodeWire (encode .wireFifoReadSingle) = some .wireFifoReadSingle ∧
    decodeWire (encode .wireFifoReadBurst) = some .wireFifoReadBurst ∧
    decodeWire (encode .wireFifoWriteBurst) = some .wireFifoWriteBurst ∧
    decodeWire (encode .wireFifoWriteSingle) = some .wireFifoWriteSingle

/-- V-D17, V-R2, V-R7, V-G11, V-F24 and V-D23 of the test vectors decode to the operations they stand for, and
V-X4, V-X7, V-X8 are rejected by name. [95_test_vectors.md, 30_encoding.md R99] -/
def Obligations.SampleDescriptorsDecode : Prop :=
  decode [0x04#8, 0x00#8, 0x02#8, 0x00#8, 0x0A#8, 0x12#8, 0x2F#8, 0x01#8, 0x34#8] =
      .ok (.configure [⟨0x000A#16, 0x12#8⟩, ⟨0x2F01#16, 0x34#8⟩]) ∧
    decode [0x10#8, 0x00#8, 0x10#8, 0x00#8, 0x03#8] = .ok (.readRegister 0x0010#16 3) ∧
    decode [0x11#8, 0x00#8, 0x10#8, 0x00#8, 0x02#8, 0x12#8, 0x34#8] =
      .ok (.writeRegister 0x0010#16 [0x12#8, 0x34#8]) ∧
    decode [0x30#8, 0x00#8, 0xFF#8, 0xFC#8] = .ok (.getStatus .status 0xFF#8 (-4)) ∧
    decode [0x41#8, 0x00#8, 0x03#8, 0x02#8, 0x02#8, 0x01#8] = .ok (.writeTxFifo [0x02#8, 0x02#8, 0x01#8]) ∧
    decode [0x51#8, 0x01#8] = .ok (.getAddress true) ∧
    decode [0x03#8, 0x02#8] = .error (.badBool 0x02#8) ∧
    decode [0x01#8, 0x00#8] = .error .trailingBytes ∧
    decode [0x11#8, 0x00#8, 0x10#8, 0x00#8, 0x03#8, 0x12#8, 0x34#8] = .error .truncated

/-- For a Normal address whose low byte fits the 6-bit field and a length of at least 1, the header is one byte:
bit 7 is 1 exactly for a read, bit 6 is 1 exactly for a length other than 1, bits 5:0 are the low bits of
the address. [30_encoding.md R82, 30_encoding.md R85] -/
def Obligations.NormalHeaderFields : Prop :=
  ∀ (d : Dir) (a : Addr) (n : Nat), 1 ≤ n → highByte a ≠ 0x2F#8 → lowByte a ≤ 0x3F#8 →
    ∃ h, hdr d a n = [h] ∧ (h.getLsbD 7 = true ↔ d = .read) ∧ (h.getLsbD 6 = true ↔ n ≠ 1) ∧
      h.extractLsb' 0 6 = a.extractLsb' 0 6

/-- For an address with high byte 0x2F the header is the opcode ORed with 0x2F, one of 0x2F (write single), 0x6F
(write burst), 0xAF (read single), 0xEF (read burst), whose bits 5:0 are 101111, followed by the whole low
byte. [R84] -/
def Obligations.ExtendedHeaderBytes : Prop :=
  ∀ (d : Dir) (a : Addr) (n : Nat), 1 ≤ n → highByte a = 0x2F#8 →
    ∃ h, hdr d a n = [h, lowByte a] ∧ h = opcode d n ||| 0x2F#8 ∧ h.extractLsb' 0 6 = 0b101111#6 ∧
      h = (match d, decide (n = 1) with
        | .write, true => 0x2F#8
        | .write, false => 0x6F#8
        | .read, true => 0xAF#8
        | .read, false => 0xEF#8)

/-- An address is Extended exactly when its high byte is 0x2F, and is then accessed at the offset its low byte;
any other is accessed at the Normal address its low byte, 0x002F too (C1, log 9), the byte ORed in unmasked
(D4, log 8). Two Normal addresses with the same low byte have the same header in every direction and length,
and from every state readRegister, writeRegister and configure (one entry replaced, at any place of the
list) answer exactly the same at one as at the other; updateRegister has the same trace and the same
outcomes at once and after any number of further steps (while it is held, its job still names the address,
so whole states differ). [20_memory.md R51, 20_memory.md R52, 30_encoding.md R85, 30_encoding.md R86,
90_conflicts.md C1, 92_eei_decisions.md D4] -/
def Obligations.ClassIsTheHighByteAlone : Prop :=
  (∀ a : Addr, (isExtended a = true ↔ highByte a = 0x2F#8) ∧
      ∀ d n, hdr d a n = if highByte a = 0x2F#8 then [opcode d n ||| 0x2F#8, lowByte a]
        else [opcode d n ||| lowByte a]) ∧
    ∀ (a a' : Addr), highByte a ≠ 0x2F#8 → highByte a' ≠ 0x2F#8 → lowByte a = lowByte a' →
      (∀ d n, hdr d a n = hdr d a' n) ∧
      (∀ n s, exec (.readRegister a n) s = exec (.readRegister a' n) s) ∧
      (∀ bs s, exec (.writeRegister a bs) s = exec (.writeRegister a' bs) s) ∧
      (∀ (es fs : List Setting) (v : Byte) (s : State),
        exec (.configure (es ++ ⟨a, v⟩ :: fs)) s = exec (.configure (es ++ ⟨a', v⟩ :: fs)) s) ∧
      (∀ (bits : Byte) (s : State) (k : Nat),
        observed k (exec (.updateRegister a bits) s) = observed k (exec (.updateRegister a' bits) s))

/-- isStrobe c holds exactly when 0x30 <= c <= 0x3D as unsigned numbers; 0x2F and 0x3E are rejected, 0x30 and
0x3D accepted; exactly 14 of the 256 byte values are valid. [R131] -/
def Obligations.StrobeRangeIsThirtyToThreeD : Prop :=
  (∀ c : Byte, isStrobe c = true ↔ 0x30 ≤ c.toNat ∧ c.toNat ≤ 0x3D) ∧
    isStrobe 0x2F#8 = false ∧ isStrobe 0x30#8 = true ∧ isStrobe 0x3D#8 = true ∧ isStrobe 0x3E#8 = false ∧
    ((List.range 256).filter fun k => isStrobe (BitVec.ofNat 8 k)).length = 14

/-- For every byte, mask, shift amount and bit i below 8: right by k in 1..8, bit i is bit i + k of the masked
byte and 0 where i + k > 7; left by k in 1..8, bit i is bit i - k of the masked byte and 0 where i < k; any
other amount leaves the masked byte. The truncation of the left shift is the spec's own choice (D26, log
24). [43_status_reader.md R135, 46_operation_classes.md R168] -/
def Obligations.MaskThenShiftBitByBit : Prop :=
  ∀ (raw keep : Byte) (shift : Int) (i : Nat), i < 8 →
    (∀ k : Nat, shift = k → 1 ≤ k → k ≤ 8 →
      (maskShift raw keep shift).getLsbD i =
        (decide (i + k < 8) && (raw.getLsbD (i + k) && keep.getLsbD (i + k)))) ∧
    (∀ k : Nat, shift = -(k : Int) → 1 ≤ k → k ≤ 8 →
      (maskShift raw keep shift).getLsbD i =
        (decide (k ≤ i) && (raw.getLsbD (i - k) && keep.getLsbD (i - k)))) ∧
    (shift = 0 ∨ 8 < shift ∨ shift < -8 →
      (maskShift raw keep shift).getLsbD i = (raw.getLsbD i && keep.getLsbD i))

/-- Chip-ready is bit 7, the coarse state bits 6:4 of the status byte; the fine-grained state is bits 4:0, the
2-pin mirror bits 6:5 of MarcState; each as an unsigned number. [30_encoding.md R94, 30_encoding.md R95,
43_status_reader.md R138] -/
def Obligations.StatusByteFields : Prop :=
  ∀ b : Byte,
    (chipReady b).toNat = (b.extractLsb' 7 1).toNat ∧ (coarseState b).toNat = (b.extractLsb' 4 3).toNat ∧
    (marcState b).toNat = (b.extractLsb' 0 5).toNat ∧ (marc2Pin b).toNat = (b.extractLsb' 5 2).toNat

/-- MarcState, MarcStatus0, MarcStatus1, ModemStatus0, ModemStatus1 map to their address parameters; in an
admissible configuration each is Extended, so its one-byte read has the header 0xAF, low byte. [R137] -/
def Obligations.StatusTypesMapToExtendedAddresses : Prop :=
  ∀ c : Params,
    statusAddress c .marcState = some c.addrMarcState ∧ statusAddress c .marcStatus0 = some c.addrMarcStatus0 ∧
    statusAddress c .marcStatus1 = some c.addrMarcStatus1 ∧
    statusAddress c .modemStatus0 = some c.addrModemStatus0 ∧
    statusAddress c .modemStatus1 = some c.addrModemStatus1 ∧
    (configOk c = true → ∀ t a, statusAddress c t = some a → hdr .read a 1 = [0xAF#8, lowByte a])

/-- life is Uninitialized, shadow none, cs RELEASED, rst ABSENT without a reset line and else RELEASED, bus_on
false, no operation in progress, empty latches, nothing on the trace; State.reset is this state under TC1.
These values are the spec's own choice (D32, log 20), the configuration is presumed (log 2). [10_state.md
R43, 70_reset_and_hazards.md R200, 70_reset_and_hazards.md R201] -/
def Obligations.PowerOnState : Prop :=
  (∀ c : Params,
      (State.powerOn c).life = .uninitialized ∧ (State.powerOn c).shadow = none ∧
      (State.powerOn c).cs = .released ∧
      (State.powerOn c).rst = (if c.hasResetLine then .released else .absent) ∧
      (State.powerOn c).busOn = false ∧ (State.powerOn c).job = none ∧ (State.powerOn c).buf = [] ∧
      (State.powerOn c).trace = [] ∧ (State.powerOn c).replies = []) ∧
    State.reset = State.powerOn testConfiguration

/-- The invariant of the registers and the frame invariant of the trace hold after power-on reset under every
configuration, State.reset among them. [10_state.md R43, 40_bus_transport.md R116] -/
def Obligations.PowerOnMeetsTheInvariant : Prop :=
  (∀ c : Params, (State.powerOn c).Framed) ∧ State.reset.Framed

/-- In an admissible configuration with no operation in progress, when the next descriptor at the command port
decodes to i, step is exec of i on the state with that descriptor taken from the port, and nothing else is
added around it. [30_encoding.md R98, 60_exceptions.md R182] -/
def Obligations.StepRunsTheDecodedOperation : Prop :=
  ∀ (s : State) (d : List Byte) (rest : List (List Byte)) (i : Instr),
    configOk s.cfg = true → s.job = none → s.env.host = d :: rest → decode d = .ok i →
    step s = exec i { s with env := { s.env with host := rest } }

/-- With no operation in progress, a next descriptor that is not the encoding of a well-formed host operation is
taken from the port and answered Refused(BadDescriptor): no bus activity, no register changes, also while
Uninitialized (D20, log 22). [30_encoding.md R103, 60_exceptions.md R182] -/
def Obligations.UndecodableDescriptorIsRefused : Prop :=
  ∀ (s : State) (d : List Byte) (rest : List (List Byte)),
    configOk s.cfg = true → s.job = none → s.env.host = d :: rest →
    (∀ i : Instr, i.isWire = false → i.wf = true → encode i ≠ d) →
    step s = .next { s with
      env := { s.env with host := rest }, replies := s.replies ++ [.refused .badDescriptor] }

/-- After power-on, and between operations, the engine waits for a descriptor: step leaves the state unchanged.
[70_reset_and_hazards.md R201] -/
def Obligations.EngineWaitsForADescriptor : Prop :=
  ∀ s : State, configOk s.cfg = true → s.job = none → s.env.host = [] → step s = .next s

/-- If some STROBE parameter lies outside 0x30..0x3D or one of the five status addresses has a high byte other
than 0x2F, the model has no step. [R10] -/
def Obligations.ConfigurationOutsideItsConstraintsIsRefused : Prop :=
  ∀ s : State,
    ((∃ v ∈ [s.cfg.strobeSRES, s.cfg.strobeSRX, s.cfg.strobeSTX, s.cfg.strobeSIDLE, s.cfg.strobeSPWD,
          s.cfg.strobeSFRX, s.cfg.strobeSFTX, s.cfg.strobeSNOP], v < 0x30#8 ∨ 0x3D#8 < v) ∨
      (∃ a ∈ [s.cfg.addrMarcState, s.cfg.addrMarcStatus0, s.cfg.addrMarcStatus1, s.cfg.addrModemStatus0,
          s.cfg.addrModemStatus1], highByte a ≠ 0x2F#8)) →
    step s = .refused .badConfiguration

/-- If two of the eight STROBE parameters are equal, the model has no step, whatever else the configuration says
(U21; that the refusal is a stop of the step is log 30). [93_implementation_defined.md U21, 00_scope.md R9] -/
def Obligations.EqualStrobesAreRefused : Prop :=
  ∀ s : State,
    ¬ [s.cfg.strobeSRES, s.cfg.strobeSRX, s.cfg.strobeSTX, s.cfg.strobeSIDLE, s.cfg.strobeSPWD, s.cfg.strobeSFRX,
        s.cfg.strobeSFTX, s.cfg.strobeSNOP].Nodup →
    step s = .refused .badConfiguration

/-- When a well-formed wire pattern i is the sequencer's next micro-operation inside an open transaction, step
is exec of i in that open transaction (the model's choice, logs 25 and 27). [30_encoding.md R80, 10_state.md
R29] -/
def Obligations.StepEmitsThePlacedWirePattern : Prop :=
  ∀ (s : State) (i : Instr), configOk s.cfg = true → i.isWire = true → i.wf = true →
    step (s.presentWire i) = exec i { s with cs := .low, busOn := true, buf := [], job := none }

/-- A well-formed host operation other than init, issued between operations while life is Uninitialized, is
answered Refused(NotInitialized): no bus or pin activity, no state change, readRegister of length 0
included. The answer is a next state (log 7). [45_device_controller.md R165, 60_exceptions.md R176,
60_exceptions.md R183] -/
def Obligations.OperationsOutsideTheLifetimeAreRefused : Prop :=
  ∀ (s : State) (i : Instr), i.isWire = false → i ≠ .init → i.wf = true → s.engaged = false →
    s.life = .uninitialized →
    exec i s = .next { s with replies := s.replies ++ [.refused .notInitialized] }

/-- init issued between operations while life is an initialized state is answered Refused(AlreadyInitialized),
no activity, no state change (D17, log 7). [45_device_controller.md R165] -/
def Obligations.InitIsRefusedWhileInitialized : Prop :=
  ∀ s : State, s.engaged = false → s.life ≠ .uninitialized →
    exec .init s = .next { s with replies := s.replies ++ [.refused .alreadyInitialized] }

/-- A Normal address with low byte 0x2F, and with refuseWideAddress set (the model's own parameter, log 8) one
with low byte above 0x3F: readRegister (length 0 too), writeRegister, updateRegister, configure with it in
any entry, setAddress and getAddress true where it is ADDR_DEV_ADDR, readRxFifo where it is ADDR_NUM_RXBYTES
are answered Refused(BadAddress) and change nothing (D5, log 9). At any other address, one above 0x3F
included where refuseWideAddress is not set, the check lets the register operations through. [20_memory.md
R52, 70_reset_and_hazards.md R214, 93_implementation_defined.md U2, 93_implementation_defined.md U3,
92_eei_decisions.md D4, 92_eei_decisions.md D5, 60_exceptions.md R176, 60_exceptions.md R182] -/
def Obligations.BadAddressesAreRefused : Prop :=
  (∀ (s : State) (a : Addr), s.engaged = false → s.life ≠ .uninitialized → highByte a ≠ 0x2F#8 →
      lowByte a = 0x2F#8 ∨ (0x3F#8 < lowByte a ∧ s.cfg.refuseWideAddress = true) →
      (∀ n, n ≤ 65535 →
        exec (.readRegister a n) s = .next { s with replies := s.replies ++ [.refused .badAddress] }) ∧
      (∀ bs : List Byte, bs.length ≤ 65535 →
        exec (.writeRegister a bs) s = .next { s with replies := s.replies ++ [.refused .badAddress] }) ∧
      (∀ b, exec (.updateRegister a b) s =
        .next { s with replies := s.replies ++ [.refused .badAddress] }) ∧
      (∀ (es : List Setting) (v : Byte), es.length ≤ 65535 → ⟨a, v⟩ ∈ es →
        exec (.configure es) s = .next { s with replies := s.replies ++ [.refused .badAddress] }) ∧
      (s.cfg.addrDevAddr = a →
        (∀ v, exec (.setAddress v) s = .next { s with replies := s.replies ++ [.refused .badAddress] }) ∧
        exec (.getAddress true) s = .next { s with replies := s.replies ++ [.refused .badAddress] }) ∧
      (s.cfg.addrNumRxBytes = a →
        exec .readRxFifo s = .next { s with replies := s.replies ++ [.refused .badAddress] })) ∧
    (∀ (s : State) (a : Addr), s.engaged = false → s.life ≠ .uninitialized →
      highByte a = 0x2F#8 ∨ (lowByte a ≠ 0x2F#8 ∧ (lowByte a ≤ 0x3F#8 ∨ s.cfg.refuseWideAddress = false)) →
      (∀ n, n ≤ 65535 → s.Admits (.readRegister a n)) ∧
      (∀ bs : List Byte, bs.length ≤ 65535 → s.Admits (.writeRegister a bs)) ∧
      (∀ b, s.Admits (.updateRegister a b)) ∧
      (∀ v, s.Admits (.configure [⟨a, v⟩])))

/-- Issued while an operation is in progress or a transaction is open, every host operation is refused by the
model: a nested Begin is never exercised (log 28). A wire pattern outside an open transaction is refused
likewise (R116, log 25). [40_bus_transport.md R114, 93_implementation_defined.md U18, 10_state.md R26] -/
def Obligations.NothingIsIssuedInsideATransaction : Prop :=
  (∀ (s : State) (i : Instr), i.isWire = false → s.job ≠ none ∨ s.cs = .low →
      exec i s = .refused .transactionOpen) ∧
    (∀ (s : State) (i : Instr), i.isWire = true → s.cs ≠ .low ∨ s.busOn = false ∨ s.job ≠ none →
      exec i s = .refused .noTransaction)

/-- For length n >= 1 and a peer ready at once: one transaction driving out the header and n dummy bytes 0xFF;
the result is the n bytes returned with the dummies, in order; the header answers are discarded (D6, log
10); no engine register differs but cs, high again. [41_register_access.md R121, 41_register_access.md R120,
30_encoding.md R87] -/
def Obligations.ReadRegisterReturnsThePayload : Prop :=
  ∀ (s : State) (a : Addr) (n : Nat), s.Admits (.readRegister a n) → s.Answers 1 → 1 ≤ n →
    exec (.readRegister a n) s =
      .next ((s.exchanged (readFrame a n)).finish (.done (.bytes (s.payload (headerLength a) n))))

/-- An admitted readRegister with length 0 returns the empty sequence and an admitted writeRegister of the empty
sequence returns nothing; the trace, the select line and every draw are as before. [R62] -/
def Obligations.ZeroLengthAccessDoesNothing : Prop :=
  ∀ (s : State) (a : Addr), s.buf = [] →
    (s.Admits (.readRegister a 0) →
      exec (.readRegister a 0) s = .next { s with replies := s.replies ++ [.done (.bytes [])] }) ∧
    (s.Admits (.writeRegister a []) →
      exec (.writeRegister a []) s = .next { s with replies := s.replies ++ [.done .none] })

/-- For a non-empty sequence and a peer ready at once: one transaction driving out the header and the bytes in
index order; the answers are discarded (D6, log 10); no engine register differs, shadow included whatever
the address. [41_register_access.md R122, 41_register_access.md R120, 30_encoding.md R88] -/
def Obligations.WriteRegisterSendsTheBytes : Prop :=
  ∀ (s : State) (a : Addr) (bs : List Byte), s.Admits (.writeRegister a bs) → s.Answers 1 → bs ≠ [] →
    exec (.writeRegister a bs) s = .next ((s.exchanged (writeFrame a bs)).finish (.done .none))

/-- With old the byte read: if old OR bits equals old, only the read frame happens; else a second transaction
writes old OR bits (two transactions: the spec's own reading, D25, log 19). No result; no engine register
differs. [41_register_access.md R123] -/
def Obligations.UpdateRegisterWritesOnlyAChange : Prop :=
  ∀ (s : State) (a : Addr) (bits : Byte), s.Admits (.updateRegister a bits) → s.Answers 2 →
    exec (.updateRegister a bits) s =
      (let old := s.byteAt (headerLength a)
       if old ||| bits = old then .next ((s.exchanged (readFrame a 1)).finish (.done .none))
       else .next (((s.exchanged (readFrame a 1)).exchanged (writeFrame a [old ||| bits])).finish
         (.done .none)))

/-- A command in 0x30..0x3D: one transaction, one exchange of the byte itself, the status byte discarded (D36,
log 35), life unchanged. Any other command: no bus activity, outcome Done. [42_command_strobe.md R130,
30_encoding.md R89] -/
def Obligations.StrobeSendsItsByte : Prop :=
  ∀ (s : State) (c : Byte), s.Admits (.strobe c) →
    (0x30#8 ≤ c → c ≤ 0x3D#8 → s.Answers 1 →
      exec (.strobe c) s = .next ((s.exchanged [c]).finish (.done .none))) ∧
    (c < 0x30#8 ∨ 0x3D#8 < c → exec (.strobe c) s = .next (s.finish (.done .none)))

/-- From any initialized state with a peer ready at once, idle, powerDown, transmitArm, receiveArm, flushRx,
flushTx, reset false, and reset true without a reset line each make one transaction of one exchange of their
parameter; life becomes Idle, PoweredDown, Transmitting, Receiving, unchanged, unchanged, Ready, Ready (D16,
D19, logs 15, 21). shadow is not written. [45_device_controller.md R167, 45_device_controller.md R156,
45_device_controller.md R157, 45_device_controller.md R158, 45_device_controller.md R159,
45_device_controller.md R160, 45_device_controller.md R161, 45_device_controller.md R153,
45_device_controller.md R151] -/
def Obligations.SemanticStrobesEnterTheirState : Prop :=
  ∀ s : State, configOk s.cfg = true → s.engaged = false → s.life ≠ .uninitialized → s.Answers 1 →
    exec .idle s = .next ({ s.exchanged [s.cfg.strobeSIDLE] with life := .idle }.finish (.done .none)) ∧
    exec .powerDown s =
      .next ({ s.exchanged [s.cfg.strobeSPWD] with life := .poweredDown }.finish (.done .none)) ∧
    exec .transmitArm s =
      .next ({ s.exchanged [s.cfg.strobeSTX] with life := .transmitting }.finish (.done .none)) ∧
    exec .receiveArm s =
      .next ({ s.exchanged [s.cfg.strobeSRX] with life := .receiving }.finish (.done .none)) ∧
    exec .flushRx s = .next ((s.exchanged [s.cfg.strobeSFRX]).finish (.done .none)) ∧
    exec .flushTx s = .next ((s.exchanged [s.cfg.strobeSFTX]).finish (.done .none)) ∧
    ∀ hardware, hardware = false ∨ s.cfg.hasResetLine = false →
      exec (.reset hardware) s =
        .next ({ s.exchanged [s.cfg.strobeSRES] with life := .ready }.finish (.done .none))

/-- No select-line activity and no wait: the trace gains RST(LOW), DLY, RST(HIGH), DLY, rst ends high, life is
Ready, shadow and everything else unchanged (D19, log 15). [45_device_controller.md R153,
45_device_controller.md R154] -/
def Obligations.HardwareResetPulsesTheLine : Prop :=
  ∀ s : State, s.Admits (.reset true) → s.cfg.hasResetLine = true →
    exec (.reset true) s = .next { s with
      life := .ready, rst := .high
      trace := s.trace ++ [.rst .low, .dly s.cfg.tRstLowMs, .rst .high, .dly s.cfg.tRstHighMs]
      replies := s.replies ++ [.done .none] }

/-- For Status: one transaction exchanging STROBE_SNOP, the byte returned by that exchange. For another type: a
one-byte read of its address, the byte returned with the dummy. The result is maskShift of that byte; the
access happens whatever the mask; no engine register differs. [43_status_reader.md R136, 43_status_reader.md
R135] -/
def Obligations.GetStatusReadsMasksAndShifts : Prop :=
  ∀ (s : State) (t : StatusType) (keep : Byte) (shift : Int), s.Admits (.getStatus t keep shift) →
    s.Answers 1 →
    exec (.getStatus t keep shift) s =
      (match statusAddress s.cfg t with
       | none => .next ((s.exchanged [s.cfg.strobeSNOP]).finish
           (.done (.byte (maskShift (s.byteAt 0) keep shift))))
       | some a => .next ((s.exchanged (readFrame a 1)).finish
           (.done (.byte (maskShift (s.byteAt (headerLength a)) keep shift)))))

/-- With n the count byte: n = 0 ends with the empty result after the count read alone; else a second
transaction reads n bytes at 0x003F (header 0xBF for n = 1, the spec's resolution C3, 0xFF for n >= 2) and
returns them in order. No engine register differs. [44_fifo_manager.md R141, 44_fifo_manager.md R140,
30_encoding.md R90] -/
def Obligations.ReadRxFifoReadsTheCountedBytes : Prop :=
  ∀ s : State, s.Admits .readRxFifo → s.Answers 2 →
    exec .readRxFifo s =
      (let a := s.cfg.addrNumRxBytes
       let n := (s.byteAt (headerLength a)).toNat
       let s1 := s.exchanged (readFrame a 1)
       if n = 0 then .next (s1.finish (.done (.bytes [])))
       else .next ((s1.exchanged ((if n = 1 then 0xBF#8 else 0xFF#8) :: List.replicate n 0xFF#8)).finish
         (.done (.bytes (s1.payload 1 n)))))

/-- A buffer of at most two bytes: no bus transaction. A longer one of k bytes: one transaction driving out
0x7F, the k bytes in order and the pad, the next pad draw, whatever its value (D10, log 4). No result; no
engine register differs. [44_fifo_manager.md R142, 30_encoding.md R90, 00_scope.md R11] -/
def Obligations.WriteTxFifoAppendsOneByte : Prop :=
  ∀ (s : State) (bs : List Byte), s.Admits (.writeTxFifo bs) →
    (bs.length ≤ 2 → exec (.writeTxFifo bs) s = .next { s with replies := s.replies ++ [.done .none] }) ∧
    (3 ≤ bs.length → s.Answers 1 →
      exec (.writeTxFifo bs) s =
        .next (((s.exchanged (0x7F#8 :: (bs ++ [s.nextPad]))).padDrawn).finish (.done .none)))

/-- By default MarcState is sampled once before each test: the RX flush is sent exactly if the low 5 bits of the
first sample are 17, the TX flush exactly if those of the second are 22; the result is the number of flushes
sent; every other code causes nothing (two samples and the mask: the spec's resolutions C4, D11, D12, log
12). [44_fifo_manager.md R143, 44_fifo_manager.md R144] -/
def Obligations.ResolveFifoErrorTwoSamples : Prop :=
  ∀ s : State, configOk s.cfg = true → s.Admits .resolveFifoError → s.cfg.resolveSingleSample = false →
    s.Answers 4 →
    exec .resolveFifoError s =
      (let sample := readFrame s.cfg.addrMarcState 1
       let rx := (s.byteAt 2).extractLsb' 0 5 = 17#5
       let s1 := s.exchanged sample
       let s2 := if rx then s1.exchanged [s.cfg.strobeSFRX] else s1
       let tx := (s2.byteAt 2).extractLsb' 0 5 = 22#5
       let s3 := s2.exchanged sample
       let s4 := if tx then s3.exchanged [s.cfg.strobeSFTX] else s3
       .next (s4.finish (.done (.count ((if rx then 1 else 0) + (if tx then 1 else 0))))))

/-- With RESOLVE_SINGLE_SAMPLE one MarcState sample is tested against 17 and 22: one flush and the result 1, or
none and 0; the result 2 cannot occur. The single sample and the 5-bit mask are the spec's resolutions C4,
D12 and D11 (log 12). [44_fifo_manager.md R143, 90_conflicts.md C4, 92_eei_decisions.md D11,
92_eei_decisions.md D12] -/
def Obligations.ResolveFifoErrorSingleSample : Prop :=
  ∀ s : State, configOk s.cfg = true → s.Admits .resolveFifoError → s.cfg.resolveSingleSample = true →
    s.Answers 2 →
    exec .resolveFifoError s =
      (let code := (s.byteAt 2).extractLsb' 0 5
       let s1 := s.exchanged (readFrame s.cfg.addrMarcState 1)
       if code = 17#5 then .next ((s1.exchanged [s.cfg.strobeSFRX]).finish (.done (.count 1)))
       else if code = 22#5 then .next ((s1.exchanged [s.cfg.strobeSFTX]).finish (.done (.count 1)))
       else .next (s1.finish (.done (.count 0))))

/-- One single-byte write at ADDR_DEV_ADDR and then shadow is the operand, nothing is read back (D23, log 18);
no other engine register differs. [45_device_controller.md R162] -/
def Obligations.SetAddressWritesRegisterAndShadow : Prop :=
  ∀ (s : State) (v : Byte), s.Admits (.setAddress v) → s.Answers 1 →
    exec (.setAddress v) s =
      .next ({ s.exchanged (writeFrame s.cfg.addrDevAddr [v]) with shadow := some v }.finish
        (.done .none))

/-- Without force: the shadow is returned with no bus activity and no change. With force: one one-byte read at
ADDR_DEV_ADDR, the byte received becomes the shadow and the result (D23, log 18). [45_device_controller.md
R163] -/
def Obligations.GetAddressReturnsShadowOrRegister : Prop :=
  ∀ s : State,
    (∀ v, s.Admits (.getAddress false) → s.shadow = some v →
      exec (.getAddress false) s = .next { s with replies := s.replies ++ [.done (.byte v)] }) ∧
    (s.Admits (.getAddress true) → s.Answers 1 →
      exec (.getAddress true) s =
        (let v := s.byteAt (headerLength s.cfg.addrDevAddr)
         .next ({ s.exchanged (readFrame s.cfg.addrDevAddr 1) with shadow := some v }.finish
           (.done (.byte v)))))

/-- From Uninitialized: pin setup, byte-transfer unit on, shadow 0 (the source's default), the reset pulse if
there is a line and INIT_HW_RESET, the settle delay, life Ready, with no exchange and no wait. The pin order
and idle levels are the spec's own choice (D18, log 14). [45_device_controller.md R152,
45_device_controller.md R154] -/
def Obligations.InitBringsTheEngineUp : Prop :=
  ∀ s : State, s.engaged = false → s.life = .uninitialized →
    exec .init s = .next { s with
      life := .ready, shadow := some 0x00#8, cs := .high, busOn := true
      rst := if s.cfg.hasResetLine then .high else s.rst
      trace := s.trace ++ ([.pin .cs .out, .cs .high, .pin .ready .inp] ++
        (if s.cfg.hasResetLine then [.pin .rst .out, .rst .high] else []) ++ [.bus true] ++
        (if s.cfg.hasResetLine && s.cfg.initHwReset then
          [.rst .low, .dly s.cfg.tRstLowMs, .rst .high, .dly s.cfg.tRstHighMs] else []) ++
        [.dly s.cfg.tInitMs])
      replies := s.replies ++ [.done .none] }

/-- From any initialized state: bus_on false, cs and (with a line) rst released, shadow none, life
Uninitialized; nothing is sent to the peer. All but the release of the pins is the spec's own choice (D24,
log 16). [45_device_controller.md R164, 10_state.md R43] -/
def Obligations.ShutdownReleasesThePins : Prop :=
  ∀ s : State, s.Admits .shutdown →
    exec .shutdown s = .next { s with
      life := .uninitialized, shadow := none, cs := .released, busOn := false
      rst := if s.cfg.hasResetLine then .released else s.rst
      trace := s.trace ++ ([.bus false, .pin .cs .released, .pin .ready .released] ++
        (if s.cfg.hasResetLine then [.pin .rst .released] else []))
      replies := s.replies ++ [.done .none] }

/-- One transaction drives out, in list order, each entry's header and value, each entry classified on its own;
the settle delay follows; an empty list still frames and delays (D22, log 17). life, shadow and every other
register are unchanged. [45_device_controller.md R155, 30_encoding.md R97] -/
def Obligations.ConfigureSendsOneBatch : Prop :=
  ∀ (s : State) (es : List Setting), s.Admits (.configure es) → s.Answers 1 →
    exec (.configure es) s =
      (let t := s.exchanged (es.flatMap fun e => writeFrame e.address [e.value])
       .next ({ t with trace := t.trace ++ [Event.dly s.cfg.tCfgMs] }.finish (.done .none)))

/-- With the select line low, the byte-transfer unit on and no wait pending, each of the 14 wire patterns drives
out its header bytes and discards the answers, the dummy drives out 0xFF and keeps the answer; a strobe
beyond 0x3D sends nothing. Nothing else changes. That a pattern is an instruction of its own is the model's
choice (log 25). [30_encoding.md R82, 30_encoding.md R84, 30_encoding.md R87, 30_encoding.md R89,
30_encoding.md R90, 40_bus_transport.md R110] -/
def Obligations.WirePatternsEmitTheirBytes : Prop :=
  ∀ s : State, s.cs = .low → s.busOn = true → s.job = none →
    (∀ a : BitVec 6,
      exec (.wireWriteSingleNormal a) s = .next (s.clocked [0b00#2 ++ a] []) ∧
      exec (.wireWriteBurstNormal a) s = .next (s.clocked [0b01#2 ++ a] []) ∧
      exec (.wireReadSingleNormal a) s = .next (s.clocked [0b10#2 ++ a] []) ∧
      exec (.wireReadBurstNormal a) s = .next (s.clocked [0b11#2 ++ a] [])) ∧
    (∀ o : Byte,
      exec (.wireWriteSingleExtended o) s = .next (s.clocked [0x2F#8, o] []) ∧
      exec (.wireWriteBurstExtended o) s = .next (s.clocked [0x6F#8, o] []) ∧
      exec (.wireReadSingleExtended o) s = .next (s.clocked [0xAF#8, o] []) ∧
      exec (.wireReadBurstExtended o) s = .next (s.clocked [0xEF#8, o] [])) ∧
    (∀ c : BitVec 4,
      exec (.wireStrobe c) s =
        .next (if c ≤ 13#4 then s.clocked [0x3#4 ++ c] [] else s)) ∧
    exec .wireFifoReadSingle s = .next (s.clocked [0xBF#8] []) ∧
    exec .wireFifoReadBurst s = .next (s.clocked [0xFF#8] []) ∧
    exec .wireFifoWriteBurst s = .next (s.clocked [0x7F#8] []) ∧
    exec .wireFifoWriteSingle s = .next (s.clocked [0x3F#8] []) ∧
    exec .wireDummy s = .next (s.clocked [0xFF#8] [s.byteAt 0])

/-- Whatever the peer does: if exec answers a next state, life is unchanged, or the operation has ended and life
is what the table gives for it (D16, D33, log 21). The same of a step that goes on with a held operation:
life is unchanged, or the operation has ended and life is what its continuation enter says (log 5). The
operations that end by their rule are covered by their result statements. [45_device_controller.md R151,
10_state.md R21] -/
def Obligations.LifeIsWrittenAsTheTableSays : Prop :=
  (∀ (i : Instr) (s t : State), exec i s = .next t →
      t.life = s.life ∨ (t.job = none ∧ t.life = lifeAfter i s.life)) ∧
    (∀ (s t : State) (j : Job), s.job = some j → step s = .next t →
      t.life = s.life ∨ (t.job = none ∧ j.after = .enter t.life))

/-- Whatever the peer does, every other instruction leaves the shadow as it was: reset does, and so do
writeRegister and configure at the device address. A step that goes on with a held operation leaves it too,
unless the operation has ended and was setAddress (the shadow is its operand) or getAddress true (the shadow
is the byte it read, which its result statements give). The held operation is the model's choice (log 5),
the procedure of the two address operations the spec's own (D23, log 18). [10_state.md R22,
45_device_controller.md R153, 45_device_controller.md R162, 45_device_controller.md R163] -/
def Obligations.ShadowIsWrittenByFourOperationsOnly : Prop :=
  (∀ (i : Instr) (s t : State), i ≠ .init → i ≠ .shutdown → (∀ v, i ≠ .setAddress v) →
      i ≠ .getAddress true → exec i s = .next t → t.shadow = s.shadow) ∧
    (∀ (s t : State) (j : Job), s.job = some j → step s = .next t →
      t.shadow = s.shadow ∨ (t.job = none ∧
        ((∃ v, j.after = .setShadow v ∧ t.shadow = some v) ∨
          (j.after = .adopt ∧ ∃ v, t.shadow = some v))))

/-- Whatever the peer does, every other instruction leaves the reset line and the byte-transfer unit as they
were, and no instruction writes the configuration. A step that goes on with a held operation writes none of
the three (log 5). [10_state.md R24, 10_state.md R25] -/
def Obligations.ResetLineAndBusAreTheLifecyclesAlone : Prop :=
  (∀ (i : Instr) (s t : State), exec i s = .next t →
      t.cfg = s.cfg ∧
      (i ≠ .init → i ≠ .shutdown → t.busOn = s.busOn) ∧
      (i ≠ .init → i ≠ .shutdown → i ≠ .reset true → t.rst = s.rst)) ∧
    (∀ (s t : State) (j : Job), s.job = some j → step s = .next t →
      t.cfg = s.cfg ∧ t.busOn = s.busOn ∧ t.rst = s.rst)

/-- The constants and parameters are fixed for the life of a model instance: step never changes them, in any
state. [10_state.md R45] -/
def Obligations.StepKeepsTheConfiguration : Prop :=
  ∀ s t : State, step s = .next t → t.cfg = s.cfg

/-- In every state, the trace before a step is a prefix of the trace after it, and so are the outcomes: the
trace is the concatenation, in issue order, of the operations' traces. [20_memory.md R67, 10_state.md R44] -/
def Obligations.TraceAndRepliesOnlyGrow : Prop :=
  ∀ s t : State, step s = .next t →
    (∃ es, t.trace = s.trace ++ es) ∧ (∃ rs, t.replies = s.replies ++ rs)

/-- From every state that meets the invariant, a step gives one that meets it: exchanges occur only between
CS(LOW), RDY and CS(HIGH), CS(LOW) only with the line high, no nesting, no pin or delay event inside a
frame; cs is low exactly while an operation is in progress; outside the lifetime nothing is driven or held,
inside it the shadow holds a byte and the bus is on; a held operation stands at a ready wait.
[40_bus_transport.md R114, 40_bus_transport.md R116, 10_state.md R26, 10_state.md R43] -/
def Obligations.EveryStepKeepsTheFrameInvariant : Prop :=
  ∀ s t : State, s.Framed → step s = .next t → t.Framed

/-- From every state that meets the invariant, with a configuration within its constraints, step answers a next
state, whatever the host presents and the peer answers. It rests on the model's reading of refused outcomes
as next states (log 7). [60_exceptions.md R175, 60_exceptions.md R183] -/
def Obligations.NoStepStopsUnderTheInvariant : Prop :=
  ∀ s : State, configOk s.cfg = true → s.Inv → ∃ t, step s = .next t

/-- From every state that meets the invariant between operations, with the peer ready at the first sample of up
to four waits, every host operation (malformed ones too) answers a state with no operation in progress, the
select line not low, empty latches and exactly one new outcome, which is not BusNotReady. [60_exceptions.md
R179, 46_operation_classes.md R173, 70_reset_and_hazards.md R202] -/
def Obligations.ReadyPeerCompletesEveryOperation : Prop :=
  ∀ (s : State) (i : Instr), i.isWire = false → s.Inv → s.job = none → s.Answers 4 →
    ∃ t r, exec i s = .next t ∧ t.job = none ∧ t.cs ≠ .low ∧ t.buf = [] ∧
      t.replies = s.replies ++ [r] ∧ r ≠ .busNotReady

/-- With no timeout or one of at least two samples, and a peer not ready at the first sample, every operation
that opens a transaction (readRegister and writeRegister of at least one byte, updateRegister, configure, a
valid strobe, the semantic strobes, getStatus, the FIFO operations but a writeTxFifo of at most two bytes,
setAddress, getAddress true, a reset that does not pulse) answers a state that has driven the select line
low and nothing else: no RDY, no exchange, no outcome, life and shadow unchanged, the operation in progress
at its ready wait with all its exchanges still to do. writeTxFifo has also drawn its pad (one sample per
step is the model's choice, log 5; the timeout is the spec's own, D3, log 6). [40_bus_transport.md R111,
40_bus_transport.md R112, 40_bus_transport.md R115, 60_exceptions.md R179, 41_register_access.md R121,
45_device_controller.md R155, 45_device_controller.md R167] -/
def Obligations.UnreadyPeerHoldsTheOperation : Prop :=
  ∀ (i : Instr) (s : State) (xs : List Micro) (k : After),
    firstTransaction s.cfg s.nextPad i = some (xs, k) → configOk s.cfg = true → s.Admits i →
    s.cfg.readyTimeout ≠ some 0 → s.cfg.readyTimeout ≠ some 1 → s.Unready 1 →
    exec i s = .next ((s.padded i).heldAt xs k)

/-- For every operation that opens a transaction, whatever the peer does and whatever the timeout: exec answers
exactly what a step answers from the state in which the select line has just been driven low and the
operation stands at the ready wait of its first transaction, no sample taken yet (the held operation is the
model's choice, log 5; the timeout is the spec's own, D3, log 6). So the statements about a held operation
say how every operation goes on. [40_bus_transport.md R111, 40_bus_transport.md R112, 41_register_access.md
R120, 10_state.md R29] -/
def Obligations.IssuingIsSteppingFromTheReadyWait : Prop :=
  ∀ (i : Instr) (s : State) (xs : List Micro) (k : After),
    firstTransaction s.cfg s.nextPad i = some (xs, k) → configOk s.cfg = true → s.Admits i →
    exec i s = step ((s.padded i).selectedAt xs k)

/-- An operation held at any ready wait, the first or a later one, bounded or not, the next sample being ready:
RDY, the bytes still to send and n reads, CS(HIGH), then its result. An operation with no more transaction
ends: nothing, the bytes read, the byte masked and shifted, life written, the settle delay, the shadow
written, the count of flushes. Where what was read asks for no further transaction, updateRegister (no bit
changes), readRxFifo (count 0) and resolveFifoError (no error code) end too. Not the rules alone: the held
operation is the model's choice (log 5), and the spec's own choices are the bounded wait (D3, log 6), the
samples and 5-bit mask of resolveFifoError (C4, D11, D12, log 12), the register and shadow of setAddress and
getAddress true (D23, log 18), life as a stored register (D16, log 21), the settle delay after the one batch
of configure (D22, log 17), the single read of updateRegister where no bit changes (D25, log 19), and the
byte width of the shift (D26, log 24). [40_bus_transport.md R112, 40_bus_transport.md R113,
40_bus_transport.md R115, 43_status_reader.md R136, 44_fifo_manager.md R141, 44_fifo_manager.md R143,
41_register_access.md R123, 45_device_controller.md R151, 45_device_controller.md R155,
45_device_controller.md R162, 45_device_controller.md R163, 90_conflicts.md C4] -/
def Obligations.HeldOperationEndsWhenReady : Prop :=
  ∀ (s : State) (left : Option Nat) (sent : List Byte) (b : Byte) (n : Nat) (k : After),
    configOk s.cfg = true → s.buf = [] → left ≠ some 0 → s.levelAt 0 = s.cfg.readyActiveLevel →
    s.job = some ⟨.wait left :: (sent.map .send ++ List.replicate n (.recv b) ++ [.deselect]), k⟩ →
    let t := s.resumed (sent ++ List.replicate n b)
    let v := s.byteAt sent.length
    let code := v.extractLsb' 0 5
    (k = .ack → step s = .next (t.finish (.done .none))) ∧
    (k = .bytes → step s = .next (t.finish (.done (.bytes (s.payload sent.length n))))) ∧
    (∀ l, k = .enter l → step s = .next ({ t with life := l }.finish (.done .none))) ∧
    (k = .settle →
      step s = .next ({ t with trace := t.trace ++ [Event.dly s.cfg.tCfgMs] }.finish (.done .none))) ∧
    (∀ a, k = .setShadow a → step s = .next ({ t with shadow := some a }.finish (.done .none))) ∧
    (∀ c, k = .txFlushed c → step s = .next (t.finish (.done (.count (c + 1))))) ∧
    (k = .rxFlushed → s.cfg.resolveSingleSample = true → step s = .next (t.finish (.done (.count 1)))) ∧
    (1 ≤ n →
      (∀ keepBits shiftLR, k = .masked keepBits shiftLR →
        step s = .next (t.finish (.done (.byte (maskShift v keepBits shiftLR))))) ∧
      (k = .adopt → step s = .next ({ t with shadow := some v }.finish (.done (.byte v)))) ∧
      (∀ a bits, k = .merge a bits → v ||| bits = v → step s = .next (t.finish (.done .none))) ∧
      (k = .drain → v = 0#8 → step s = .next (t.finish (.done (.bytes [])))) ∧
      (k = .rxTest → s.cfg.resolveSingleSample = true → code ≠ 17#5 → code ≠ 22#5 →
        step s = .next (t.finish (.done (.count 0)))) ∧
      (∀ c, k = .txTest c → code ≠ 22#5 → step s = .next (t.finish (.done (.count c)))))

/-- An operation held at a ready wait whose next sample is ready: if what it reads asks for a further
transaction, the step is exactly a step from the state in which the transaction has ended and the select
line is low again at the next ready wait, whatever the peer does there (it may be ready, hold, or run out of
samples): updateRegister writes the merged byte, readRxFifo reads as many bytes as counted, resolveFifoError
flushes RX on code 17, else samples again (or tests the one sample), and flushes TX on code 22. Not the
rules alone: the held operation is the model's choice (log 5), and the spec's own choices are the bounded
wait (D3, log 6), the write of updateRegister as a transaction of its own (D25, log 19), a count of 1 as an
ordinary single read at the one FIFO address (C3, D9, D8, logs 11 and 34), and the samples and 5-bit mask of
resolveFifoError (C4, D11, D12, log 12). [40_bus_transport.md R112, 40_bus_transport.md R115,
41_register_access.md R123, 44_fifo_manager.md R141, 44_fifo_manager.md R143, 95_test_vectors.md V-B8,
90_conflicts.md C3, 90_conflicts.md C4] -/
def Obligations.HeldOperationGoesOnToItsNextTransaction : Prop :=
  ∀ (s : State) (left : Option Nat) (sent : List Byte) (b : Byte) (n : Nat) (k : After),
    configOk s.cfg = true → s.buf = [] → left ≠ some 0 → s.levelAt 0 = s.cfg.readyActiveLevel →
    s.job = some ⟨.wait left :: (sent.map .send ++ List.replicate n (.recv b) ++ [.deselect]), k⟩ →
    let t := s.resumed (sent ++ List.replicate n b)
    let v := s.byteAt sent.length
    let code := v.extractLsb' 0 5
    (k = .rxFlushed → s.cfg.resolveSingleSample = false →
      step s = step (t.selectedAt (readBody s.cfg.addrMarcState 1) (.txTest 1))) ∧
    (1 ≤ n →
      (∀ a bits, k = .merge a bits → v ||| bits ≠ v →
        step s = step (t.selectedAt (writeBody a [v ||| bits]) .ack)) ∧
      (k = .drain → v ≠ 0#8 → step s = step (t.selectedAt (readBody 0x003F#16 v.toNat) .bytes)) ∧
      (k = .rxTest → code = 17#5 → step s = step (t.selectedAt [.send s.cfg.strobeSFRX] .rxFlushed)) ∧
      (k = .rxTest → code ≠ 17#5 → s.cfg.resolveSingleSample = false →
        step s = step (t.selectedAt (readBody s.cfg.addrMarcState 1) (.txTest 0))) ∧
      (k = .rxTest → code = 22#5 → s.cfg.resolveSingleSample = true →
        step s = step (t.selectedAt [.send s.cfg.strobeSFTX] (.txFlushed 0))) ∧
      (∀ c, k = .txTest c → code = 22#5 →
        step s = step (t.selectedAt [.send s.cfg.strobeSFTX] (.txFlushed c))))

/-- In an admissible configuration, an operation standing at a ready wait without a bound is after any number of
steps exactly where it was, if the peer is not ready at any sample: nothing but the samples drawn has
changed, cs stays low, the host gets no outcome (one sample per step is the model's choice, log 5).
[40_bus_transport.md R112, 60_exceptions.md R179, 93_implementation_defined.md U1] -/
def Obligations.HangIsForEver : Prop :=
  ∀ (n : Nat) (s : State) (rest : List Micro) (k : After), configOk s.cfg = true →
    s.job = some ⟨.wait none :: rest, k⟩ → s.Unready n → run n s = .next (s.sampled n)

/-- An operation standing at a wait with m + n + 1 samples left, the peer not ready at the next m, is after m
steps where it was with n + 1 samples left: only the samples drawn and the count have changed. With n + 1
samples left, the peer not ready at any, it is over after n + 1 steps: the select line is raised, the
outcome is BusNotReady, and life, shadow and every other register are as when the wait began (the variant is
the spec's own choice, D3, log 6; one sample per step is the model's, log 5). [40_bus_transport.md R115,
40_bus_transport.md R112, 60_exceptions.md R176] -/
def Obligations.BoundedWaitGivesUpAfterItsSamples : Prop :=
  (∀ (m n : Nat) (s : State) (rest : List Micro) (k : After), configOk s.cfg = true →
      s.job = some ⟨.wait (some (m + n + 1)) :: rest, k⟩ → s.Unready m →
      run m s = .next { s.sampled m with job := some ⟨.wait (some (n + 1)) :: rest, k⟩ }) ∧
    (∀ (n : Nat) (s : State) (rest : List Micro) (k : After), configOk s.cfg = true →
      s.job = some ⟨.wait (some (n + 1)) :: rest, k⟩ → s.Unready (n + 1) →
      run (n + 1) s =
        .next ({ s.sampled (n + 1) with
          cs := .high, trace := s.trace ++ [Event.cs .high] }.finish .busNotReady))

/-- Every operation that opens a transaction drives the select line low and high again and ends BusNotReady,
with no exchange and no other effect (writeTxFifo has drawn its pad): with READY_TIMEOUT = 0 without a
sample, whatever the peer does; with READY_TIMEOUT = 1 after one sample that was not ready (D3, log 6).
[40_bus_transport.md R115] -/
def Obligations.ShortTimeoutFailsAtOnce : Prop :=
  ∀ (i : Instr) (s : State) (xs : List Micro) (k : After),
    firstTransaction s.cfg s.nextPad i = some (xs, k) → configOk s.cfg = true → s.Admits i →
    (s.cfg.readyTimeout = some 0 →
      exec i s = .next ({ s.padded i with
        cs := .high, trace := s.trace ++ [Event.cs .low, Event.cs .high] }.finish .busNotReady)) ∧
    (s.cfg.readyTimeout = some 1 → s.Unready 1 →
      exec i s = .next ({ (s.padded i).sampled 1 with
        cs := .high, trace := s.trace ++ [Event.cs .low, Event.cs .high] }.finish .busNotReady))

/-- Without a timeout, if the first sample is not ready and the operation is held, the next step answers exactly
what issuing the operation one sample later answers: same trace, same outcomes, same registers. So an
unready sample at the first wait leaves no mark but the draw (one sample per step is the model's choice, log
5); HangIsForEver says the same of any wait and any number of samples. [40_bus_transport.md R112,
95_test_vectors.md V-B2] -/
def Obligations.UnreadySampleLeavesNoMark : Prop :=
  ∀ (i : Instr) (s t : State), i.isWire = false → configOk s.cfg = true → s.cfg.readyTimeout = none →
    s.Unready 1 → exec i s = .next t → t.job ≠ none → step t = exec i (s.sampled 1)

/-- Two states that differ only in which of the five initialized values life holds answer next states that
differ at most in life, for every instruction and every peer (D16, log 21). [10_state.md R21,
90_conflicts.md C5] -/
def Obligations.BusActivityIsIndependentOfTheLifecycle : Prop :=
  ∀ (i : Instr) (l : Life) (s t : State), s.life ≠ .uninitialized → l ≠ .uninitialized →
    exec i s = .next t → ∃ l', exec i { s with life := l } = .next { t with life := l' }

/-- Whatever the peer does, these four answer a state with no operation in progress that has drawn no byte and
no sample, from every state that meets the invariant between operations. [60_exceptions.md R179,
46_operation_classes.md R173] -/
def Obligations.OperationsWithoutExchangeNeverHang : Prop :=
  ∀ (s : State) (i : Instr), s.Inv → s.job = none →
    i = .init ∨ i = .shutdown ∨ (i = .reset true ∧ s.cfg.hasResetLine = true) ∨ i = .getAddress false →
    ∃ t, exec i s = .next t ∧ t.job = none ∧ t.env = s.env

/-- With a peer ready at once and P-RT assumed of it at a (the premise RoundTrip, not a law of the model: log
40), writeRegister a [v] and then readRegister a of length 1 both answer a next state, the second with the
result [v]. [20_memory.md R73] -/
def Obligations.RoundTripUnderThePeerAssumption : Prop :=
  ∀ (s : State) (a : Addr) (v : Byte), s.Admits (.writeRegister a [v]) → s.Answers 2 → s.RoundTrip a v →
    ∃ t u, exec (.writeRegister a [v]) s = .next t ∧ exec (.readRegister a 1) t = .next u ∧
      u.replies = s.replies ++ [.done .none, .done (.bytes [v])]
end

