-- ==== Sys2Proof/Laws/Decode.lean ====
section
/-! SUPPORT. Each operand encoding of rule R101 read back, and the bytes an operand was read from: the lemmas
both round trips are assembled from. -/

namespace Sys2Proof

@[simp] theorem joinBytes_high_low (a : Addr) : joinBytes (highByte a) (lowByte a) = a := by
  apply BitVec.eq_of_getLsbD_eq
  intro i hi
  simp only [joinBytes, highByte, lowByte, BitVec.getLsbD_append, BitVec.getLsbD_extractLsb']
  by_cases h : i < 8
  · simp [h]
  · have h1 : i - 8 < 8 := by omega
    have h2 : 8 + (i - 8) = i := by omega
    simp [h, h1, h2]

@[simp] theorem highByte_join (hi lo : Byte) : highByte (joinBytes hi lo) = hi :=
  (BitVec.extractLsb'_append_eq_of_le (xhi := hi) (xlo := lo) (Nat.le_refl 8)).trans (by simp)

@[simp] theorem lowByte_join (hi lo : Byte) : lowByte (joinBytes hi lo) = lo :=
  (BitVec.extractLsb'_append_eq_of_add_le (xhi := hi) (xlo := lo) (Nat.le_refl 8)).trans (by simp)

@[simp] theorem takeU8_cons (b : Byte) (r : List Byte) : takeU8 (b :: r) = .ok (b, r) := rfl

@[simp] theorem takeU16_encode (a : Addr) (r : List Byte) : takeU16 (encodeU16 a ++ r) = .ok (a, r) := by
  simp [takeU16, encodeU16]

theorem takeU16_count {k : Nat} (h : k ≤ maxLength) (r : List Byte) :
    takeU16 (encodeCount k ++ r) = .ok (BitVec.ofNat 16 k, r) ∧ (BitVec.ofNat 16 k).toNat = k := by
  have : k < 65536 := by simp [maxLength] at h; omega
  simp [encodeCount, Nat.mod_eq_of_lt this]

@[simp] theorem takeBool_encode (b : Bool) (r : List Byte) :
    takeBool (encodeBool b :: r) = .ok (b, r) := by
  cases b <;> simp [takeBool, encodeBool]

@[simp] theorem takeStatusType_encode (t : StatusType) (r : List Byte) :
    takeStatusType (encodeStatusType t :: r) = .ok (t, r) := by
  cases t <;> simp [takeStatusType, encodeStatusType]

theorem takeI8_encode {x : Int} (h : -128 ≤ x ∧ x ≤ 127) (r : List Byte) :
    takeI8 (BitVec.ofInt 8 x :: r) = .ok (x, r) := by
  have : x.bmod (2 ^ 8) = x := by
    rw [Int.bmod_def]; split <;> omega
  simp only [takeI8, BitVec.toInt_ofInt, this]

theorem takeExactly_append (bs r : List Byte) : takeExactly bs.length (bs ++ r) = .ok (bs, r) := by
  simp [takeExactly]

theorem takeBytes_encode {bs : List Byte} (h : bs.length ≤ maxLength) (r : List Byte) :
    takeBytes (encodeCount bs.length ++ (bs ++ r)) = .ok (bs, r) := by
  obtain ⟨h1, h2⟩ := takeU16_count h (bs ++ r)
  simp only [takeBytes, h1, h2, takeExactly_append]

theorem takeEntries_encode (es : List Setting) (r : List Byte) :
    takeEntries es.length (es.flatMap encodeSetting ++ r) = .ok (es, r) := by
  induction es with
  | nil => rfl
  | cons e es ih => simp [encodeSetting, encodeU16, takeEntries, ih]

theorem takeSettings_encode {es : List Setting} (h : es.length ≤ maxLength) (r : List Byte) :
    takeSettings (encodeCount es.length ++ (es.flatMap encodeSetting ++ r)) = .ok (es, r) := by
  obtain ⟨h1, h2⟩ := takeU16_count h (es.flatMap encodeSetting ++ r)
  simp only [takeSettings, h1, h2, takeEntries_encode]

/-! ### The bytes an operand was read from -/

theorem takeU16_inv {d r : List Byte} {a : Addr} (h : takeU16 d = .ok (a, r)) : d = encodeU16 a ++ r := by
  match d, h with
  | hi :: lo :: rest, h =>
    simp only [takeU16, Except.ok.injEq, Prod.mk.injEq] at h
    obtain ⟨rfl, rfl⟩ := h
    simp [encodeU16]
  | [_], h => simp [takeU16] at h
  | [], h => simp [takeU16] at h

theorem encodeCount_toNat (a : Addr) : encodeCount a.toNat = encodeU16 a := by simp [encodeCount]

theorem takeBool_inv {d r : List Byte} {b : Bool} (h : takeBool d = .ok (b, r)) : d = encodeBool b :: r := by
  match d, h with
  | [], h => simp [takeBool] at h
  | x :: rest, h =>
    simp only [takeBool] at h
    split at h
    · simp at h; obtain ⟨rfl, rfl⟩ := h; simp [encodeBool, *]
    · split at h
      · simp at h; obtain ⟨rfl, rfl⟩ := h; simp [encodeBool, *]
      · simp at h

theorem takeU8_inv {d r : List Byte} {b : Byte} (h : takeU8 d = .ok (b, r)) : d = b :: r := by
  match d, h with
  | [], h => simp [takeU8] at h
  | x :: rest, h => simp [takeU8] at h; obtain ⟨rfl, rfl⟩ := h; rfl

theorem takeI8_inv {d r : List Byte} {x : Int} (h : takeI8 d = .ok (x, r)) :
    d = BitVec.ofInt 8 x :: r ∧ -128 ≤ x ∧ x ≤ 127 := by
  match d, h with
  | [], h => simp [takeI8] at h
  | b :: rest, h =>
    simp [takeI8] at h; obtain ⟨rfl, rfl⟩ := h
    have h1 := BitVec.toInt_lt (x := b); have h2 := BitVec.le_toInt (x := b)
    refine ⟨by simp, ?_, ?_⟩ <;> simp at h1 h2 <;> omega

theorem takeStatus_inv {d r : List Byte} {t : StatusType} (h : takeStatusType d = .ok (t, r)) :
    d = encodeStatusType t :: r := by
  match d, h with
  | [], h => simp [takeStatusType] at h
  | b :: rest, h =>
    simp only [takeStatusType] at h
    split at h
    · simp at h; obtain ⟨rfl, rfl⟩ := h; simp [encodeStatusType, *]
    split at h
    · simp at h; obtain ⟨rfl, rfl⟩ := h; simp [encodeStatusType, *]
    split at h
    · simp at h; obtain ⟨rfl, rfl⟩ := h; simp [encodeStatusType, *]
    split at h
    · simp at h; obtain ⟨rfl, rfl⟩ := h; simp [encodeStatusType, *]
    split at h
    · simp at h; obtain ⟨rfl, rfl⟩ := h; simp [encodeStatusType, *]
    split at h
    · simp at h; obtain ⟨rfl, rfl⟩ := h; simp [encodeStatusType, *]
    · simp at h

theorem takeBytes_inv {d r bs : List Byte} (h : takeBytes d = .ok (bs, r)) :
    d = encodeCount bs.length ++ (bs ++ r) ∧ bs.length ≤ maxLength := by
  unfold takeBytes at h
  split at h
  next k rest hk =>
    have := takeU16_inv hk
    unfold takeExactly at h
    split at h
    next hle =>
      simp at h; obtain ⟨rfl, rfl⟩ := h
      have hlen : (rest.take k.toNat).length = k.toNat := by simp [hle]
      rw [hlen, encodeCount_toNat, this, List.take_append_drop]
      exact ⟨rfl, by simp [maxLength]; omega⟩
    next => simp at h
  next => simp at h

theorem takeEntries_inv : ∀ (k : Nat) {d r : List Byte} {es : List Setting},
    takeEntries k d = .ok (es, r) →
    d = es.flatMap encodeSetting ++ r ∧ es.length = k := by
  intro k
  induction k with
  | zero => intro d r es h; simp [takeEntries] at h; obtain ⟨rfl, rfl⟩ := h; simp
  | succ k ih =>
    intro d r es h
    match d, h with
    | hi :: lo :: v :: rest, h =>
      simp only [takeEntries] at h
      split at h
      next es' r' hh =>
        simp at h; obtain ⟨rfl, rfl⟩ := h
        obtain ⟨h1, h2⟩ := ih hh
        simp [encodeSetting, encodeU16, h2, ← h1]
      next => simp at h
    | [_, _], h => simp [takeEntries] at h
    | [_], h => simp [takeEntries] at h
    | [], h => simp [takeEntries] at h

theorem takeSettings_inv {d r : List Byte} {es : List Setting} (h : takeSettings d = .ok (es, r)) :
    d = encodeCount es.length ++ (es.flatMap encodeSetting ++ r) ∧ es.length ≤ maxLength := by
  unfold takeSettings at h
  split at h
  next k rest hk =>
    have h1 := takeU16_inv hk
    obtain ⟨h2, h3⟩ := takeEntries_inv _ h
    rw [h3, encodeCount_toNat, ← h2, ← h1]
    exact ⟨rfl, by simp [maxLength]; omega⟩
  next => simp at h

theorem carry_inv {α β : Type} {p : Parsed α} {f : α → β} {b : β} {r : List Byte}
    (h : p.carry f = .ok (b, r)) :
    ∃ a, p = .ok (a, r) ∧ f a = b := by
  unfold Parsed.carry at h; split at h
  next => simp at h; obtain ⟨h1, rfl⟩ := h; exact ⟨_, rfl, h1⟩
  next => simp at h

theorem andThen_inv {α β : Type} {p : Parsed α} {f : α → List Byte → Parsed β} {b : β} {r : List Byte}
    (h : p.andThen f = .ok (b, r)) :
    ∃ a r', p = .ok (a, r') ∧ f a r' = .ok (b, r) := by
  unfold Parsed.andThen at h; split at h
  next a r' => exact ⟨a, r', rfl, h⟩
  next => simp at h

end Sys2Proof
end

