-- ==== Sys2Proof/Laws/State.lean ====
section
/-! SUPPORT. One lemma per field per update of the state, so that no later proof unfolds a record update. -/

namespace Sys2Proof.Machine

/-! ### `State.log` -/

@[simp] theorem State.log_cfg (e : Event) (s : State) : (s.log e).cfg = s.cfg := rfl

@[simp] theorem State.log_life (e : Event) (s : State) : (s.log e).life = s.life := rfl

@[simp] theorem State.log_shadow (e : Event) (s : State) : (s.log e).shadow = s.shadow := rfl

@[simp] theorem State.log_cs (e : Event) (s : State) : (s.log e).cs = s.cs := rfl

@[simp] theorem State.log_rst (e : Event) (s : State) : (s.log e).rst = s.rst := rfl

@[simp] theorem State.log_busOn (e : Event) (s : State) : (s.log e).busOn = s.busOn := rfl

@[simp] theorem State.log_job (e : Event) (s : State) : (s.log e).job = s.job := rfl

@[simp] theorem State.log_buf (e : Event) (s : State) : (s.log e).buf = s.buf := rfl

@[simp] theorem State.log_env (e : Event) (s : State) : (s.log e).env = s.env := rfl

@[simp] theorem State.log_trace (e : Event) (s : State) : (s.log e).trace = s.trace ++ [e] := rfl

@[simp] theorem State.log_replies (e : Event) (s : State) : (s.log e).replies = s.replies := rfl

/-! ### `State.answer` -/

@[simp] theorem State.answer_cfg (r : Reply) (s : State) : (s.answer r).cfg = s.cfg := rfl

@[simp] theorem State.answer_life (r : Reply) (s : State) : (s.answer r).life = s.life := rfl

@[simp] theorem State.answer_shadow (r : Reply) (s : State) : (s.answer r).shadow = s.shadow := rfl

@[simp] theorem State.answer_cs (r : Reply) (s : State) : (s.answer r).cs = s.cs := rfl

@[simp] theorem State.answer_rst (r : Reply) (s : State) : (s.answer r).rst = s.rst := rfl

@[simp] theorem State.answer_busOn (r : Reply) (s : State) : (s.answer r).busOn = s.busOn := rfl

@[simp] theorem State.answer_job (r : Reply) (s : State) : (s.answer r).job = s.job := rfl

@[simp] theorem State.answer_buf (r : Reply) (s : State) : (s.answer r).buf = s.buf := rfl

@[simp] theorem State.answer_env (r : Reply) (s : State) : (s.answer r).env = s.env := rfl

@[simp] theorem State.answer_trace (r : Reply) (s : State) : (s.answer r).trace = s.trace := rfl

@[simp] theorem State.answer_replies (r : Reply) (s : State) : (s.answer r).replies = s.replies ++ [r] := rfl

/-! ### `State.finish` -/

@[simp] theorem State.finish_cfg (r : Reply) (s : State) : (s.finish r).cfg = s.cfg := rfl

@[simp] theorem State.finish_life (r : Reply) (s : State) : (s.finish r).life = s.life := rfl

@[simp] theorem State.finish_shadow (r : Reply) (s : State) : (s.finish r).shadow = s.shadow := rfl

@[simp] theorem State.finish_cs (r : Reply) (s : State) : (s.finish r).cs = s.cs := rfl

@[simp] theorem State.finish_rst (r : Reply) (s : State) : (s.finish r).rst = s.rst := rfl

@[simp] theorem State.finish_busOn (r : Reply) (s : State) : (s.finish r).busOn = s.busOn := rfl

@[simp] theorem State.finish_job (r : Reply) (s : State) : (s.finish r).job = none := rfl

@[simp] theorem State.finish_buf (r : Reply) (s : State) : (s.finish r).buf = [] := rfl

@[simp] theorem State.finish_env (r : Reply) (s : State) : (s.finish r).env = s.env := rfl

@[simp] theorem State.finish_trace (r : Reply) (s : State) : (s.finish r).trace = s.trace := rfl

@[simp] theorem State.finish_replies (r : Reply) (s : State) : (s.finish r).replies = s.replies ++ [r] := rfl

/-! ### `State.byteDrawn` -/

@[simp] theorem State.byteDrawn_cfg (s : State) : (s.byteDrawn).cfg = s.cfg := rfl

@[simp] theorem State.byteDrawn_life (s : State) : (s.byteDrawn).life = s.life := rfl

@[simp] theorem State.byteDrawn_shadow (s : State) : (s.byteDrawn).shadow = s.shadow := rfl

@[simp] theorem State.byteDrawn_cs (s : State) : (s.byteDrawn).cs = s.cs := rfl

@[simp] theorem State.byteDrawn_rst (s : State) : (s.byteDrawn).rst = s.rst := rfl

@[simp] theorem State.byteDrawn_busOn (s : State) : (s.byteDrawn).busOn = s.busOn := rfl

@[simp] theorem State.byteDrawn_job (s : State) : (s.byteDrawn).job = s.job := rfl

@[simp] theorem State.byteDrawn_buf (s : State) : (s.byteDrawn).buf = s.buf := rfl

@[simp] theorem State.byteDrawn_env (s : State) : (s.byteDrawn).env = { s.env with bytes := s.env.bytes.tail, draws := s.env.draws + 1 } := rfl

@[simp] theorem State.byteDrawn_trace (s : State) : (s.byteDrawn).trace = s.trace := rfl

@[simp] theorem State.byteDrawn_replies (s : State) : (s.byteDrawn).replies = s.replies := rfl

/-! ### `State.levelSampled` -/

@[simp] theorem State.levelSampled_cfg (s : State) : (s.levelSampled).cfg = s.cfg := rfl

@[simp] theorem State.levelSampled_life (s : State) : (s.levelSampled).life = s.life := rfl

@[simp] theorem State.levelSampled_shadow (s : State) : (s.levelSampled).shadow = s.shadow := rfl

@[simp] theorem State.levelSampled_cs (s : State) : (s.levelSampled).cs = s.cs := rfl

@[simp] theorem State.levelSampled_rst (s : State) : (s.levelSampled).rst = s.rst := rfl

@[simp] theorem State.levelSampled_busOn (s : State) : (s.levelSampled).busOn = s.busOn := rfl

@[simp] theorem State.levelSampled_job (s : State) : (s.levelSampled).job = s.job := rfl

@[simp] theorem State.levelSampled_buf (s : State) : (s.levelSampled).buf = s.buf := rfl

@[simp] theorem State.levelSampled_env (s : State) : (s.levelSampled).env = { s.env with ready := s.env.ready.tail, samples := s.env.samples + 1 } := rfl

@[simp] theorem State.levelSampled_trace (s : State) : (s.levelSampled).trace = s.trace := rfl

@[simp] theorem State.levelSampled_replies (s : State) : (s.levelSampled).replies = s.replies := rfl

/-! ### `State.padDrawn` -/

@[simp] theorem State.padDrawn_cfg (s : State) : (s.padDrawn).cfg = s.cfg := rfl

@[simp] theorem State.padDrawn_life (s : State) : (s.padDrawn).life = s.life := rfl

@[simp] theorem State.padDrawn_shadow (s : State) : (s.padDrawn).shadow = s.shadow := rfl

@[simp] theorem State.padDrawn_cs (s : State) : (s.padDrawn).cs = s.cs := rfl

@[simp] theorem State.padDrawn_rst (s : State) : (s.padDrawn).rst = s.rst := rfl

@[simp] theorem State.padDrawn_busOn (s : State) : (s.padDrawn).busOn = s.busOn := rfl

@[simp] theorem State.padDrawn_job (s : State) : (s.padDrawn).job = s.job := rfl

@[simp] theorem State.padDrawn_buf (s : State) : (s.padDrawn).buf = s.buf := rfl

@[simp] theorem State.padDrawn_env (s : State) : (s.padDrawn).env = { s.env with pads := s.env.pads.tail, padDraws := s.env.padDraws + 1 } := rfl

@[simp] theorem State.padDrawn_trace (s : State) : (s.padDrawn).trace = s.trace := rfl

@[simp] theorem State.padDrawn_replies (s : State) : (s.padDrawn).replies = s.replies := rfl

/-! ### `State.pinMode` -/

@[simp] theorem State.pinMode_cfg (p : Pin) (m : PinRole) (s : State) : (s.pinMode p m).cfg = s.cfg := rfl

@[simp] theorem State.pinMode_life (p : Pin) (m : PinRole) (s : State) : (s.pinMode p m).life = s.life := rfl

@[simp] theorem State.pinMode_shadow (p : Pin) (m : PinRole) (s : State) : (s.pinMode p m).shadow = s.shadow := rfl

@[simp] theorem State.pinMode_cs (p : Pin) (m : PinRole) (s : State) : (s.pinMode p m).cs = s.cs := rfl

@[simp] theorem State.pinMode_rst (p : Pin) (m : PinRole) (s : State) : (s.pinMode p m).rst = s.rst := rfl

@[simp] theorem State.pinMode_busOn (p : Pin) (m : PinRole) (s : State) : (s.pinMode p m).busOn = s.busOn := rfl

@[simp] theorem State.pinMode_job (p : Pin) (m : PinRole) (s : State) : (s.pinMode p m).job = s.job := rfl

@[simp] theorem State.pinMode_buf (p : Pin) (m : PinRole) (s : State) : (s.pinMode p m).buf = s.buf := rfl

@[simp] theorem State.pinMode_env (p : Pin) (m : PinRole) (s : State) : (s.pinMode p m).env = s.env := rfl

@[simp] theorem State.pinMode_trace (p : Pin) (m : PinRole) (s : State) : (s.pinMode p m).trace = s.trace ++ [.pin p m] := rfl

@[simp] theorem State.pinMode_replies (p : Pin) (m : PinRole) (s : State) : (s.pinMode p m).replies = s.replies := rfl

/-! ### `State.driveRst` -/

@[simp] theorem State.driveRst_cfg (l : Level) (s : State) : (s.driveRst l).cfg = s.cfg := rfl

@[simp] theorem State.driveRst_life (l : Level) (s : State) : (s.driveRst l).life = s.life := rfl

@[simp] theorem State.driveRst_shadow (l : Level) (s : State) : (s.driveRst l).shadow = s.shadow := rfl

@[simp] theorem State.driveRst_cs (l : Level) (s : State) : (s.driveRst l).cs = s.cs := rfl

@[simp] theorem State.driveRst_rst (l : Level) (s : State) : (s.driveRst l).rst = (match l with | .low => .low | .high => .high) := rfl

@[simp] theorem State.driveRst_busOn (l : Level) (s : State) : (s.driveRst l).busOn = s.busOn := rfl

@[simp] theorem State.driveRst_job (l : Level) (s : State) : (s.driveRst l).job = s.job := rfl

@[simp] theorem State.driveRst_buf (l : Level) (s : State) : (s.driveRst l).buf = s.buf := rfl

@[simp] theorem State.driveRst_env (l : Level) (s : State) : (s.driveRst l).env = s.env := rfl

@[simp] theorem State.driveRst_trace (l : Level) (s : State) : (s.driveRst l).trace = s.trace ++ [.rst l] := rfl

@[simp] theorem State.driveRst_replies (l : Level) (s : State) : (s.driveRst l).replies = s.replies := rfl

/-! ### `State.driveCs` -/

@[simp] theorem State.driveCs_cfg (l : Level) (s : State) : (s.driveCs l).cfg = s.cfg := rfl

@[simp] theorem State.driveCs_life (l : Level) (s : State) : (s.driveCs l).life = s.life := rfl

@[simp] theorem State.driveCs_shadow (l : Level) (s : State) : (s.driveCs l).shadow = s.shadow := rfl

@[simp] theorem State.driveCs_cs (l : Level) (s : State) : (s.driveCs l).cs = (match l with | .low => .low | .high => .high) := rfl

@[simp] theorem State.driveCs_rst (l : Level) (s : State) : (s.driveCs l).rst = s.rst := rfl

@[simp] theorem State.driveCs_busOn (l : Level) (s : State) : (s.driveCs l).busOn = s.busOn := rfl

@[simp] theorem State.driveCs_job (l : Level) (s : State) : (s.driveCs l).job = s.job := rfl

@[simp] theorem State.driveCs_buf (l : Level) (s : State) : (s.driveCs l).buf = s.buf := rfl

@[simp] theorem State.driveCs_env (l : Level) (s : State) : (s.driveCs l).env = s.env := rfl

@[simp] theorem State.driveCs_trace (l : Level) (s : State) : (s.driveCs l).trace = s.trace ++ [.cs l] := rfl

@[simp] theorem State.driveCs_replies (l : Level) (s : State) : (s.driveCs l).replies = s.replies := rfl

/-! ### `State.delayMs` -/

@[simp] theorem State.delayMs_cfg (n : Nat) (s : State) : (s.delayMs n).cfg = s.cfg := rfl

@[simp] theorem State.delayMs_life (n : Nat) (s : State) : (s.delayMs n).life = s.life := rfl

@[simp] theorem State.delayMs_shadow (n : Nat) (s : State) : (s.delayMs n).shadow = s.shadow := rfl

@[simp] theorem State.delayMs_cs (n : Nat) (s : State) : (s.delayMs n).cs = s.cs := rfl

@[simp] theorem State.delayMs_rst (n : Nat) (s : State) : (s.delayMs n).rst = s.rst := rfl

@[simp] theorem State.delayMs_busOn (n : Nat) (s : State) : (s.delayMs n).busOn = s.busOn := rfl

@[simp] theorem State.delayMs_job (n : Nat) (s : State) : (s.delayMs n).job = s.job := rfl

@[simp] theorem State.delayMs_buf (n : Nat) (s : State) : (s.delayMs n).buf = s.buf := rfl

@[simp] theorem State.delayMs_env (n : Nat) (s : State) : (s.delayMs n).env = s.env := rfl

@[simp] theorem State.delayMs_trace (n : Nat) (s : State) : (s.delayMs n).trace = s.trace ++ [.dly n] := rfl

@[simp] theorem State.delayMs_replies (n : Nat) (s : State) : (s.delayMs n).replies = s.replies := rfl

/-! ### `State.setBus` -/

@[simp] theorem State.setBus_cfg (on : Bool) (s : State) : (s.setBus on).cfg = s.cfg := rfl

@[simp] theorem State.setBus_life (on : Bool) (s : State) : (s.setBus on).life = s.life := rfl

@[simp] theorem State.setBus_shadow (on : Bool) (s : State) : (s.setBus on).shadow = s.shadow := rfl

@[simp] theorem State.setBus_cs (on : Bool) (s : State) : (s.setBus on).cs = s.cs := rfl

@[simp] theorem State.setBus_rst (on : Bool) (s : State) : (s.setBus on).rst = s.rst := rfl

@[simp] theorem State.setBus_busOn (on : Bool) (s : State) : (s.setBus on).busOn = on := rfl

@[simp] theorem State.setBus_job (on : Bool) (s : State) : (s.setBus on).job = s.job := rfl

@[simp] theorem State.setBus_buf (on : Bool) (s : State) : (s.setBus on).buf = s.buf := rfl

@[simp] theorem State.setBus_env (on : Bool) (s : State) : (s.setBus on).env = s.env := rfl

@[simp] theorem State.setBus_trace (on : Bool) (s : State) : (s.setBus on).trace = s.trace ++ [.bus on] := rfl

@[simp] theorem State.setBus_replies (on : Bool) (s : State) : (s.setBus on).replies = s.replies := rfl

/-! ### `State.xfer` -/

@[simp] theorem State.xfer_cfg (b : Byte) (s : State) : (s.xfer b).cfg = s.cfg := rfl

@[simp] theorem State.xfer_life (b : Byte) (s : State) : (s.xfer b).life = s.life := rfl

@[simp] theorem State.xfer_shadow (b : Byte) (s : State) : (s.xfer b).shadow = s.shadow := rfl

@[simp] theorem State.xfer_cs (b : Byte) (s : State) : (s.xfer b).cs = s.cs := rfl

@[simp] theorem State.xfer_rst (b : Byte) (s : State) : (s.xfer b).rst = s.rst := rfl

@[simp] theorem State.xfer_busOn (b : Byte) (s : State) : (s.xfer b).busOn = s.busOn := rfl

@[simp] theorem State.xfer_job (b : Byte) (s : State) : (s.xfer b).job = s.job := rfl

@[simp] theorem State.xfer_buf (b : Byte) (s : State) : (s.xfer b).buf = s.buf := rfl

@[simp] theorem State.xfer_env (b : Byte) (s : State) : (s.xfer b).env = { s.env with bytes := s.env.bytes.tail, draws := s.env.draws + 1 } := rfl

@[simp] theorem State.xfer_trace (b : Byte) (s : State) : (s.xfer b).trace = s.trace ++ [.x b s.nextByte] := rfl

@[simp] theorem State.xfer_replies (b : Byte) (s : State) : (s.xfer b).replies = s.replies := rfl

/-! ### `State.keep` -/

@[simp] theorem State.keep_cfg (r : Byte) (s : State) : (s.keep r).cfg = s.cfg := rfl

@[simp] theorem State.keep_life (r : Byte) (s : State) : (s.keep r).life = s.life := rfl

@[simp] theorem State.keep_shadow (r : Byte) (s : State) : (s.keep r).shadow = s.shadow := rfl

@[simp] theorem State.keep_cs (r : Byte) (s : State) : (s.keep r).cs = s.cs := rfl

@[simp] theorem State.keep_rst (r : Byte) (s : State) : (s.keep r).rst = s.rst := rfl

@[simp] theorem State.keep_busOn (r : Byte) (s : State) : (s.keep r).busOn = s.busOn := rfl

@[simp] theorem State.keep_job (r : Byte) (s : State) : (s.keep r).job = s.job := rfl

@[simp] theorem State.keep_buf (r : Byte) (s : State) : (s.keep r).buf = s.buf ++ [r] := rfl

@[simp] theorem State.keep_env (r : Byte) (s : State) : (s.keep r).env = s.env := rfl

@[simp] theorem State.keep_trace (r : Byte) (s : State) : (s.keep r).trace = s.trace := rfl

@[simp] theorem State.keep_replies (r : Byte) (s : State) : (s.keep r).replies = s.replies := rfl

/-! ### `State.endTransaction` -/

@[simp] theorem State.endTransaction_cfg (s : State) : (s.endTransaction).cfg = s.cfg := rfl

@[simp] theorem State.endTransaction_life (s : State) : (s.endTransaction).life = s.life := rfl

@[simp] theorem State.endTransaction_shadow (s : State) : (s.endTransaction).shadow = s.shadow := rfl

@[simp] theorem State.endTransaction_cs (s : State) : (s.endTransaction).cs = .high := rfl

@[simp] theorem State.endTransaction_rst (s : State) : (s.endTransaction).rst = s.rst := rfl

@[simp] theorem State.endTransaction_busOn (s : State) : (s.endTransaction).busOn = s.busOn := rfl

@[simp] theorem State.endTransaction_job (s : State) : (s.endTransaction).job = s.job := rfl

@[simp] theorem State.endTransaction_buf (s : State) : (s.endTransaction).buf = s.buf := rfl

@[simp] theorem State.endTransaction_env (s : State) : (s.endTransaction).env = s.env := rfl

@[simp] theorem State.endTransaction_trace (s : State) : (s.endTransaction).trace = s.trace ++ [.cs .high] := rfl

@[simp] theorem State.endTransaction_replies (s : State) : (s.endTransaction).replies = s.replies := rfl

/-! ### `State.accepted` -/

@[simp] theorem State.accepted_cfg (rest : List (List Byte)) (s : State) : (s.accepted rest).cfg = s.cfg := rfl

@[simp] theorem State.accepted_life (rest : List (List Byte)) (s : State) : (s.accepted rest).life = s.life := rfl

@[simp] theorem State.accepted_shadow (rest : List (List Byte)) (s : State) : (s.accepted rest).shadow = s.shadow := rfl

@[simp] theorem State.accepted_cs (rest : List (List Byte)) (s : State) : (s.accepted rest).cs = s.cs := rfl

@[simp] theorem State.accepted_rst (rest : List (List Byte)) (s : State) : (s.accepted rest).rst = s.rst := rfl

@[simp] theorem State.accepted_busOn (rest : List (List Byte)) (s : State) : (s.accepted rest).busOn = s.busOn := rfl

@[simp] theorem State.accepted_job (rest : List (List Byte)) (s : State) : (s.accepted rest).job = s.job := rfl

@[simp] theorem State.accepted_buf (rest : List (List Byte)) (s : State) : (s.accepted rest).buf = s.buf := rfl

@[simp] theorem State.accepted_env (rest : List (List Byte)) (s : State) : (s.accepted rest).env = { s.env with host := rest } := rfl

@[simp] theorem State.accepted_trace (rest : List (List Byte)) (s : State) : (s.accepted rest).trace = s.trace := rfl

@[simp] theorem State.accepted_replies (rest : List (List Byte)) (s : State) : (s.accepted rest).replies = s.replies := rfl

/-! ### `State.rejected` -/

@[simp] theorem State.rejected_cfg (s : State) : (s.rejected).cfg = s.cfg := rfl

@[simp] theorem State.rejected_life (s : State) : (s.rejected).life = s.life := rfl

@[simp] theorem State.rejected_shadow (s : State) : (s.rejected).shadow = s.shadow := rfl

@[simp] theorem State.rejected_cs (s : State) : (s.rejected).cs = s.cs := rfl

@[simp] theorem State.rejected_rst (s : State) : (s.rejected).rst = s.rst := rfl

@[simp] theorem State.rejected_busOn (s : State) : (s.rejected).busOn = s.busOn := rfl

@[simp] theorem State.rejected_job (s : State) : (s.rejected).job = s.job := rfl

@[simp] theorem State.rejected_buf (s : State) : (s.rejected).buf = s.buf := rfl

@[simp] theorem State.rejected_env (s : State) : (s.rejected).env = s.env := rfl

@[simp] theorem State.rejected_trace (s : State) : (s.rejected).trace = s.trace := rfl

@[simp] theorem State.rejected_replies (s : State) : (s.rejected).replies = s.replies ++ [.refused .badDescriptor] := rfl

/-! ### `State.exchanged` -/

@[simp] theorem State.exchanged_cfg (sent : List Byte) (s : State) :
    (s.exchanged sent).cfg = s.cfg := rfl

@[simp] theorem State.exchanged_life (sent : List Byte) (s : State) :
    (s.exchanged sent).life = s.life := rfl

@[simp] theorem State.exchanged_shadow (sent : List Byte) (s : State) :
    (s.exchanged sent).shadow = s.shadow := rfl

@[simp] theorem State.exchanged_cs (sent : List Byte) (s : State) :
    (s.exchanged sent).cs = .high := rfl

@[simp] theorem State.exchanged_rst (sent : List Byte) (s : State) :
    (s.exchanged sent).rst = s.rst := rfl

@[simp] theorem State.exchanged_busOn (sent : List Byte) (s : State) :
    (s.exchanged sent).busOn = s.busOn := rfl

@[simp] theorem State.exchanged_job (sent : List Byte) (s : State) :
    (s.exchanged sent).job = s.job := rfl

@[simp] theorem State.exchanged_buf (sent : List Byte) (s : State) :
    (s.exchanged sent).buf = s.buf := rfl

@[simp] theorem State.exchanged_env (sent : List Byte) (s : State) :
    (s.exchanged sent).env = { s.env with
      ready := s.env.ready.tail, samples := s.env.samples + 1
      bytes := s.env.bytes.drop sent.length, draws := s.env.draws + sent.length } := rfl

@[simp] theorem State.exchanged_trace (sent : List Byte) (s : State) :
    (s.exchanged sent).trace = s.trace ++ ([.cs .low, .rdy] ++ s.exchangesFrom 0 sent ++ [.cs .high]) := rfl

@[simp] theorem State.exchanged_replies (sent : List Byte) (s : State) :
    (s.exchanged sent).replies = s.replies := rfl

/-! ### `State.resumed` -/

@[simp] theorem State.resumed_cfg (sent : List Byte) (s : State) :
    (s.resumed sent).cfg = s.cfg := rfl

@[simp] theorem State.resumed_life (sent : List Byte) (s : State) :
    (s.resumed sent).life = s.life := rfl

@[simp] theorem State.resumed_shadow (sent : List Byte) (s : State) :
    (s.resumed sent).shadow = s.shadow := rfl

@[simp] theorem State.resumed_cs (sent : List Byte) (s : State) :
    (s.resumed sent).cs = .high := rfl

@[simp] theorem State.resumed_rst (sent : List Byte) (s : State) :
    (s.resumed sent).rst = s.rst := rfl

@[simp] theorem State.resumed_busOn (sent : List Byte) (s : State) :
    (s.resumed sent).busOn = s.busOn := rfl

@[simp] theorem State.resumed_job (sent : List Byte) (s : State) :
    (s.resumed sent).job = s.job := rfl

@[simp] theorem State.resumed_buf (sent : List Byte) (s : State) :
    (s.resumed sent).buf = s.buf := rfl

@[simp] theorem State.resumed_env (sent : List Byte) (s : State) :
    (s.resumed sent).env = { s.env with
      ready := s.env.ready.tail, samples := s.env.samples + 1
      bytes := s.env.bytes.drop sent.length, draws := s.env.draws + sent.length } := rfl

@[simp] theorem State.resumed_trace (sent : List Byte) (s : State) :
    (s.resumed sent).trace = s.trace ++ ([.rdy] ++ s.exchangesFrom 0 sent ++ [.cs .high]) := rfl

@[simp] theorem State.resumed_replies (sent : List Byte) (s : State) :
    (s.resumed sent).replies = s.replies := rfl

/-! ### `State.selectedAt` -/

@[simp] theorem State.selectedAt_cfg (xs : List Micro) (k : After) (s : State) :
    (s.selectedAt xs k).cfg = s.cfg := rfl

@[simp] theorem State.selectedAt_life (xs : List Micro) (k : After) (s : State) :
    (s.selectedAt xs k).life = s.life := rfl

@[simp] theorem State.selectedAt_shadow (xs : List Micro) (k : After) (s : State) :
    (s.selectedAt xs k).shadow = s.shadow := rfl

@[simp] theorem State.selectedAt_cs (xs : List Micro) (k : After) (s : State) :
    (s.selectedAt xs k).cs = .low := rfl

@[simp] theorem State.selectedAt_rst (xs : List Micro) (k : After) (s : State) :
    (s.selectedAt xs k).rst = s.rst := rfl

@[simp] theorem State.selectedAt_busOn (xs : List Micro) (k : After) (s : State) :
    (s.selectedAt xs k).busOn = s.busOn := rfl

@[simp] theorem State.selectedAt_job (xs : List Micro) (k : After) (s : State) :
    (s.selectedAt xs k).job = some ⟨.wait s.cfg.readyTimeout :: (xs ++ [.deselect]), k⟩ := rfl

@[simp] theorem State.selectedAt_buf (xs : List Micro) (k : After) (s : State) :
    (s.selectedAt xs k).buf = [] := rfl

@[simp] theorem State.selectedAt_env (xs : List Micro) (k : After) (s : State) :
    (s.selectedAt xs k).env = s.env := rfl

@[simp] theorem State.selectedAt_trace (xs : List Micro) (k : After) (s : State) :
    (s.selectedAt xs k).trace = s.trace ++ [.cs .low] := rfl

@[simp] theorem State.selectedAt_replies (xs : List Micro) (k : After) (s : State) :
    (s.selectedAt xs k).replies = s.replies := rfl

@[simp] theorem State.selectedAt_nextLevel (xs : List Micro) (k : After) (s : State) :
    (s.selectedAt xs k).nextLevel = s.nextLevel := rfl

/-! ### `State.heldAt` -/

@[simp] theorem State.heldAt_cfg (xs : List Micro) (k : After) (s : State) :
    (s.heldAt xs k).cfg = s.cfg := rfl

@[simp] theorem State.heldAt_life (xs : List Micro) (k : After) (s : State) :
    (s.heldAt xs k).life = s.life := rfl

@[simp] theorem State.heldAt_shadow (xs : List Micro) (k : After) (s : State) :
    (s.heldAt xs k).shadow = s.shadow := rfl

@[simp] theorem State.heldAt_cs (xs : List Micro) (k : After) (s : State) :
    (s.heldAt xs k).cs = .low := rfl

@[simp] theorem State.heldAt_rst (xs : List Micro) (k : After) (s : State) :
    (s.heldAt xs k).rst = s.rst := rfl

@[simp] theorem State.heldAt_busOn (xs : List Micro) (k : After) (s : State) :
    (s.heldAt xs k).busOn = s.busOn := rfl

@[simp] theorem State.heldAt_job (xs : List Micro) (k : After) (s : State) :
    (s.heldAt xs k).job = some ⟨.wait (s.cfg.readyTimeout.map (· - 1)) :: (xs ++ [.deselect]), k⟩ := rfl

@[simp] theorem State.heldAt_buf (xs : List Micro) (k : After) (s : State) :
    (s.heldAt xs k).buf = [] := rfl

@[simp] theorem State.heldAt_env (xs : List Micro) (k : After) (s : State) :
    (s.heldAt xs k).env = { s.env with ready := s.env.ready.drop 1, samples := s.env.samples + 1 } := rfl

@[simp] theorem State.heldAt_trace (xs : List Micro) (k : After) (s : State) :
    (s.heldAt xs k).trace = s.trace ++ [.cs .low] := rfl

@[simp] theorem State.heldAt_replies (xs : List Micro) (k : After) (s : State) :
    (s.heldAt xs k).replies = s.replies := rfl

/-! ### `State.padded` -/

@[simp] theorem State.padded_cfg (i : Instr) (s : State) : (s.padded i).cfg = s.cfg := by
  simp only [State.padded]; split <;> rfl

@[simp] theorem State.padded_life (i : Instr) (s : State) : (s.padded i).life = s.life := by
  simp only [State.padded]; split <;> rfl

@[simp] theorem State.padded_shadow (i : Instr) (s : State) : (s.padded i).shadow = s.shadow := by
  simp only [State.padded]; split <;> rfl

@[simp] theorem State.padded_cs (i : Instr) (s : State) : (s.padded i).cs = s.cs := by
  simp only [State.padded]; split <;> rfl

@[simp] theorem State.padded_rst (i : Instr) (s : State) : (s.padded i).rst = s.rst := by
  simp only [State.padded]; split <;> rfl

@[simp] theorem State.padded_busOn (i : Instr) (s : State) : (s.padded i).busOn = s.busOn := by
  simp only [State.padded]; split <;> rfl

@[simp] theorem State.padded_job (i : Instr) (s : State) : (s.padded i).job = s.job := by
  simp only [State.padded]; split <;> rfl

@[simp] theorem State.padded_buf (i : Instr) (s : State) : (s.padded i).buf = s.buf := by
  simp only [State.padded]; split <;> rfl

@[simp] theorem State.padded_trace (i : Instr) (s : State) : (s.padded i).trace = s.trace := by
  simp only [State.padded]; split <;> rfl

@[simp] theorem State.padded_replies (i : Instr) (s : State) : (s.padded i).replies = s.replies := by
  simp only [State.padded]; split <;> rfl

/-- A pad draw leaves what the peer will answer alone. -/
@[simp] theorem State.padded_nextLevel (i : Instr) (s : State) : (s.padded i).nextLevel = s.nextLevel := by
  simp only [State.padded]; split <;> rfl

end Sys2Proof.Machine
end

