-- ==== Sys2Proof/Laws/Ops.lean ====
section
/-! SUPPORT. What each shared operation can do, said once: the draws, the ready wait, the exchanges and the
transaction. The provers cite these and unfold nothing. -/

namespace Sys2Proof.Machine

/-! ### Draws -/

theorem State.nextByte_eq (s : State) : s.nextByte = s.byteAt 0 := by
  simp [State.nextByte, State.byteAt, List.head?_eq_getElem?]

theorem State.nextLevel_eq (s : State) : s.nextLevel = s.levelAt 0 := by
  simp [State.nextLevel, State.levelAt, List.head?_eq_getElem?]

/-- What is drawn depends only on the draws to come. -/
theorem State.byteAt_congr {s t : State} (hb : t.env.bytes = s.env.bytes) (hd : t.env.draws = s.env.draws)
    (k : Nat) : t.byteAt k = s.byteAt k := by
  simp [State.byteAt, hb, hd]

theorem State.levelAt_congr {s t : State} (hr : t.env.ready = s.env.ready)
    (hs : t.env.samples = s.env.samples) (k : Nat) : t.levelAt k = s.levelAt k := by
  simp [State.levelAt, hr, hs]

theorem State.exchangesFrom_congr {s t : State} (h : ∀ k, t.byteAt k = s.byteAt k) (bs : List Byte) :
    ∀ k, t.exchangesFrom k bs = s.exchangesFrom k bs := by
  induction bs with
  | nil => intro k; rfl
  | cons b bs ih => intro k; simp [State.exchangesFrom, h, ih]

theorem State.payload_congr {s t : State} (h : ∀ k, t.byteAt k = s.byteAt k) (k n : Nat) :
    t.payload k n = s.payload k n := by
  simp [State.payload, h]

theorem State.exchangesFrom_shift {s t : State} (d : Nat) (h : ∀ k, t.byteAt k = s.byteAt (d + k))
    (bs : List Byte) : ∀ k, t.exchangesFrom k bs = s.exchangesFrom (d + k) bs := by
  induction bs with
  | nil => intro k; rfl
  | cons b bs ih => intro k; simp [State.exchangesFrom, h, ih, Nat.add_assoc]

theorem State.exchangesFrom_append (s : State) (as bs : List Byte) :
    ∀ k, s.exchangesFrom k (as ++ bs) = s.exchangesFrom k as ++ s.exchangesFrom (k + as.length) bs := by
  induction as with
  | nil => intro k; simp [State.exchangesFrom]
  | cons a as ih => intro k; simp [State.exchangesFrom, ih, Nat.add_assoc, Nat.add_comm 1]

@[simp] theorem State.payload_zero (s : State) (k : Nat) : s.payload k 0 = [] := rfl

@[simp] theorem State.payload_length (s : State) (k n : Nat) : (s.payload k n).length = n := by
  simp [State.payload]

theorem State.payload_succ (s : State) (k n : Nat) :
    s.payload k (n + 1) = s.byteAt k :: s.payload (k + 1) n := by
  simp [State.payload, List.range_succ_eq_map, Nat.add_assoc, Nat.add_comm 1]

theorem State.payload_one (s : State) (k : Nat) : s.payload k 1 = [s.byteAt k] := by
  simp [State.payload_succ]

/-! ### Exchanges -/

theorem State.clocked_byteAt (sent kept : List Byte) (s : State) (k : Nat) :
    (s.clocked sent kept).byteAt k = s.byteAt (sent.length + k) := by
  simp [State.clocked, State.byteAt, List.getElem?_drop, Nat.add_assoc]

theorem State.clocked_clocked (a ka b kb : List Byte) (s : State) :
    (s.clocked a ka).clocked b kb = s.clocked (a ++ b) (ka ++ kb) := by
  have h := State.exchangesFrom_shift a.length (State.clocked_byteAt a ka s) b 0
  rw [State.clocked, h]
  simp [State.clocked, State.exchangesFrom_append, List.append_assoc, Nat.add_assoc]

theorem State.clocked_nil (s : State) : s.clocked [] [] = s := by
  simp [State.clocked, State.exchangesFrom]

theorem State.xfer_eq (b : Byte) (s : State) : s.xfer b = s.clocked [b] [] := by
  simp [State.xfer, State.log, State.byteDrawn, State.clocked, State.exchangesFrom, State.nextByte_eq]

theorem State.xfer_keep_eq (b : Byte) (s : State) :
    (s.xfer b).keep s.nextByte = s.clocked [b] [s.byteAt 0] := by
  simp [State.xfer, State.keep, State.log, State.byteDrawn, State.clocked, State.exchangesFrom,
    State.nextByte_eq]

/-- Bytes sent, the answers discarded (rules R87, R88). -/
theorem runSeq_sends (bs : List Byte) (ms : List Micro) :
    ∀ s : State, runSeq (bs.map Micro.send ++ ms) s = runSeq ms (s.clocked bs []) := by
  induction bs with
  | nil => intro s; simp [State.clocked_nil]
  | cons b bs ih => intro s; simp [runSeq, ih, State.xfer_eq, State.clocked_clocked]

/-- Bytes sent, the answers kept in order (rule R87). -/
theorem runSeq_recvs (b : Byte) (n : Nat) (ms : List Micro) :
    ∀ s : State, runSeq (List.replicate n (Micro.recv b) ++ ms) s =
      runSeq ms (s.clocked (List.replicate n b) (s.payload 0 n)) := by
  induction n with
  | zero => intro s; simp [State.clocked_nil]
  | succ n ih =>
    intro s
    have h : (s.clocked [b] [s.byteAt 0]).payload 0 n = s.payload 1 n := by
      simp [State.payload, State.clocked_byteAt]
    simp [List.replicate_succ, runSeq, ih, State.xfer_keep_eq, State.clocked_clocked, h,
      State.payload_succ]

/-! ### The ready wait -/

theorem State.waitTurn_ready {s : State} {left : Option Nat} (h0 : left ≠ some 0)
    (h : s.nextLevel = s.cfg.readyActiveLevel) : s.waitTurn left = (.ready, s.levelSampled) := by
  simp [State.waitTurn, waitEnd, h0, h]

/-- An unbounded wait holds while the peer is not ready (rule R112). -/
theorem State.waitTurn_hold {s : State} (h : s.nextLevel ≠ s.cfg.readyActiveLevel) :
    s.waitTurn none = (.holding none, s.levelSampled) := by
  simp [State.waitTurn, waitEnd, h]

theorem State.waitTurn_count {s : State} {n : Nat} (h : s.nextLevel ≠ s.cfg.readyActiveLevel) :
    s.waitTurn (some (n + 2)) = (.holding (some (n + 1)), s.levelSampled) := by
  simp [State.waitTurn, waitEnd, h]

theorem State.waitTurn_last {s : State} (h : s.nextLevel ≠ s.cfg.readyActiveLevel) :
    s.waitTurn (some 1) = (.expired, s.levelSampled) := by
  simp [State.waitTurn, waitEnd, h]

/-- What one turn of the wait can do: it samples once or, with no sample left, expires. -/
theorem State.waitTurn_cases (left : Option Nat) (s : State) :
    (left = some 0 ∧ s.waitTurn left = (.expired, s)) ∨
    (left ≠ some 0 ∧ s.nextLevel = s.cfg.readyActiveLevel ∧ s.waitTurn left = (.ready, s.levelSampled)) ∨
    (left ≠ some 0 ∧ s.nextLevel ≠ s.cfg.readyActiveLevel ∧
      (s.waitTurn left = (.expired, s.levelSampled) ∨
        ∃ l, l ≠ some 0 ∧ s.waitTurn left = (.holding l, s.levelSampled))) := by
  by_cases h0 : left = some 0
  · exact .inl ⟨h0, by simp [State.waitTurn, h0]⟩
  · by_cases h : s.nextLevel = s.cfg.readyActiveLevel
    · exact .inr (.inl ⟨h0, h, State.waitTurn_ready h0 h⟩)
    · refine .inr (.inr ⟨h0, h, ?_⟩)
      match left, h0 with
      | none, _ => exact .inr ⟨none, by simp, State.waitTurn_hold h⟩
      | some 1, _ => exact .inl (State.waitTurn_last h)
      | some (n + 2), _ => exact .inr ⟨some (n + 1), by simp, State.waitTurn_count h⟩

/-! ### Transactions -/

/-- A transaction is its ready wait with the select line low already. -/
theorem State.exchanged_eq_resumed (sent : List Byte) (s : State) :
    s.exchanged sent = (s.driveCs .low).resumed sent := by
  have h := State.exchangesFrom_congr (s := s) (t := s.driveCs .low) (fun _ => rfl) sent 0
  simp only [State.exchanged, State.resumed, h]
  simp

/-- What is left of a transaction at its ready wait, the next sample being ready: `sent` driven out, `n` bytes
read with `b`. -/
theorem runSeq_resumed {s : State} {left : Option Nat} (sent : List Byte) (b : Byte) (n : Nat)
    (h0 : left ≠ some 0) (h : s.levelAt 0 = s.cfg.readyActiveLevel) :
    runSeq (.wait left :: (sent.map Micro.send ++ List.replicate n (Micro.recv b) ++ [.deselect])) s =
      (.done, { s.resumed (sent ++ List.replicate n b) with buf := s.buf ++ s.payload sent.length n }) := by
  have hw := State.waitTurn_ready h0 ((State.nextLevel_eq s).trans h)
  set t : State := s.levelSampled.log .rdy with ht
  have hb : ∀ k, t.byteAt k = s.byteAt k := fun k => State.byteAt_congr rfl rfl k
  have hp : (t.clocked sent []).payload 0 n = s.payload sent.length n := by
    simp [State.payload, State.clocked_byteAt, hb]
  have hx := State.exchangesFrom_congr hb (sent ++ List.replicate n b) 0
  simp only [List.append_assoc, runSeq, hw, ← ht, runSeq_sends, runSeq_recvs, State.clocked_clocked, hp]
  simp only [State.clocked, hx]
  simp [ht, State.endTransaction, State.driveCs, State.log, State.levelSampled, State.resumed]

/-- A transaction whose peer is ready at the first sample: the headers sent, `n` bytes read. -/
theorem runSeq_transaction {s : State} (sent : List Byte) (b : Byte) (n : Nat) (h : s.Answers 1) :
    runSeq (transaction s.cfg (sent.map Micro.send ++ List.replicate n (Micro.recv b))) s =
      (.done, { s.exchanged (sent ++ List.replicate n b) with
        buf := s.buf ++ s.payload sent.length n }) := by
  rw [State.exchanged_eq_resumed]
  exact runSeq_resumed (s := s.driveCs .low) sent b n h.1 (h.2 0 (by omega))

/-- A transaction that only sends. -/
theorem runSeq_transaction_send {s : State} (sent : List Byte) (h : s.Answers 1) :
    runSeq (transaction s.cfg (sent.map Micro.send)) s = (.done, s.exchanged sent) := by
  have := runSeq_transaction sent 0#8 0 h
  simpa [State.exchanged] using this

/-- A transaction whose peer is not ready and whose wait has no bound: the line is low, nothing else but the
sample has happened, and everything is still to do (rule R112). -/
theorem runSeq_transaction_hold {s : State} (xs : List Micro) (h0 : s.cfg.readyTimeout = none)
    (h : s.nextLevel ≠ s.cfg.readyActiveLevel) :
    runSeq (transaction s.cfg xs) s =
      (.held (.wait none :: (xs ++ [.deselect])), (s.driveCs .low).levelSampled) := by
  have hw : (s.driveCs .low).waitTurn none = (.holding none, (s.driveCs .low).levelSampled) :=
    State.waitTurn_hold h
  simp [transaction, runSeq, h0, hw]

/-! ### The sequences of the operations, with a peer that is ready -/

/-- The latch of bytes read plays no part in a transaction. -/
theorem State.exchanged_setBuf (sent b : List Byte) (s : State) :
    ({ s with buf := b } : State).exchanged sent = { s.exchanged sent with buf := b } := by
  have h := State.exchangesFrom_congr (s := s) (t := { s with buf := b }) (fun _ => rfl) sent 0
  simp [State.exchanged, h]

theorem State.byteAt_exchanged (sent : List Byte) (s : State) (k : Nat) :
    (s.exchanged sent).byteAt k = s.byteAt (sent.length + k) := by
  simp [State.exchanged, State.byteAt, List.getElem?_drop, Nat.add_assoc]

theorem State.levelAt_exchanged (sent : List Byte) (s : State) (k : Nat) :
    (s.exchanged sent).levelAt k = s.levelAt (k + 1) := by
  simp [State.exchanged, State.levelAt, Nat.add_assoc, Nat.add_comm 1]

/-- A transaction uses one of the ready waits the peer answers. -/
theorem State.answers_exchanged {k : Nat} {s : State} (sent : List Byte) (h : s.Answers (k + 1)) :
    (s.exchanged sent).Answers k :=
  ⟨h.1, fun i hi => by rw [State.levelAt_exchanged]; exact h.2 (i + 1) (by omega)⟩

theorem State.answers_mono {k m : Nat} {s : State} (h : s.Answers m) (hk : k ≤ m) : s.Answers k :=
  ⟨h.1, fun i hi => h.2 i (by omega)⟩

@[simp] theorem hdr_length (d : Dir) (a : Addr) (n : Nat) : (hdr d a n).length = headerLength a := by
  simp only [hdr, headerLength]; split <;> rfl

@[simp] theorem readFrame_length (a : Addr) (n : Nat) : (readFrame a n).length = headerLength a + n := by
  simp [readFrame]

theorem runSeq_readSeq {s : State} {n : Nat} (a : Addr) (h : s.Answers 1) (hn : n ≠ 0) :
    runSeq (readSeq s.cfg a n) s = (.done, { s.exchanged (readFrame a n) with
      buf := s.buf ++ s.payload (headerLength a) n }) := by
  simpa [readSeq, hn, readBody, readFrame, dummyByte] using runSeq_transaction (hdr .read a n) dummyByte n h

theorem runSeq_writeSeq {s : State} {bs : List Byte} (a : Addr) (h : s.Answers 1) (hb : bs ≠ []) :
    runSeq (writeSeq s.cfg a bs) s = (.done, s.exchanged (writeFrame a bs)) := by
  have hl : bs.length ≠ 0 := by simpa using hb
  simpa [writeSeq, hl, hb, writeBody, writeFrame] using runSeq_transaction_send (writeFrame a bs) h

theorem runSeq_strobeSeq {s : State} {v : Byte} (h : s.Answers 1) (hv : isStrobe v = true) :
    runSeq (strobeSeq s.cfg v) s = (.done, s.exchanged [v]) := by
  simpa [strobeSeq, hv] using runSeq_transaction_send [v] h

theorem runSeq_configureSeq {s : State} (es : List Setting) (h : s.Answers 1) :
    runSeq (configureSeq s.cfg es) s =
      (.done, s.exchanged (es.flatMap fun e => writeFrame e.address [e.value])) := by
  have hm : (es.flatMap fun e => writeBody e.address [e.value]) =
      (es.flatMap fun e => writeFrame e.address [e.value]).map Micro.send := by
    induction es with
    | nil => rfl
    | cons e es ih =>
      simp only [List.flatMap_cons, List.map_append, ih]
      simp [writeBody, writeFrame]
  simpa [configureSeq, hm] using
    runSeq_transaction_send (es.flatMap fun e => writeFrame e.address [e.value]) h

/-- The no-op strobe of getStatus keeps the answer of its one exchange. -/
theorem runSeq_statusSeq_strobe {s : State} {t : StatusType} (h : s.Answers 1)
    (ht : statusAddress s.cfg t = none) :
    runSeq (statusSeq s.cfg t) s =
      (.done, { s.exchanged [s.cfg.strobeSNOP] with buf := s.buf ++ [s.byteAt 0] }) := by
  simpa [statusSeq, ht, State.payload_one] using runSeq_transaction [] s.cfg.strobeSNOP 1 h

/-! ### What micro-operations and continuations leave alone -/

/-- Micro-operations write no engine register but `cs`. -/
theorem runSeq_frame (ms : List Micro) : ∀ s : State,
    (runSeq ms s).2.cfg = s.cfg ∧ (runSeq ms s).2.life = s.life ∧ (runSeq ms s).2.shadow = s.shadow ∧
    (runSeq ms s).2.rst = s.rst ∧ (runSeq ms s).2.busOn = s.busOn ∧ (runSeq ms s).2.job = s.job ∧
    (runSeq ms s).2.replies = s.replies := by
  induction ms with
  | nil => intro s; simp [runSeq]
  | cons m ms ih =>
    intro s
    cases m with
    | select => simpa [runSeq] using ih (s.driveCs .low)
    | send b => simpa [runSeq] using ih (s.xfer b)
    | recv b => simpa [runSeq] using ih ((s.xfer b).keep s.nextByte)
    | deselect => simpa [runSeq] using ih s.endTransaction
    | wait left =>
      obtain ⟨-, hw⟩ | ⟨-, -, hw⟩ | ⟨-, -, hw | ⟨l, -, hw⟩⟩ := State.waitTurn_cases left s
      · simp [runSeq, hw]
      · simpa [runSeq, hw] using ih (s.levelSampled.log .rdy)
      · simp [runSeq, hw]
      · simp [runSeq, hw]

theorem writeBack_frame (k : After) (s : State) :
    (writeBack k s).cfg = s.cfg ∧ (writeBack k s).rst = s.rst ∧ (writeBack k s).busOn = s.busOn ∧
    (writeBack k s).cs = s.cs ∧ (writeBack k s).env = s.env ∧ (writeBack k s).replies = s.replies := by
  cases k <;> simp [writeBack]

/-- A job whose micro-operations run to their end and whose continuation ends the operation. -/
theorem runJob_reply {fuel : Nat} {j : Job} {s s' : State} {r : Reply} (h : runSeq j.seq s = (.done, s'))
    (hk : continueWith j.after s' = .reply r) :
    runJob (fuel + 1) j s = (writeBack j.after s').finish r := by
  simp [runJob, h, hk]

/-- A job whose continuation goes on with another. -/
theorem runJob_go {fuel : Nat} {j j' : Job} {s s' : State} (h : runSeq j.seq s = (.done, s'))
    (hk : continueWith j.after s' = .go j') :
    runJob (fuel + 1) j s = runJob fuel j' { s' with buf := [] } := by
  simp [runJob, h, hk]

theorem runJob_held {fuel : Nat} {j : Job} {s s' : State} {rest : List Micro}
    (h : runSeq j.seq s = (.held rest, s')) :
    runJob (fuel + 1) j s = { s' with job := some ⟨rest, j.after⟩ } := by
  simp [runJob, h]

theorem runJob_expired {fuel : Nat} {j : Job} {s s' : State} (h : runSeq j.seq s = (.expired, s')) :
    runJob (fuel + 1) j s = s'.finish .busNotReady := by
  simp [runJob, h]

/-! ### Sequences started with an empty latch, and the job around one -/

theorem runSeq_readSeq_start {s : State} {n : Nat} (a : Addr) (h : s.Answers 1) (hn : n ≠ 0) :
    runSeq (readSeq s.cfg a n) { s with buf := [] } =
      (.done, { s.exchanged (readFrame a n) with buf := s.payload (headerLength a) n }) := by
  have := runSeq_readSeq (s := { s with buf := [] }) a h hn
  rw [State.exchanged_setBuf] at this
  simpa [State.payload_congr (s := s) (t := { s with buf := [] }) (fun _ => rfl)] using this

theorem runSeq_writeSeq_start {s : State} {bs : List Byte} (a : Addr) (h : s.Answers 1) (hb : bs ≠ []) :
    runSeq (writeSeq s.cfg a bs) { s with buf := [] } =
      (.done, { s.exchanged (writeFrame a bs) with buf := [] }) := by
  have := runSeq_writeSeq (s := { s with buf := [] }) a h hb
  rwa [State.exchanged_setBuf] at this

theorem runSeq_strobeSeq_start {s : State} {v : Byte} (h : s.Answers 1) (hv : isStrobe v = true) :
    runSeq (strobeSeq s.cfg v) { s with buf := [] } = (.done, { s.exchanged [v] with buf := [] }) := by
  have := runSeq_strobeSeq (s := { s with buf := [] }) h hv
  rwa [State.exchanged_setBuf] at this

theorem runSeq_configureSeq_start {s : State} (es : List Setting) (h : s.Answers 1) :
    runSeq (configureSeq s.cfg es) { s with buf := [] } =
      (.done, { s.exchanged (es.flatMap fun e => writeFrame e.address [e.value]) with buf := [] }) := by
  have := runSeq_configureSeq (s := { s with buf := [] }) es h
  rwa [State.exchanged_setBuf] at this

theorem runSeq_statusSeq_strobe_start {s : State} {t : StatusType} (h : s.Answers 1)
    (ht : statusAddress s.cfg t = none) :
    runSeq (statusSeq s.cfg t) { s with buf := [] } =
      (.done, { s.exchanged [s.cfg.strobeSNOP] with buf := [s.byteAt 0] }) := by
  have := runSeq_statusSeq_strobe (s := { s with buf := [] }) h ht
  rw [State.exchanged_setBuf] at this
  exact this

/-- A job whose one transaction ends the operation. -/
theorem runJob_ends {fuel : Nat} {seq : List Micro} {k : After} {s t : State} {kept : List Byte} {r : Reply}
    (h : runSeq seq { s with buf := [] } = (.done, { t with buf := kept }))
    (hk : continueWith k { t with buf := kept } = .reply r) :
    runJob (fuel + 1) ⟨seq, k⟩ { s with buf := [] } = (writeBack k { t with buf := kept }).finish r :=
  runJob_reply h hk

/-- A job that goes on with another after its transaction: the next starts with an empty latch. -/
theorem runJob_continues {fuel : Nat} {seq : List Micro} {k : After} {j : Job} {s t : State}
    {kept : List Byte} (h : runSeq seq { s with buf := [] } = (.done, { t with buf := kept }))
    (hk : continueWith k { t with buf := kept } = .go j) :
    runJob (fuel + 1) ⟨seq, k⟩ { s with buf := [] } = runJob fuel j { t with buf := [] } :=
  runJob_go (s' := { t with buf := kept }) h hk

@[simp] theorem State.firstByte_mk (c : Params) (l : Life) (sh : Option Byte) (cs : CsLine) (r : RstLine)
    (on : Bool) (j : Option Job) (b : Byte) (bs : List Byte) (e : Env) (t : List Event) (rs : List Reply) :
    (State.mk c l sh cs r on j (b :: bs) e t rs).firstByte = b := rfl

@[simp] theorem State.finish_setBuf (s : State) (b : List Byte) (r : Reply) :
    ({ s with buf := b } : State).finish r = s.finish r := rfl

/-- What running a job for one transaction can do: hold, give up, end the operation, go on, or stay open. -/
theorem runJob_cases (fuel : Nat) (j : Job) (s : State) :
    (∃ rest s', runSeq j.seq s = (.held rest, s') ∧
      runJob (fuel + 1) j s = { s' with job := some ⟨rest, j.after⟩ }) ∨
    (∃ s', runSeq j.seq s = (.expired, s') ∧ runJob (fuel + 1) j s = s'.finish .busNotReady) ∨
    (∃ r s', runSeq j.seq s = (.done, s') ∧ continueWith j.after s' = .reply r ∧
      runJob (fuel + 1) j s = (writeBack j.after s').finish r) ∨
    (∃ j' s', runSeq j.seq s = (.done, s') ∧ continueWith j.after s' = .go j' ∧
      runJob (fuel + 1) j s = runJob fuel j' { s' with buf := [] }) ∨
    (∃ s', runSeq j.seq s = (.done, s') ∧ continueWith j.after s' = .leave ∧
      runJob (fuel + 1) j s = { s' with job := none }) := by
  rcases h : runSeq j.seq s with ⟨e, s'⟩
  cases e with
  | held rest => exact .inl ⟨rest, s', rfl, runJob_held h⟩
  | expired => exact .inr (.inl ⟨s', rfl, runJob_expired h⟩)
  | done =>
    refine .inr (.inr ?_)
    cases hk : continueWith j.after s' with
    | reply r => exact .inl ⟨r, s', rfl, hk, runJob_reply h hk⟩
    | go j' => exact .inr (.inl ⟨j', s', rfl, hk, runJob_go h hk⟩)
    | leave => exact .inr (.inr ⟨s', rfl, hk, by simp [runJob, h, hk]⟩)

/-- An operation that runs in transactions writes neither `cfg`, `rst` nor `bus_on`. -/
theorem runJob_frame (fuel : Nat) : ∀ (j : Job) (s : State),
    (runJob fuel j s).cfg = s.cfg ∧ (runJob fuel j s).rst = s.rst ∧ (runJob fuel j s).busOn = s.busOn := by
  induction fuel with
  | zero => intro j s; simp [runJob]
  | succ fuel ih =>
    intro j s
    obtain ⟨hc, -, -, hr, hb, -, -⟩ := runSeq_frame j.seq s
    obtain ⟨rest, s', h, hj⟩ | ⟨s', h, hj⟩ | ⟨r, s', h, -, hj⟩ | ⟨j', s', h, -, hj⟩ | ⟨s', h, -, hj⟩ :=
      runJob_cases fuel j s <;> rw [hj] <;> simp only [h] at hc hr hb
    · exact ⟨hc, hr, hb⟩
    · exact ⟨hc, hr, hb⟩
    · obtain ⟨wc, wr, wb, -⟩ := writeBack_frame j.after s'
      exact ⟨wc.trans hc, wr.trans hr, wb.trans hb⟩
    · obtain ⟨c, r, b⟩ := ih j' { s' with buf := [] }
      exact ⟨c.trans hc, r.trans hr, b.trans hb⟩
    · exact ⟨hc, hr, hb⟩

/-! ### The frame grammar -/

theorem Phase.after_append (p : Phase) (as bs : List Event) :
    p.after (as ++ bs) = (p.after as).bind fun q => q.after bs := by
  induction as generalizing p with
  | nil => rfl
  | cons e es ih => simp only [List.cons_append, Phase.after]; cases p.next e <;> simp [ih]

/-! ### Issuing -/

/-- Which addresses the model refuses (U2, U3). -/
theorem badAddress_iff {c : Params} {a : Addr} :
    badAddress c a = true ↔ highByte a ≠ 0x2F#8 ∧
      (lowByte a = 0x2F#8 ∨ (c.refuseWideAddress = true ∧ 0x3F#8 < lowByte a)) := by
  simp [badAddress, isExtended, extSelector]

theorem namesBadAddress_iff {c : Params} {i : Instr} :
    namesBadAddress c i = true ↔ ∃ a ∈ addresses c i, badAddress c a = true := by
  simp [namesBadAddress]

/-- An admitted operation runs its body. -/
theorem issue_admitted {i : Instr} {s : State} (h : s.Admits i) (body : State → Answer) :
    issue i s body = body s := by
  obtain ⟨he, hw, hl, hb⟩ := h
  simp [issue, he, hw, hl, hb]

/-- What issuing an operation can answer: it stops only while a transaction is open; else the host is given a
refusal and nothing else changes, or the body runs. -/
theorem issue_cases (i : Instr) (s : State) (body : State → Answer) :
    (s.engaged = true ∧ issue i s body = .refused .transactionOpen) ∨
    (s.engaged = false ∧ (∃ r, issue i s body = .next (s.answer (.refused r)))) ∨
    (s.Admits i ∧ issue i s body = body s) := by
  by_cases he : s.engaged = true
  · exact .inl ⟨he, by simp [issue, he]⟩
  · replace he : s.engaged = false := by simpa using he
    by_cases hw : i.wf = true
    · by_cases hl : s.life = .uninitialized
      · exact .inr (.inl ⟨he, .notInitialized, by simp [issue, he, hw, hl]⟩)
      · by_cases hb : namesBadAddress s.cfg i = true
        · exact .inr (.inl ⟨he, .badAddress, by simp [issue, he, hw, hl, hb]⟩)
        · have ha : s.Admits i := ⟨he, hw, hl, by simpa using hb⟩
          exact .inr (.inr ⟨ha, issue_admitted ha body⟩)
    · exact .inr (.inl ⟨he, .badDescriptor, by simp [issue, he, hw]⟩)

end Sys2Proof.Machine
end

