-- ==== Sys2Proof/Laws/Exec.lean ====
section
/-! SUPPORT. What a job and an instruction can do, said once: the continuations, the fields a job writes, the
growth of the trace, and `exec_ran`, the inversion of `exec`. -/

namespace Sys2Proof.Machine

/-- What goes on after a transaction is one of the bus accesses of the fixed sequences. -/
theorem continueWith_go {k : After} {s : State} {j : Job} (h : continueWith k s = .go j) :
    (∃ a b, j = ⟨writeSeq s.cfg a [b], .ack⟩ ∧ ∃ a bits, k = .merge a bits) ∨
    (∃ n, n ≠ 0 ∧ j = ⟨readSeq s.cfg fifoAddr n, .bytes⟩ ∧ k = .drain) ∨
    (j = ⟨strobeSeq s.cfg s.cfg.strobeSFRX, .rxFlushed⟩ ∧ k = .rxTest) ∨
    (∃ n, j = ⟨strobeSeq s.cfg s.cfg.strobeSFTX, .txFlushed n⟩ ∧
      ((k = .rxTest ∧ n = 0) ∨ (k = .rxFlushed ∧ n = 1) ∨ k = .txTest n)) ∨
    (∃ n, j = ⟨statusSeq s.cfg .marcState, .txTest n⟩ ∧
      ((k = .rxTest ∧ n = 0) ∨ (k = .rxFlushed ∧ n = 1))) := by
  cases k <;> simp only [continueWith, txDecide, marcSample, reduceCtorEq] at h
  case merge a bits => split at h <;> simp_all [eq_comm]
  case drain =>
    split at h
    · cases h
    next hn => cases h; exact .inr (.inl ⟨_, hn, rfl, rfl⟩)
  case rxTest =>
    split at h
    · cases h; exact .inr (.inr (.inl ⟨rfl, rfl⟩))
    · split at h
      · split at h <;> cases h; exact .inr (.inr (.inr (.inl ⟨0, rfl, .inl ⟨rfl, rfl⟩⟩)))
      · cases h; exact .inr (.inr (.inr (.inr ⟨0, rfl, .inl ⟨rfl, rfl⟩⟩)))
  case rxFlushed =>
    split at h
    · split at h <;> cases h
      exact .inr (.inr (.inr (.inl ⟨1, rfl, .inr (.inl ⟨rfl, rfl⟩)⟩)))
    · cases h; exact .inr (.inr (.inr (.inr ⟨1, rfl, .inr ⟨rfl, rfl⟩⟩)))
  case txTest n =>
    split at h <;> cases h
    exact .inr (.inr (.inr (.inl ⟨n, rfl, .inr (.inr rfl)⟩)))

/-! ### A job does not read `job` or `life` -/

theorem runSeq_setJob (x : Option Job) (ms : List Micro) : ∀ s : State,
    runSeq ms { s with job := x } = ((runSeq ms s).1, { (runSeq ms s).2 with job := x }) := by
  induction ms with
  | nil => intro s; rfl
  | cons m ms ih =>
    intro s
    cases m with
    | select => exact ih (s.driveCs .low)
    | send b => exact ih (s.xfer b)
    | recv b => exact ih ((s.xfer b).keep s.nextByte)
    | deselect => exact ih s.endTransaction
    | wait left =>
      have hw : ({ s with job := x } : State).waitTurn left =
          ((s.waitTurn left).1, { (s.waitTurn left).2 with job := x }) := by
        simp only [State.waitTurn]; split <;> rfl
      simp only [runSeq, hw]
      rcases h : s.waitTurn left with ⟨e, s'⟩
      cases e <;> simp
      · exact ih (s'.log .rdy)
      · rfl

theorem runSeq_setLife (x : Life) (ms : List Micro) : ∀ s : State,
    runSeq ms { s with life := x } = ((runSeq ms s).1, { (runSeq ms s).2 with life := x }) := by
  induction ms with
  | nil => intro s; rfl
  | cons m ms ih =>
    intro s
    cases m with
    | select => exact ih (s.driveCs .low)
    | send b => exact ih (s.xfer b)
    | recv b => exact ih ((s.xfer b).keep s.nextByte)
    | deselect => exact ih s.endTransaction
    | wait left =>
      have hw : ({ s with life := x } : State).waitTurn left =
          ((s.waitTurn left).1, { (s.waitTurn left).2 with life := x }) := by
        simp only [State.waitTurn]; split <;> rfl
      simp only [runSeq, hw]
      rcases h : s.waitTurn left with ⟨e, s'⟩
      cases e <;> simp
      · exact ih (s'.log .rdy)
      · rfl

theorem continueWith_setJob (x : Option Job) (k : After) (s : State) :
    continueWith k { s with job := x } = continueWith k s := by
  cases k <;> rfl

theorem continueWith_setLife (x : Life) (k : After) (s : State) :
    continueWith k { s with life := x } = continueWith k s := by
  cases k <;> rfl

theorem writeBack_setJob (x : Option Job) (k : After) (s : State) :
    writeBack k { s with job := x } = { writeBack k s with job := x } := by
  cases k <;> rfl

/-- What `job` held before a job runs plays no part. -/
theorem runJob_setJob (x : Option Job) (fuel : Nat) : ∀ (j : Job) (s : State),
    runJob fuel j { s with job := x } = runJob fuel j s := by
  induction fuel with
  | zero => intro j s; rfl
  | succ fuel ih =>
    intro j s
    have h1 := runSeq_setJob x j.seq s
    rcases h : runSeq j.seq s with ⟨e, s'⟩
    rw [h] at h1
    simp only [runJob, h, h1]
    cases e <;> simp only [continueWith_setJob]
    · cases hk : continueWith j.after s' with
      | reply r => simp only [writeBack_setJob]; rfl
      | go j' => exact ih j' { s' with buf := [] }
      | leave => rfl
    · rfl

/-- What `life` held before a job runs plays no part but in `life` afterwards. -/
theorem runJob_setLife (x : Life) (fuel : Nat) : ∀ (j : Job) (s : State),
    ∃ y, runJob fuel j { s with life := x } = { runJob fuel j s with life := y } := by
  induction fuel with
  | zero => intro j s; exact ⟨x, rfl⟩
  | succ fuel ih =>
    intro j s
    have h1 := runSeq_setLife x j.seq s
    rcases h : runSeq j.seq s with ⟨e, s'⟩
    rw [h] at h1
    simp only [runJob, h, h1]
    cases e <;> simp only [continueWith_setLife]
    · cases hk : continueWith j.after s' with
      | reply r =>
        cases hj : j.after
        case enter l => exact ⟨l, rfl⟩
        all_goals exact ⟨x, rfl⟩
      | go j' => exact ih j' { s' with buf := [] }
      | leave => exact ⟨x, rfl⟩
    · exact ⟨x, rfl⟩
    · exact ⟨x, rfl⟩

/-! ### A step at an operation in progress -/

/-- A step goes on with the operation in progress. -/
theorem step_job {s : State} {j : Job} (hc : configOk s.cfg = true) (hj : s.job = some j) :
    step s = .next (s.resume j) := by
  simp [step, hc, hj]

theorem step_job_next {s t : State} {j : Job} (hj : s.job = some j) (h : step s = .next t) :
    t = s.resume j := by
  by_cases hc : configOk s.cfg = true
  · rw [step_job hc hj] at h; cases h; rfl
  · simp [step, hc] at h

/-! ### What a job writes -/

/-- A job writes `life` only at its end, as its continuation `enter` says. -/
theorem runJob_life (fuel : Nat) : ∀ (j : Job) (s : State),
    (runJob fuel j s).life = s.life ∨
      ((runJob fuel j s).job = none ∧ j.after = .enter (runJob fuel j s).life) := by
  induction fuel with
  | zero => intro j s; exact .inl rfl
  | succ fuel ih =>
    intro j s
    obtain ⟨-, hl, -⟩ := runSeq_frame j.seq s
    obtain ⟨rest, s', h, hj⟩ | ⟨s', h, hj⟩ | ⟨r, s', h, -, hj⟩ | ⟨j', s', h, hk, hj⟩ | ⟨s', h, -, hj⟩ :=
      runJob_cases fuel j s <;> rw [hj] <;> simp only [h] at hl
    · exact .inl hl
    · exact .inl hl
    · cases hja : j.after
      case enter l => exact .inr ⟨rfl, rfl⟩
      all_goals exact .inl hl
    · obtain h1 | ⟨h1, h2⟩ := ih j' { s' with buf := [] }
      · exact .inl (h1.trans hl)
      · exfalso
        obtain ⟨_, _, rfl, _⟩ | ⟨_, _, rfl, _⟩ | ⟨rfl, _⟩ | ⟨_, rfl, _⟩ | ⟨_, rfl, _⟩ := continueWith_go hk <;>
          simp at h2
    · exact .inl hl

/-- Only the continuations of setAddress and getAddress write `shadow`. -/
theorem runJob_shadow (fuel : Nat) : ∀ (j : Job) (s : State),
    (∀ v, j.after ≠ .setShadow v) → j.after ≠ .adopt →
    (runJob fuel j s).shadow = s.shadow := by
  induction fuel with
  | zero => intro j s _ _; rfl
  | succ fuel ih =>
    intro j s h1 h2
    obtain ⟨-, -, hl, -⟩ := runSeq_frame j.seq s
    obtain ⟨rest, s', h, hj⟩ | ⟨s', h, hj⟩ | ⟨r, s', h, -, hj⟩ | ⟨j', s', h, hk, hj⟩ | ⟨s', h, -, hj⟩ :=
      runJob_cases fuel j s <;> rw [hj] <;> simp only [h] at hl
    · exact hl
    · exact hl
    · cases hja : j.after
      case setShadow => exact absurd hja (h1 _)
      case adopt => exact absurd hja h2
      all_goals exact hl
    · refine (ih j' { s' with buf := [] } ?_ ?_).trans hl <;>
        obtain ⟨_, _, rfl, _⟩ | ⟨_, _, rfl, _⟩ | ⟨rfl, _⟩ | ⟨_, rfl, _⟩ | ⟨_, rfl, _⟩ := continueWith_go hk <;>
        simp
    · exact hl

/-- A job writes `shadow` only at its end, as its continuation `setShadow` or `adopt` says. -/
theorem runJob_shadow_cases (fuel : Nat) (j : Job) (s : State) :
    (runJob fuel j s).shadow = s.shadow ∨ ((runJob fuel j s).job = none ∧
      ((∃ v, j.after = .setShadow v ∧ (runJob fuel j s).shadow = some v) ∨
        (j.after = .adopt ∧ ∃ v, (runJob fuel j s).shadow = some v))) := by
  by_cases h : (∀ v, j.after ≠ .setShadow v) ∧ j.after ≠ .adopt
  · exact .inl (runJob_shadow fuel j s h.1 h.2)
  cases fuel with
  | zero => exact .inl rfl
  | succ fuel =>
    obtain ⟨-, -, hl, -⟩ := runSeq_frame j.seq s
    have hgo : ∀ {j' s'}, continueWith j.after s' ≠ .go j' := fun hk => by
      obtain ⟨_, _, _, _, _, hj⟩ | ⟨_, _, _, hj⟩ | ⟨_, hj⟩ | ⟨_, _, ⟨hj, _⟩ | ⟨hj, _⟩ | hj⟩ |
        ⟨_, _, ⟨hj, _⟩ | ⟨hj, _⟩⟩ := continueWith_go hk <;> simp [hj] at h
    obtain ⟨rest, s', h1, hj⟩ | ⟨s', h1, hj⟩ | ⟨r, s', h1, -, hj⟩ | ⟨j', s', -, hk, -⟩ | ⟨s', h1, -, hj⟩ :=
      runJob_cases fuel j s
    · rw [hj]; simp only [h1] at hl; exact .inl hl
    · rw [hj]; simp only [h1] at hl; exact .inl hl
    · rw [hj]; simp only [h1] at hl
      cases hja : j.after
      case setShadow v => exact .inr ⟨rfl, .inl ⟨v, rfl, rfl⟩⟩
      case adopt => exact .inr ⟨rfl, .inr ⟨rfl, _, rfl⟩⟩
      all_goals exact .inl hl
    · exact absurd hk hgo
    · rw [hj]; simp only [h1] at hl; exact .inl hl

/-! ### The trace and the outcomes only grow -/

theorem runSeq_grows (ms : List Micro) : ∀ s : State, s.trace <+: (runSeq ms s).2.trace := by
  induction ms with
  | nil => intro s; exact List.prefix_refl _
  | cons m ms ih =>
    intro s
    have tr : ∀ {e} {t : State}, t.trace = s.trace ++ [e] → s.trace <+: (runSeq ms t).2.trace :=
      fun h => (h ▸ List.prefix_append _ _ : s.trace <+: _).trans (ih _)
    cases m with
    | select => exact tr (t := s.driveCs .low) rfl
    | send b => exact tr (t := s.xfer b) rfl
    | recv b => exact tr (t := (s.xfer b).keep s.nextByte) rfl
    | deselect => exact tr (t := s.endTransaction) rfl
    | wait left =>
      obtain ⟨-, hw⟩ | ⟨-, -, hw⟩ | ⟨-, -, hw | ⟨l, -, hw⟩⟩ := State.waitTurn_cases left s
      · simp only [runSeq, hw]; exact List.prefix_append _ _
      · simp only [runSeq, hw]; exact tr (t := s.levelSampled.log .rdy) rfl
      · simp only [runSeq, hw]; exact List.prefix_append _ _
      · simp only [runSeq, hw]; exact List.prefix_refl _

theorem writeBack_grows (k : After) (s : State) : s.trace <+: (writeBack k s).trace := by
  cases k <;> first | exact List.prefix_refl _ | exact List.prefix_append _ _

theorem runJob_grows (fuel : Nat) : ∀ (j : Job) (s : State),
    s.trace <+: (runJob fuel j s).trace ∧ s.replies <+: (runJob fuel j s).replies := by
  induction fuel with
  | zero => intro j s; exact ⟨List.prefix_refl _, List.prefix_refl _⟩
  | succ fuel ih =>
    intro j s
    obtain ⟨-, -, -, -, -, -, hr⟩ := runSeq_frame j.seq s
    have ht := runSeq_grows j.seq s
    obtain ⟨rest, s', h, hj⟩ | ⟨s', h, hj⟩ | ⟨r, s', h, -, hj⟩ | ⟨j', s', h, hk, hj⟩ | ⟨s', h, -, hj⟩ :=
      runJob_cases fuel j s <;> rw [hj] <;> simp only [h] at hr ht
    · exact ⟨ht, hr ▸ List.prefix_refl _⟩
    · exact ⟨ht, hr ▸ List.prefix_append _ _⟩
    · obtain ⟨-, -, -, -, -, hw⟩ := writeBack_frame j.after s'
      refine ⟨ht.trans (writeBack_grows _ _), ?_⟩
      rw [← hr, ← hw]
      exact List.prefix_append _ _
    · obtain ⟨a, b⟩ := ih j' { s' with buf := [] }
      exact ⟨ht.trans a, hr ▸ b⟩
    · exact ⟨ht, hr ▸ List.prefix_refl _⟩

/-! ### The first transaction of an operation -/

theorem isStrobe_of_configOk {c : Params} (h : configOk c = true) {v : Byte} (hv : v ∈ strobes c) :
    isStrobe v = true := by
  simp only [configOk, Bool.and_eq_true, List.all_eq_true] at h
  exact h.1.1 v hv

/-- An admitted operation that opens a transaction starts it, once its pad byte is drawn. -/
theorem exec_opens {i : Instr} {s : State} {xs : List Micro} {k : After} (hc : configOk s.cfg = true)
    (h : firstTransaction s.cfg s.nextPad i = some (xs, k)) (ha : s.Admits i) :
    exec i s = .next ((s.padded i).start (transaction s.cfg xs) k) := by
  have hs : ∀ {v}, v ∈ strobes s.cfg → strobeSeq s.cfg v = transaction s.cfg [.send v] := fun hv => by
    simp [strobeSeq, isStrobe_of_configOk hc hv]
  cases i <;> simp only [firstTransaction, reduceCtorEq] at h <;>
    simp only [exec, execReset, execWriteTxFifo, execGetAddress, execConfigure, execReadRegister,
      execWriteRegister, execUpdateRegister, execStrobe, execIdle, execPowerDown, execTransmitArm,
      execReceiveArm, execFlushRx, execFlushTx, execGetStatus, execReadRxFifo, execResolveFifoError,
      execSetAddress, issueSeq, issue_admitted ha, State.padded]
  case readRegister a n => split at h <;> simp_all [readSeq]
  case writeRegister a bs => split at h <;> simp_all [writeSeq]
  case strobe v => split at h <;> simp_all [strobeSeq]
  case getStatus t keepBits shiftLR => split at h <;> simp_all [statusSeq, readSeq]
  case reset hw =>
    split at h
    · cases h
    next hh => cases h; rw [if_neg hh, hs (by simp [strobes])]; rfl
  case writeTxFifo bs =>
    split at h
    · cases h
    next hh => cases h; rw [if_neg hh]; simp [writeSeq]
  case getAddress force => split at h <;> simp_all [readSeq]
  case updateRegister | readRxFifo => cases h; simp [readSeq]
  case resolveFifoError => cases h; simp [statusSeq, statusAddress, readSeq]
  case setAddress => cases h; simp [writeSeq]
  case configure => cases h; rfl
  all_goals cases h; rw [hs (by simp [strobes])]; rfl

/-- Starting a transaction is driving the select line low and running on from its ready wait. -/
theorem runJob_transaction (fuel : Nat) (xs : List Micro) (k : After) (s : State) :
    runJob (fuel + 1) ⟨transaction s.cfg xs, k⟩ { s with buf := [] } =
      runJob (fuel + 1) ⟨.wait s.cfg.readyTimeout :: (xs ++ [.deselect]), k⟩ (s.selectedAt xs k) :=
  (runJob_setJob _ _ ⟨transaction s.cfg xs, k⟩ { s with buf := [] }).symm

/-! ### How many transactions a job may still make -/

/-- The transactions an operation may still make once it stands in one that `k` follows, that one included
(rule R173). -/
def After.transactions (k : After) : Nat :=
  match k with
  | .rxTest => 4
  | .rxFlushed => 3
  | .txTest _ | .merge _ _ | .drain => 2
  | .ack | .bytes | .masked _ _ | .enter _ | .settle | .setShadow _ | .adopt | .txFlushed _ | .leaveOpen => 1

theorem After.transactions_le (k : After) : k.transactions ≤ maxTransactions := by
  cases k <;> simp [After.transactions, maxTransactions]

theorem continueWith_go_lt {k : After} {s : State} {j : Job} (h : continueWith k s = .go j) :
    j.after.transactions < k.transactions := by
  obtain ⟨_, _, rfl, _, _, rfl⟩ | ⟨_, _, rfl, rfl⟩ | ⟨rfl, rfl⟩ | ⟨_, rfl, ⟨rfl, _⟩ | ⟨rfl, _⟩ | rfl⟩ |
    ⟨_, rfl, ⟨rfl, _⟩ | ⟨rfl, _⟩⟩ := continueWith_go h <;> simp [After.transactions]

/-- Beyond the transactions a job may make, the fuel plays no part. -/
theorem runJob_fuel (f : Nat) : ∀ (g : Nat) (j : Job) (s : State), j.after.transactions ≤ f →
    j.after.transactions ≤ g → runJob f j s = runJob g j s := by
  have pos : ∀ k : After, k.transactions ≠ 0 := fun k => by cases k <;> simp [After.transactions]
  induction f with
  | zero => intro g j s h; exact absurd (by omega) (pos j.after)
  | succ f ih =>
    intro g j s hf hg
    match g, hg with
    | 0, hg => exact absurd (by omega) (pos j.after)
    | g + 1, hg =>
      obtain ⟨_, _, h, hj⟩ | ⟨_, h, hj⟩ | ⟨_, _, h, hk, hj⟩ | ⟨j', s', h, hk, hj⟩ | ⟨_, h, hk, hj⟩ :=
        runJob_cases f j s <;> rw [hj]
      · exact (runJob_held h).symm
      · exact (runJob_expired h).symm
      · exact (runJob_reply h hk).symm
      · have := continueWith_go_lt hk
        rw [ih g j' _ (by omega) (by omega)]
        exact (runJob_go h hk).symm
      · simp [runJob, h, hk]

/-! ### The inversion of `exec` -/

/-- Everything an instruction that answers a next state can have done. -/
inductive Ran (i : Instr) (s : State) : State → Prop where
  /-- An outcome given, nothing else changed. -/
  | answer (r : Reply) : Ran i s (s.answer r)
  | bringUp : i = .init → s.life = .uninitialized → Ran i s ((bringUp s).answer (.done .none))
  | tearDown : i = .shutdown → Ran i s ((tearDown s).answer (.done .none))
  | pulse : i = .reset true → Ran i s ({ hwResetPulse s with life := .ready }.answer (.done .none))
  /-- A job started, after a pad draw in writeTxFifo. -/
  | job (s0 : State) (seq : List Micro) (k : After) : (s0 = s ∨ s0 = s.padDrawn) →
      (∀ l, k = .enter l → lifeAfter i s.life = l) → (∀ v, k = .setShadow v → i = .setAddress v) →
      (k = .adopt → i = .getAddress true) → Ran i s (s0.start seq k)
  /-- Exchanges inside an open transaction. -/
  | wire (ms : List Micro) : Ran i s (runSeq ms s).2

theorem exec_ran {i : Instr} {s t : State} (h : exec i s = .next t) : Ran i s t := by
  have wire : ∀ {ms}, emit ms s = .next t → Ran i s t := by
    intro ms h
    simp only [emit] at h
    split at h
    · cases h; exact .wire _
    · cases h
  have iss : ∀ {i'} {body : State → Answer}, issue i' s body = .next t →
      (body s = .next t → Ran i s t) → Ran i s t := by
    intro i' body h hb
    obtain ⟨-, h1⟩ | ⟨-, r, h1⟩ | ⟨-, h1⟩ := issue_cases i' s body
    · rw [h1] at h; cases h
    · rw [h1] at h; cases h; exact .answer _
    · rw [h1] at h; exact hb h
  cases i <;> simp only [exec, execShutdown, execReset, execWriteTxFifo, execGetAddress, execConfigure,
    execReadRegister, execWriteRegister, execUpdateRegister, execStrobe, execIdle, execPowerDown,
    execTransmitArm, execReceiveArm, execFlushRx, execFlushTx, execGetStatus, execReadRxFifo,
    execResolveFifoError, execSetAddress, issueSeq] at h
  case init =>
    simp only [execInit] at h
    split at h
    · cases h
    · split at h
      · cases h; exact .bringUp rfl ‹_›
      · cases h; exact .answer _
  case shutdown => exact iss h fun h => by cases h; exact .tearDown rfl
  case reset hw =>
    refine iss h fun h => ?_
    split at h
    next hh => cases h; simp at hh; obtain ⟨rfl, -⟩ := hh; exact .pulse rfl
    next => cases h; exact .job s _ _ (.inl rfl) (by simp [lifeAfter]) (by simp) (by simp)
  case writeTxFifo bs =>
    refine iss h fun h => ?_
    split at h
    · cases h; exact .answer _
    · cases h; exact .job s.padDrawn _ _ (.inr rfl) (by simp) (by simp) (by simp)
  case getAddress force =>
    refine iss h fun h => ?_
    split at h
    next hh => cases h; exact .job s _ _ (.inl rfl) (by simp) (by simp) (by simp [hh])
    next => split at h <;> cases h; exact .answer _
  case configure | readRegister | writeRegister | updateRegister | strobe | idle | powerDown | transmitArm
    | receiveArm | flushRx | flushTx | getStatus | readRxFifo | resolveFifoError | setAddress =>
    exact iss h fun h => by cases h; exact .job s _ _ (.inl rfl) (by simp [lifeAfter]) (by simp) (by simp)
  all_goals exact wire h

end Sys2Proof.Machine
end

