-- ==== Sys2Proof/Laws/PerInstr.lean ====
section
/-! SUPPORT. The per-instruction family FirstByte: the first byte of an instruction's encoding is the one its row
of spec/opcode_table.json gives (match under mask). -/

namespace Sys2Proof.Laws.FirstByte

/-- The encoding begins with a byte that its row's mask and match admit. -/
def Statement (i : Instr) : Prop :=
  ∃ b rest, encode i = b :: rest ∧ b &&& (tableRow i).2 = (tableRow i).1

theorem init : Statement .init := ⟨_, _, rfl, rfl⟩

theorem shutdown : Statement .shutdown := ⟨_, _, rfl, rfl⟩

theorem reset (hardware : Bool) : Statement (.reset hardware) :=
  ⟨_, _, rfl, by simp [tableRow]⟩

theorem configure (settings : List Setting) : Statement (.configure settings) :=
  ⟨_, _, rfl, by simp [tableRow]⟩

theorem readRegister (address : Addr) (length : Nat) : Statement (.readRegister address length) :=
  ⟨_, _, rfl, by simp [tableRow]⟩

theorem writeRegister (address : Addr) (bytes : List Byte) : Statement (.writeRegister address bytes) :=
  ⟨_, _, rfl, by simp [tableRow]⟩

theorem updateRegister (address : Addr) (bits : Byte) : Statement (.updateRegister address bits) :=
  ⟨_, _, rfl, by simp [tableRow]⟩

theorem strobe (command : Byte) : Statement (.strobe command) :=
  ⟨_, _, rfl, by simp [tableRow]⟩

theorem idle : Statement .idle := ⟨_, _, rfl, rfl⟩

theorem powerDown : Statement .powerDown := ⟨_, _, rfl, rfl⟩

theorem transmitArm : Statement .transmitArm := ⟨_, _, rfl, rfl⟩

theorem receiveArm : Statement .receiveArm := ⟨_, _, rfl, rfl⟩

theorem flushRx : Statement .flushRx := ⟨_, _, rfl, rfl⟩

theorem flushTx : Statement .flushTx := ⟨_, _, rfl, rfl⟩

theorem getStatus (type : StatusType) (keepBits : Byte) (shiftLR : Int) : Statement (.getStatus type keepBits shiftLR) :=
  ⟨_, _, rfl, by simp [tableRow]⟩

theorem readRxFifo : Statement .readRxFifo := ⟨_, _, rfl, rfl⟩

theorem writeTxFifo (bytes : List Byte) : Statement (.writeTxFifo bytes) :=
  ⟨_, _, rfl, by simp [tableRow]⟩

theorem resolveFifoError : Statement .resolveFifoError := ⟨_, _, rfl, rfl⟩

theorem setAddress (addr : Byte) : Statement (.setAddress addr) :=
  ⟨_, _, rfl, by simp [tableRow]⟩

theorem getAddress (force : Bool) : Statement (.getAddress force) :=
  ⟨_, _, rfl, by simp [tableRow]⟩

theorem wireWriteSingleNormal (a : BitVec 6) : Statement (.wireWriteSingleNormal a) := ⟨_, _, rfl, by revert a; decide⟩

theorem wireWriteBurstNormal (a : BitVec 6) : Statement (.wireWriteBurstNormal a) := ⟨_, _, rfl, by revert a; decide⟩

theorem wireReadSingleNormal (a : BitVec 6) : Statement (.wireReadSingleNormal a) := ⟨_, _, rfl, by revert a; decide⟩

theorem wireReadBurstNormal (a : BitVec 6) : Statement (.wireReadBurstNormal a) := ⟨_, _, rfl, by revert a; decide⟩

theorem wireWriteSingleExtended (offset : Byte) : Statement (.wireWriteSingleExtended offset) :=
  ⟨_, _, rfl, by simp [tableRow, opWriteSingle, extSelector]⟩

theorem wireWriteBurstExtended (offset : Byte) : Statement (.wireWriteBurstExtended offset) :=
  ⟨_, _, rfl, by simp [tableRow, opWriteBurst, extSelector]⟩

theorem wireReadSingleExtended (offset : Byte) : Statement (.wireReadSingleExtended offset) :=
  ⟨_, _, rfl, by simp [tableRow, opReadSingle, extSelector]⟩

theorem wireReadBurstExtended (offset : Byte) : Statement (.wireReadBurstExtended offset) :=
  ⟨_, _, rfl, by simp [tableRow, opReadBurst, extSelector]⟩

theorem wireStrobe (c : BitVec 4) : Statement (.wireStrobe c) := ⟨_, _, rfl, by revert c; decide⟩

theorem wireFifoReadSingle : Statement .wireFifoReadSingle := ⟨_, _, rfl, rfl⟩

theorem wireFifoReadBurst : Statement .wireFifoReadBurst := ⟨_, _, rfl, rfl⟩

theorem wireFifoWriteBurst : Statement .wireFifoWriteBurst := ⟨_, _, rfl, rfl⟩

theorem wireFifoWriteSingle : Statement .wireFifoWriteSingle := ⟨_, _, rfl, rfl⟩

theorem wireDummy : Statement .wireDummy := ⟨_, _, rfl, rfl⟩

end Sys2Proof.Laws.FirstByte
end

