-- ==== Sys2Proof/Tests/Slice0.lean ====
section
/-! SUPPORT. Small tests: well-formedness, one written-out word per constructor, the spec's own vectors
(95_test_vectors.md, cited as V-..), and a witness for the hypotheses of every obligation. -/

namespace Sys2Proof.Tests

open Sys2Proof Sys2Proof.Machine

/-! ### Well-formedness: each check refuses an ill-formed term -/

theorem test_wf_configure_too_long {es : List Setting} (h : es.length = 65536) :
    (Instr.configure es).wf = false := by
  simp [Instr.wf, maxLength, h]

theorem test_wf_readRegister_too_long : (Instr.readRegister 0#16 65536).wf = false := by decide

theorem test_wf_writeRegister_too_long {bs : List Byte} (h : bs.length = 65536) :
    (Instr.writeRegister 0#16 bs).wf = false := by
  simp [Instr.wf, maxLength, h]

theorem test_wf_getStatus_shift_beyond_i8 :
    (Instr.getStatus .status 0xFF#8 128).wf = false ∧ (Instr.getStatus .status 0xFF#8 (-129)).wf = false := by
  decide

/-- V-F25. -/
theorem test_wf_writeTxFifo_too_long {bs : List Byte} (h : bs.length = 65535) :
    (Instr.writeTxFifo bs).wf = false := by
  simp [Instr.wf, maxLength, h]

theorem test_wf_wireStrobe_above_3D : (Instr.wireStrobe 14#4).wf = false := by decide

theorem test_wf_accepts_the_bounds :
    (Instr.readRegister 0#16 65535).wf = true ∧ (Instr.getStatus .status 0xFF#8 (-128)).wf = true ∧
    (Instr.wireStrobe 13#4).wf = true := by decide

/-! ### Decoding: the words are written out from the tables of rules R99 to R102 -/

theorem test_decode_lifecycle :
    decode [0x01#8] = .ok .init ∧ decode [0x02#8] = .ok .shutdown ∧
    decode [0x03#8, 0x01#8] = .ok (.reset true) ∧ decode [0x03#8, 0x00#8] = .ok (.reset false) := by decide

/-- V-D17. -/
theorem test_decode_configure :
    decode [0x04#8, 0x00#8, 0x02#8, 0x00#8, 0x0A#8, 0x12#8, 0x2F#8, 0x01#8, 0x34#8] =
      .ok (.configure [⟨0x000A#16, 0x12#8⟩, ⟨0x2F01#16, 0x34#8⟩]) := by decide

/-- V-R3, V-R10, V-R15. -/
theorem test_decode_registers :
    decode [0x10#8, 0x2F#8, 0x73#8, 0x00#8, 0x01#8] = .ok (.readRegister 0x2F73#16 1) ∧
    decode [0x11#8, 0x2F#8, 0x01#8, 0x00#8, 0x03#8, 0x01#8, 0x02#8, 0x03#8] =
      .ok (.writeRegister 0x2F01#16 [0x01#8, 0x02#8, 0x03#8]) ∧
    decode [0x12#8, 0x2F#8, 0x10#8, 0x80#8] = .ok (.updateRegister 0x2F10#16 0x80#8) := by decide

/-- The high byte of a count comes first (rule R101). -/
theorem test_decode_count_high_byte_first :
    decode [0x10#8, 0x00#8, 0x10#8, 0x01#8, 0x02#8] = .ok (.readRegister 0x0010#16 258) := by decide

theorem test_decode_strobes :
    decode [0x20#8, 0x36#8] = .ok (.strobe 0x36#8) ∧ decode [0x21#8] = .ok .idle ∧
    decode [0x22#8] = .ok .powerDown ∧ decode [0x23#8] = .ok .transmitArm ∧
    decode [0x24#8] = .ok .receiveArm ∧ decode [0x25#8] = .ok .flushRx ∧ decode [0x26#8] = .ok .flushTx := by
  decide

/-- V-G4, V-G11. -/
theorem test_decode_getStatus :
    decode [0x30#8, 0x01#8, 0x1F#8, 0x00#8] = .ok (.getStatus .marcState 0x1F#8 0) ∧
    decode [0x30#8, 0x00#8, 0xFF#8, 0xFC#8] = .ok (.getStatus .status 0xFF#8 (-4)) ∧
    decode [0x30#8, 0x02#8, 0xFF#8, 0x00#8] = .ok (.getStatusDefault .marcStatus0) ∧
    decode [0x30#8, 0x03#8, 0xFF#8, 0x00#8] = .ok (.getStatusDefault .marcStatus1) ∧
    decode [0x30#8, 0x04#8, 0x0F#8, 0x00#8] = .ok (.getStatusKeep .modemStatus0 0x0F#8) ∧
    decode [0x30#8, 0x05#8, 0xFF#8, 0x00#8] = .ok (.getStatusDefault .modemStatus1) := by decide

theorem test_decode_fifo :
    decode [0x40#8] = .ok .readRxFifo ∧
    decode [0x41#8, 0x00#8, 0x03#8, 0x02#8, 0x02#8, 0x01#8] = .ok (.writeTxFifo [0x02#8, 0x02#8, 0x01#8]) ∧
    decode [0x42#8] = .ok .resolveFifoError := by decide

theorem test_decode_address :
    decode [0x50#8, 0x5A#8] = .ok (.setAddress 0x5A#8) ∧ decode [0x51#8, 0x00#8] = .ok (.getAddress false) ∧
    decode [0x51#8, 0x01#8] = .ok (.getAddress true) := by decide

/-- V-X1 to V-X10. -/
theorem test_decode_malformed :
    decode [0x00#8] = .error (.unknownOperation 0x00#8) ∧ decode [0x05#8] = .error (.unknownOperation 0x05#8) ∧
    decode [0x27#8] = .error (.unknownOperation 0x27#8) ∧ decode [0x03#8, 0x02#8] = .error (.badBool 0x02#8) ∧
    decode [0x30#8, 0x06#8, 0xFF#8, 0x00#8] = .error (.badStatusType 0x06#8) ∧
    decode [0x10#8, 0x2F#8, 0x73#8, 0x00#8] = .error .truncated ∧
    decode [0x01#8, 0x00#8] = .error .trailingBytes ∧
    decode [0x11#8, 0x00#8, 0x10#8, 0x00#8, 0x03#8, 0x12#8, 0x34#8] = .error .truncated ∧
    decode [0x04#8, 0x00#8, 0x01#8, 0x00#8, 0x0A#8] = .error .truncated ∧
    decode [] = .error .emptyDescriptor := by decide

/-- The header bytes of V-H1, V-H3, V-H4, V-H2, V-H7, V-H8, V-H5, V-H6; rules R89, R90. -/
theorem test_decode_wire :
    decodeWire [0x90#8] = some (.wireReadSingleNormal 0x10#6) ∧
    decodeWire [0x10#8] = some (.wireWriteSingleNormal 0x10#6) ∧
    decodeWire [0x50#8] = some (.wireWriteBurstNormal 0x10#6) ∧
    decodeWire [0xD0#8] = some (.wireReadBurstNormal 0x10#6) ∧
    decodeWire [0x2F#8, 0x01#8] = some (.wireWriteSingleExtended 0x01#8) ∧
    decodeWire [0x6F#8, 0x01#8] = some (.wireWriteBurstExtended 0x01#8) ∧
    decodeWire [0xAF#8, 0x73#8] = some (.wireReadSingleExtended 0x73#8) ∧
    decodeWire [0xEF#8, 0x73#8] = some (.wireReadBurstExtended 0x73#8) ∧
    decodeWire [0x36#8] = some (.wireStrobe 6#4) ∧ decodeWire [0xBF#8] = some .wireFifoReadSingle ∧
    decodeWire [0xFF#8] = some .wireFifoReadBurst ∧ decodeWire [0x7F#8] = some .wireFifoWriteBurst ∧
    decodeWire [0x3F#8] = some .wireFifoWriteSingle := by decide

/-- The encoding side of the wire rows, the dummy byte (rule R87) among them. -/
theorem test_encode_wire :
    encode (.wireReadBurstNormal 0x3E#6) = [0xFE#8] ∧ encode (.wireWriteSingleNormal 0x36#6) = [0x36#8] ∧
    encode (.wireReadSingleExtended 0xFF#8) = [0xAF#8, 0xFF#8] ∧ encode (.wireStrobe 13#4) = [0x3D#8] ∧
    encode .wireDummy = [0xFF#8] := by decide

/-- Words of spec/opcode_table.json; operand bytes the table gives no bits are zero. -/
theorem test_table_words :
    decodeTableWord 8 0x04 = some (.configure []) ∧ decodeTableWord 8 0x10 = some (.readRegister 0#16 0) ∧
    decodeTableWord 8 0x30 = some (.getStatus .status 0#8 0) ∧ decodeTableWord 8 0xBF = some .wireFifoReadSingle ∧
    decodeTableWord 8 0x80 = some (.wireReadSingleNormal 0#6) ∧
    decodeTableWord 16 0x2F00 = some (.wireWriteSingleExtended 0#8) ∧
    decodeTableWord 16 0xEF73 = some (.wireReadBurstExtended 0x73#8) ∧ decodeTableWord 24 0 = none := by decide

/-- The examples of rule R105. -/
theorem test_text :
    (Instr.readRegister 0x2F73#16 1).text = "readRegister 0x2F73, 1".toList ∧
    (Instr.writeRegister 0x0010#16 [0x12#8, 0x34#8]).text = "writeRegister 0x0010, [0x12, 0x34]".toList ∧
    (Instr.configure [⟨0x000A#16, 0x12#8⟩, ⟨0x2F01#16, 0x34#8⟩]).text =
      "configure [(0x000A, 0x12), (0x2F01, 0x34)]".toList ∧
    (Instr.getStatus .marcState 0x1F#8 0).text = "getStatus MarcState, 0x1F, 0".toList ∧
    (Instr.reset true).text = "reset true".toList := by decide

/-! ### Addresses, headers, masks -/

/-- V-S1, V-H9 to V-H23. -/
theorem test_headers :
    hdr .read 0x002F#16 1 = [0xAF#8] ∧ hdr .read 0x2F00#16 1 = [0xAF#8, 0x00#8] ∧
    hdr .read 0x3000#16 1 = [0x80#8] ∧ hdr .read 0x2F2F#16 65535 = [0xEF#8, 0x2F#8] ∧
    hdr .write 0x003F#16 4 = [0x7F#8] ∧ hdr .write 0x0080#16 1 = [0x80#8] ∧ hdr .read 0x00FF#16 1 = [0xFF#8] ∧
    hdr .write 0x1240#16 1 = [0x40#8] ∧ hdr .read 0x003E#16 2 = [0xFE#8] := by decide

/-- V-H18 is refused, V-H19 to V-H21 where the model's parameter says so, V-H22 and V-H23 never. -/
theorem test_bad_addresses :
    badAddress testConfiguration 0x002F#16 = true ∧ badAddress testConfiguration 0x0080#16 = false ∧
    let c : Params := { testConfiguration with refuseWideAddress := true }
    [0x002F#16, 0x0080#16, 0x00FF#16, 0x1240#16].all (badAddress c) = true ∧
    [0x0036#16, 0x003F#16, 0x003E#16, 0x2FFF#16, 0x2F2F#16].any (badAddress c) = false := by decide

/-- V-M1 to V-M3, V-M6 to V-M9, V-M11 to V-M14. -/
theorem test_maskShift_ranges :
    maskShift 0xFF#8 0x1F#8 0 = 0x1F#8 ∧ maskShift 0xFF#8 0x1F#8 3 = 0x03#8 ∧
    maskShift 0x01#8 0xFF#8 (-4) = 0x10#8 ∧ maskShift 0xFF#8 0xFF#8 8 = 0x00#8 ∧
    maskShift 0xFF#8 0xFF#8 9 = 0xFF#8 ∧ maskShift 0xFF#8 0xFF#8 127 = 0xFF#8 ∧
    maskShift 0xFF#8 0xFF#8 (-1) = 0xFE#8 ∧ maskShift 0xFF#8 0xFF#8 (-8) = 0x00#8 ∧
    maskShift 0xFF#8 0xFF#8 (-9) = 0xFF#8 ∧ maskShift 0xFF#8 0xFF#8 (-128) = 0xFF#8 ∧
    maskShift 0x80#8 0x80#8 7 = 0x01#8 := by decide

/-- V-M16 to V-M18, V-M20 to V-M23. -/
theorem test_maskShift_fields :
    coarseState 0x5F#8 = 0x05#8 ∧ marcState 0x71#8 = 0x11#8 ∧ marc2Pin 0x71#8 = 0x03#8 ∧
    chipReady 0x7F#8 = 0x00#8 ∧ maskShift 0xC3#8 0xFF#8 (-2) = 0x0C#8 ∧ maskShift 0xC3#8 0x0F#8 (-4) = 0x30#8 ∧
    maskShift 0xF0#8 0x0F#8 0 = 0x00#8 ∧ maskShift 0xFF#8 0x1F#8 (-3) = 0xF8#8 := by decide

/-- V-C1 to V-C6, V-C9. -/
theorem test_strobe_range :
    isStrobe 0x2F#8 = false ∧ isStrobe 0x30#8 = true ∧ isStrobe 0x3D#8 = true ∧ isStrobe 0x3E#8 = false ∧
    isStrobe 0x00#8 = false ∧ isStrobe 0xFF#8 = false ∧ isStrobe 0x70#8 = false := by decide

/-! ### The vectors: one step each -/

/-- The state after `init` under the configuration `c`, the peer returning `bytes` and ready at each of the
first eight samples (95_test_vectors.md section 1). -/
def live (c : Params) (bytes : List Byte) : State :=
  { State.powerOn c with
    life := .ready, shadow := some 0x00#8, cs := .high, busOn := true
    rst := if c.hasResetLine then .high else .absent
    env := { Env.start with ready := List.replicate 8 c.readyActiveLevel, bytes := bytes } }

/-- The same with a peer that is not ready at any of the first eight samples. -/
def deaf (c : Params) : State :=
  { live c [] with env := { Env.start with ready := List.replicate 8 (if c.readyActiveLevel = .low then .high else .low) } }

abbrev tc1 : Params := testConfiguration

/-- What a test looks at: trace, outcomes, `life`, `shadow`. -/
def seen (a : Answer) : Option (List Event × List Reply × Life × Option Byte) :=
  match a with
  | .next t => some (t.trace, t.replies, t.life, t.shadow)
  | .fault _ => none
  | .refused _ => none

/-- V-D1. -/
theorem test_init_with_pulse :
    seen (exec .init State.reset) = some
      ([.pin .cs .out, .cs .high, .pin .ready .inp, .pin .rst .out, .rst .high, .bus true, .rst .low, .dly 10,
        .rst .high, .dly 10, .dly 100], [.done .none], .ready, some 0x00#8) := by decide

/-- V-D2. -/
theorem test_init_without_line :
    seen (exec .init (State.powerOn { tc1 with hasResetLine := false })) = some
      ([.pin .cs .out, .cs .high, .pin .ready .inp, .bus true, .dly 100], [.done .none], .ready,
        some 0x00#8) := by decide

/-- V-D24. -/
theorem test_shutdown :
    seen (exec .shutdown (live tc1 [])) = some
      ([.bus false, .pin .cs .released, .pin .ready .released, .pin .rst .released], [.done .none],
        .uninitialized, none) := by decide

/-- V-D8. -/
theorem test_reset_true :
    seen (exec (.reset true) { live tc1 [] with life := .idle }) = some
      ([.rst .low, .dly 10, .rst .high, .dly 10], [.done .none], .ready, some 0x00#8) := by decide

/-- V-D9. -/
theorem test_reset_true_falls_back :
    seen (exec (.reset true) (live { tc1 with hasResetLine := false } [0x0F#8])) = some
      ([.cs .low, .rdy, .x 0x30#8 0x0F#8, .cs .high], [.done .none], .ready, some 0x00#8) := by decide

/-- V-D20: the settle delay follows, the shadow stays. -/
theorem test_configure_leaves_the_shadow :
    seen (exec (.configure [⟨0x001E#16, 0x77#8⟩]) (live tc1 [1#8, 2#8])) = some
      ([.cs .low, .rdy, .x 0x1E#8 1#8, .x 0x77#8 2#8, .cs .high, .dly 10], [.done .none], .ready,
        some 0x00#8) := by decide

/-- V-D18. -/
theorem test_configure_empty :
    seen (exec (.configure []) (live tc1 [])) = some
      ([.cs .low, .rdy, .cs .high, .dly 10], [.done .none], .ready, some 0x00#8) := by decide

/-- V-R2. -/
theorem test_readRegister_burst :
    seen (exec (.readRegister 0x0010#16 3) (live tc1 [0xEE#8, 0x01#8, 0x02#8, 0x03#8])) = some
      ([.cs .low, .rdy, .x 0xD0#8 0xEE#8, .x 0xFF#8 0x01#8, .x 0xFF#8 0x02#8, .x 0xFF#8 0x03#8, .cs .high],
        [.done (.bytes [0x01#8, 0x02#8, 0x03#8])], .ready, some 0x00#8) := by decide

/-- V-R3: the answers to both header bytes are discarded. -/
theorem test_readRegister_extended :
    seen (exec (.readRegister 0x2F73#16 1) (live tc1 [0xEE#8, 0xDD#8, 0x41#8])) = some
      ([.cs .low, .rdy, .x 0xAF#8 0xEE#8, .x 0x73#8 0xDD#8, .x 0xFF#8 0x41#8, .cs .high],
        [.done (.bytes [0x41#8])], .ready, some 0x00#8) := by decide

/-- V-R7. -/
theorem test_writeRegister_burst :
    seen (exec (.writeRegister 0x0010#16 [0x12#8, 0x34#8]) (live tc1 [1#8, 2#8, 3#8])) = some
      ([.cs .low, .rdy, .x 0x50#8 1#8, .x 0x12#8 2#8, .x 0x34#8 3#8, .cs .high], [.done .none], .ready,
        some 0x00#8) := by decide

/-- V-R9. -/
theorem test_writeRegister_extended :
    seen (exec (.writeRegister 0x2F01#16 [0x34#8]) (live tc1 [1#8, 2#8, 3#8])) = some
      ([.cs .low, .rdy, .x 0x2F#8 1#8, .x 0x01#8 2#8, .x 0x34#8 3#8, .cs .high], [.done .none], .ready,
        some 0x00#8) := by decide

/-- V-R12. -/
theorem test_updateRegister_writes :
    seen (exec (.updateRegister 0x0008#16 0x01#8) (live tc1 [0#8, 0xA8#8, 0#8, 0#8])) = some
      ([.cs .low, .rdy, .x 0x88#8 0#8, .x 0xFF#8 0xA8#8, .cs .high, .cs .low, .rdy, .x 0x08#8 0#8,
        .x 0xA9#8 0#8, .cs .high], [.done .none], .ready, some 0x00#8) := by decide

/-- V-R13. -/
theorem test_updateRegister_no_change :
    seen (exec (.updateRegister 0x0008#16 0x01#8) (live tc1 [0#8, 0xA9#8])) = some
      ([.cs .low, .rdy, .x 0x88#8 0#8, .x 0xFF#8 0xA9#8, .cs .high], [.done .none], .ready,
        some 0x00#8) := by decide

/-- V-C7. -/
theorem test_strobe_discards_the_status :
    seen (exec (.strobe 0x36#8) (live tc1 [0x0F#8])) = some
      ([.cs .low, .rdy, .x 0x36#8 0x0F#8, .cs .high], [.done .none], .ready, some 0x00#8) := by decide

/-- V-C4. -/
theorem test_strobe_out_of_range :
    seen (exec (.strobe 0x3E#8) (live tc1 [])) = some ([], [.done .none], .ready, some 0x00#8) := by decide

/-- V-D10. -/
theorem test_idle :
    seen (exec .idle (live tc1 [0#8])) = some
      ([.cs .low, .rdy, .x 0x36#8 0#8, .cs .high], [.done .none], .idle, some 0x00#8) := by decide

/-- V-D11. -/
theorem test_powerDown :
    seen (exec .powerDown (live tc1 [0#8])) = some
      ([.cs .low, .rdy, .x 0x39#8 0#8, .cs .high], [.done .none], .poweredDown, some 0x00#8) := by decide

/-- V-D13. -/
theorem test_transmitArm :
    seen (exec .transmitArm { live tc1 [0#8] with life := .receiving }) = some
      ([.cs .low, .rdy, .x 0x35#8 0#8, .cs .high], [.done .none], .transmitting, some 0x00#8) := by decide

/-- V-D12. -/
theorem test_receiveArm :
    seen (exec .receiveArm (live tc1 [0#8])) = some
      ([.cs .low, .rdy, .x 0x34#8 0#8, .cs .high], [.done .none], .receiving, some 0x00#8) := by decide

/-- V-D14. -/
theorem test_flushRx :
    seen (exec .flushRx { live tc1 [0#8] with life := .receiving }) = some
      ([.cs .low, .rdy, .x 0x3A#8 0#8, .cs .high], [.done .none], .receiving, some 0x00#8) := by decide

/-- V-D15. -/
theorem test_flushTx :
    seen (exec .flushTx { live tc1 [0#8] with life := .receiving }) = some
      ([.cs .low, .rdy, .x 0x3B#8 0#8, .cs .high], [.done .none], .receiving, some 0x00#8) := by decide

/-- V-G2. -/
theorem test_getStatus_status :
    seen (exec (.getStatus .status 0x70#8 4) (live tc1 [0x1F#8])) = some
      ([.cs .low, .rdy, .x 0x3D#8 0x1F#8, .cs .high], [.done (.byte 0x01#8)], .ready, some 0x00#8) := by decide

/-- V-G5. -/
theorem test_getStatus_marcState :
    seen (exec (.getStatus .marcState 0x60#8 5) (live tc1 [0#8, 0#8, 0x71#8])) = some
      ([.cs .low, .rdy, .x 0xAF#8 0#8, .x 0x73#8 0#8, .x 0xFF#8 0x71#8, .cs .high], [.done (.byte 0x03#8)],
        .ready, some 0x00#8) := by decide

/-- V-F3. -/
theorem test_readRxFifo_burst :
    seen (exec .readRxFifo (live tc1 [0#8, 0#8, 0x03#8, 0#8, 0x03#8, 0x11#8, 0x22#8])) = some
      ([.cs .low, .rdy, .x 0xAF#8 0#8, .x 0xD7#8 0#8, .x 0xFF#8 0x03#8, .cs .high, .cs .low, .rdy,
        .x 0xFF#8 0#8, .x 0xFF#8 0x03#8, .x 0xFF#8 0x11#8, .x 0xFF#8 0x22#8, .cs .high],
        [.done (.bytes [0x03#8, 0x11#8, 0x22#8])], .ready, some 0x00#8) := by decide

/-- V-F2: one byte has the single-read header. -/
theorem test_readRxFifo_single :
    seen (exec .readRxFifo (live tc1 [0#8, 0#8, 0x01#8, 0#8, 0x7E#8])) = some
      ([.cs .low, .rdy, .x 0xAF#8 0#8, .x 0xD7#8 0#8, .x 0xFF#8 0x01#8, .cs .high, .cs .low, .rdy,
        .x 0xBF#8 0#8, .x 0xFF#8 0x7E#8, .cs .high], [.done (.bytes [0x7E#8])], .ready,
        some 0x00#8) := by decide

/-- V-F24, with the pad 0xC7. -/
theorem test_writeTxFifo_pads :
    seen (exec (.writeTxFifo [0x02#8, 0x02#8, 0x01#8])
      { live tc1 [] with env :=
        { Env.start with ready := [.low], bytes := List.replicate 5 0#8, pads := [0xC7#8] } }) = some
      ([.cs .low, .rdy, .x 0x7F#8 0#8, .x 0x02#8 0#8, .x 0x02#8 0#8, .x 0x01#8 0#8, .x 0xC7#8 0#8, .cs .high],
        [.done .none], .ready, some 0x00#8) := by decide

/-- V-F22. -/
theorem test_writeTxFifo_short :
    seen (exec (.writeTxFifo [0x02#8, 0x01#8]) (live tc1 [])) =
      some ([], [.done .none], .ready, some 0x00#8) := by decide

/-- V-F16: both flushes, bits 7:5 ignored. -/
theorem test_resolveFifoError_both :
    seen (exec .resolveFifoError (live tc1 [0#8, 0#8, 0x71#8, 0#8, 0#8, 0#8, 0xB6#8, 0#8])) = some
      ([.cs .low, .rdy, .x 0xAF#8 0#8, .x 0x73#8 0#8, .x 0xFF#8 0x71#8, .cs .high,
        .cs .low, .rdy, .x 0x3A#8 0#8, .cs .high,
        .cs .low, .rdy, .x 0xAF#8 0#8, .x 0x73#8 0#8, .x 0xFF#8 0xB6#8, .cs .high,
        .cs .low, .rdy, .x 0x3B#8 0#8, .cs .high], [.done (.count 2)], .ready, some 0x00#8) := by decide

/-- V-F11. -/
theorem test_resolveFifoError_single_sample :
    seen (exec .resolveFifoError (live { tc1 with resolveSingleSample := true } [0#8, 0#8, 0x16#8, 0#8])) = some
      ([.cs .low, .rdy, .x 0xAF#8 0#8, .x 0x73#8 0#8, .x 0xFF#8 0x16#8, .cs .high,
        .cs .low, .rdy, .x 0x3B#8 0#8, .cs .high], [.done (.count 1)], .ready, some 0x00#8) := by decide

/-- V-D21. -/
theorem test_setAddress :
    seen (exec (.setAddress 0x5A#8) (live tc1 [0#8, 0#8])) = some
      ([.cs .low, .rdy, .x 0x1E#8 0#8, .x 0x5A#8 0#8, .cs .high], [.done .none], .ready,
        some 0x5A#8) := by decide

/-- V-D22. -/
theorem test_getAddress_shadow :
    seen (exec (.getAddress false) { live tc1 [] with shadow := some 0x5A#8 }) =
      some ([], [.done (.byte 0x5A#8)], .ready, some 0x5A#8) := by decide

/-- V-D23. -/
theorem test_getAddress_force :
    seen (exec (.getAddress true) { live tc1 [0#8, 0x5B#8] with shadow := some 0x5A#8 }) = some
      ([.cs .low, .rdy, .x 0x9E#8 0#8, .x 0xFF#8 0x5B#8, .cs .high], [.done (.byte 0x5B#8)], .ready,
        some 0x5B#8) := by decide

/-- V-D4, V-D5, V-D6: refused outcomes change nothing else. -/
theorem test_refused_outcomes :
    exec .init (live tc1 []) = .next { live tc1 [] with replies := [.refused .alreadyInitialized] } ∧
    exec .idle State.reset = .next { State.reset with replies := [.refused .notInitialized] } ∧
    exec (.readRegister 0x0010#16 0) State.reset =
      .next { State.reset with replies := [.refused .notInitialized] } := ⟨rfl, rfl, rfl⟩

/-- U3: the refusal changes nothing else, and reaches an address that is a parameter. -/
theorem test_bad_address_refused :
    seen (exec (.readRegister 0x002F#16 1) (live tc1 [])) =
      some ([], [.refused .badAddress], .ready, some 0x00#8) ∧
    seen (exec (.setAddress 0x5A#8) (live { tc1 with addrDevAddr := 0x002F#16 } [])) =
      some ([], [.refused .badAddress], .ready, some 0x00#8) := ⟨by decide, by decide⟩

/-- V-B8: the second transaction holds, the write never happens. -/
theorem test_second_wait_holds :
    seen (exec (.updateRegister 0x0008#16 0x01#8)
      { live tc1 [0#8, 0xA8#8] with env :=
        { Env.start with ready := [.low, .high], bytes := [0#8, 0xA8#8] } }) = some
      ([.cs .low, .rdy, .x 0x88#8 0#8, .x 0xFF#8 0xA8#8, .cs .high, .cs .low], [], .ready,
        some 0x00#8) := by decide

/-- V-B3: the line is low and nothing else has happened. -/
theorem test_unready_holds :
    seen (exec .idle (deaf tc1)) = some ([.cs .low], [], .ready, some 0x00#8) := by decide

/-- V-B5. -/
theorem test_timeout_zero :
    seen (exec (.strobe 0x36#8) (deaf { tc1 with readyTimeout := some 0 })) =
      some ([.cs .low, .cs .high], [.busNotReady], .ready, some 0x00#8) := by decide

/-- V-B9: two samples, then the outcome. The shadow is as before. -/
theorem test_timeout_two :
    seen (match exec (.setAddress 0x5A#8) (deaf { tc1 with readyTimeout := some 2 }) with
      | .next t => step t
      | .fault f => .fault f
      | .refused r => .refused r) =
      some ([.cs .low, .cs .high], [.busNotReady], .ready, some 0x00#8) := by decide

/-- A transaction left open by the sequencer: the line low, nothing held. -/
def opened (bytes : List Byte) : State := { live tc1 bytes with cs := .low }

theorem test_wire_headers :
    seen (exec (.wireReadBurstNormal 0x10#6) (opened [0#8])) =
      some ([.x 0xD0#8 0#8], [], .ready, some 0x00#8) ∧
    seen (exec (.wireWriteSingleExtended 0x01#8) (opened [0#8, 1#8])) =
      some ([.x 0x2F#8 0#8, .x 0x01#8 1#8], [], .ready, some 0x00#8) ∧
    seen (exec (.wireStrobe 6#4) (opened [0#8])) = some ([.x 0x36#8 0#8], [], .ready, some 0x00#8) ∧
    seen (exec (.wireStrobe 14#4) (opened [0#8])) = some ([], [], .ready, some 0x00#8) :=
  ⟨by decide, by decide, by decide, by decide⟩

theorem test_wire_dummy_keeps_the_byte :
    exec .wireDummy (opened [0x5A#8]) = .next { opened [0x5A#8] with
      buf := [0x5A#8], trace := [.x 0xFF#8 0x5A#8]
      env := { (opened [0x5A#8]).env with bytes := [], draws := 1 } } := rfl

/-- A placed table word is what the very next step runs, a host operation and a wire pattern. -/
theorem test_withFetchWord :
    step (State.reset.withFetchWord 8 0x01) = exec .init State.reset ∧
    step ((live tc1 [0#8]).withFetchWord 8 0xBF) = exec .wireFifoReadSingle (opened [0#8]) :=
  ⟨rfl, rfl⟩

/-! ### Witnesses: the hypotheses of every obligation are met -/

theorem test_witness_round_trip :
    (Instr.readRegister 0xFFFF#16 65535).isWire = false ∧ (Instr.readRegister 0xFFFF#16 65535).wf = true ∧
    (Instr.getStatus .modemStatus1 0xFF#8 (-128)).isWire = false ∧
    (Instr.getStatus .modemStatus1 0xFF#8 (-128)).wf = true := by decide

theorem test_witness_decoded :
    decode [0x41#8, 0x00#8, 0x00#8] = .ok (.writeTxFifo []) := by decide

theorem test_witness_wire_names :
    (0x3E#6 ≠ 0x3F#6) ∧ (0x2F#6 < 0x30#6 ∨ 0x2F#6 = 0x3E#6) ∧ (0x3E#6 < 0x30#6 ∨ 0x3E#6 = 0x3E#6) ∧
    (Instr.wireStrobe 0#4).wf = true ∧ (Instr.wireStrobe 13#4).wf = true := by decide

theorem test_witness_normal_header :
    1 ≤ 65535 ∧ highByte 0x303F#16 ≠ 0x2F#8 ∧ lowByte 0x303F#16 ≤ 0x3F#8 := by decide

theorem test_witness_extended_header : 1 ≤ 1 ∧ highByte 0x2FFF#16 = 0x2F#8 := by decide

/-- Two Normal addresses, and 0x002F beside 0x302F (C1). -/
theorem test_witness_same_low_byte :
    highByte 0x0010#16 ≠ 0x2F#8 ∧ highByte 0x3010#16 ≠ 0x2F#8 ∧ lowByte 0x0010#16 = lowByte 0x3010#16 ∧
    highByte 0x002F#16 ≠ 0x2F#8 ∧ highByte 0x302F#16 ≠ 0x2F#8 ∧ lowByte 0x002F#16 = lowByte 0x302F#16 := by
  decide

/-- Each clause at the ends of its range; no amount falls under two clauses. -/
theorem test_witness_shift :
    ((8 : Int) = (8 : Nat) ∧ 1 ≤ 8 ∧ 8 ≤ 8) ∧ ((-8 : Int) = -((8 : Nat) : Int)) ∧
    ((0 : Int) = 0 ∨ (8 : Int) < 0 ∨ (0 : Int) < -8) ∧ ((9 : Int) = 0 ∨ (8 : Int) < 9 ∨ (9 : Int) < -8) ∧
    ((-9 : Int) = 0 ∨ (8 : Int) < -9 ∨ (-9 : Int) < -8) := by decide

theorem test_witness_status_addresses :
    configOk tc1 = true ∧ statusAddress tc1 .modemStatus1 = some 0x2F92#16 := by decide

/-- The state whose command port holds one descriptor. -/
def presented (s : State) (d : List Byte) : State := { s with env := { s.env with host := [d] } }

theorem test_witness_step_runs :
    configOk (presented (live tc1 []) [0x21#8]).cfg = true ∧ (presented (live tc1 []) [0x21#8]).job = none ∧
    (presented (live tc1 []) [0x21#8]).env.host = [0x21#8] :: [] ∧ decode [0x21#8] = .ok .idle := by decide

/-- V-X1: no operation is encoded as the byte 0x00. -/
theorem test_witness_undecodable :
    configOk (presented State.reset [0x00#8]).cfg = true ∧ (presented State.reset [0x00#8]).job = none ∧
    (presented State.reset [0x00#8]).env.host = [0x00#8] :: [] ∧
    ∀ i : Instr, i.isWire = false → i.wf = true → encode i ≠ [0x00#8] := by
  refine ⟨by decide, by decide, by decide, fun i hi _ => ?_⟩
  cases i <;> first | exact Bool.noConfusion hi | exact fun h => absurd (List.cons.inj h).1 (by decide)

theorem test_witness_waiting :
    configOk State.reset.cfg = true ∧ State.reset.job = none ∧ State.reset.env.host = [] := by decide

/-- A strobe and a status address outside their constraints. -/
theorem test_witness_bad_configuration :
    ((0x3E#8 : Byte) ∈ [({ tc1 with strobeSNOP := 0x3E#8 } : Params).strobeSNOP] ∧
      ((0x3E#8 : Byte) < 0x30#8 ∨ (0x3D#8 : Byte) < 0x3E#8)) ∧
    ((0x2E73#16 : Addr) ∈ [({ tc1 with addrMarcState := 0x2E73#16 } : Params).addrMarcState] ∧
      highByte 0x2E73#16 ≠ 0x2F#8) := by decide

theorem test_witness_wire_step :
    configOk (live tc1 []).cfg = true ∧ Instr.wireDummy.isWire = true ∧ Instr.wireDummy.wf = true := by decide

theorem test_witness_outside_lifetime :
    (Instr.readRegister 0#16 0).isWire = false ∧ Instr.readRegister 0#16 0 ≠ .init ∧
    (Instr.readRegister 0#16 0).wf = true ∧ State.reset.engaged = false ∧
    State.reset.life = .uninitialized := by decide

theorem test_witness_inside_lifetime :
    (live tc1 []).engaged = false ∧ (live tc1 []).life ≠ .uninitialized := by decide

theorem test_witness_equal_strobes :
    ¬ ([0x30#8, 0x34#8, 0x35#8, 0x36#8, 0x39#8, 0x3A#8, 0x3B#8, 0x30#8] : List Byte).Nodup ∧
    ({ tc1 with strobeSNOP := 0x30#8 } : Params).strobeSNOP = tc1.strobeSRES := by decide

/-- TC1 with the bad addresses 0x002F and 0x0040 where an operation takes an address from a parameter. -/
def badConfiguration : Params :=
  { tc1 with refuseWideAddress := true, addrDevAddr := 0x002F#16, addrNumRxBytes := 0x0040#16 }

/-- Every clause of the bad addresses: 0x2F with and without the parameter, 0x40 with it, and both as an
address the configuration gives. -/
theorem test_witness_bad_address :
    (live tc1 []).engaged = false ∧ (live tc1 []).life ≠ .uninitialized ∧
    highByte 0x002F#16 ≠ 0x2F#8 ∧ lowByte 0x002F#16 = 0x2F#8 ∧
    (live badConfiguration []).engaged = false ∧ (live badConfiguration []).life ≠ .uninitialized ∧
    highByte 0x0040#16 ≠ 0x2F#8 ∧ 0x3F#8 < lowByte 0x0040#16 ∧
    (live badConfiguration []).cfg.refuseWideAddress = true ∧
    (live badConfiguration []).cfg.addrDevAddr = 0x002F#16 ∧
    (live badConfiguration []).cfg.addrNumRxBytes = 0x0040#16 ∧
    [(0#8 : Byte)].length ≤ 65535 ∧ [(⟨0x0040#16, 0#8⟩ : Setting)].length ≤ 65535 ∧
    (⟨0x0040#16, 0#8⟩ : Setting) ∈ [(⟨0x0040#16, 0#8⟩ : Setting)] := by decide

/-- The addresses let through: Extended, 0x3F, and 0x40 without the parameter. -/
theorem test_witness_good_address :
    highByte 0x2F2F#16 = 0x2F#8 ∧ (lowByte 0x003F#16 ≠ 0x2F#8 ∧ lowByte 0x003F#16 ≤ 0x3F#8) ∧
    (lowByte 0x0040#16 ≠ 0x2F#8 ∧ (live tc1 []).cfg.refuseWideAddress = false) := by decide

theorem test_witness_inside_a_transaction :
    (opened []).cs = .low ∧ Instr.idle.isWire = false ∧ (live tc1 []).cs ≠ .low ∧
    Instr.wireFifoReadSingle.isWire = true := by decide

theorem test_witness_readRegister :
    (live tc1 []).Admits (.readRegister 0x003F#16 1) ∧ (live tc1 []).Admits (.readRegister 0x2F2F#16 65535) ∧
    (live tc1 []).Answers 1 := by decide

theorem test_witness_zero_length :
    (live tc1 []).buf = [] ∧ (live tc1 []).Admits (.readRegister 0x0010#16 0) ∧
    (live tc1 []).Admits (.writeRegister 0x0010#16 []) := by decide

theorem test_witness_writeRegister :
    (live tc1 []).Admits (.writeRegister 0x003F#16 [0#8]) ∧ (live tc1 []).Answers 1 ∧ [(0#8 : Byte)] ≠ [] := by
  decide

theorem test_witness_updateRegister :
    (live tc1 []).Admits (.updateRegister 0x0008#16 0x01#8) ∧ (live tc1 []).Answers 2 := by decide

theorem test_witness_strobe :
    (live tc1 []).Admits (.strobe 0x30#8) ∧ (live tc1 []).Admits (.strobe 0x3E#8) ∧ (live tc1 []).Answers 1 ∧
    (0x30#8 : Byte) ≤ 0x30#8 ∧ (0x30#8 : Byte) ≤ 0x3D#8 ∧ ((0x3E#8 : Byte) < 0x30#8 ∨ (0x3D#8 : Byte) < 0x3E#8) := by
  decide

theorem test_witness_semantic_strobes :
    configOk (live tc1 []).cfg = true ∧ (live tc1 []).engaged = false ∧ (live tc1 []).life ≠ .uninitialized ∧
    (live tc1 []).Answers 1 ∧ ((false : Bool) = false ∨ (live tc1 []).cfg.hasResetLine = false) := by decide

theorem test_witness_reset_without_line :
    (live { tc1 with hasResetLine := false } []).Answers 1 ∧
    ((true : Bool) = false ∨ (live { tc1 with hasResetLine := false } []).cfg.hasResetLine = false) := by decide

theorem test_witness_pulse :
    (live tc1 []).Admits (.reset true) ∧ (live tc1 []).cfg.hasResetLine = true := by decide

theorem test_witness_getStatus :
    (live tc1 []).Admits (.getStatus .status 0xFF#8 127) ∧
    (live tc1 []).Admits (.getStatus .marcState 0xFF#8 (-128)) ∧ (live tc1 []).Answers 1 := by decide

theorem test_witness_readRxFifo :
    (live tc1 []).Admits .readRxFifo ∧ (live tc1 []).Answers 2 := by decide

theorem test_witness_writeTxFifo :
    (live tc1 []).Admits (.writeTxFifo [1#8, 2#8]) ∧ [(1#8 : Byte), 2#8].length ≤ 2 ∧
    (live tc1 []).Admits (.writeTxFifo [1#8, 2#8, 3#8]) ∧ 3 ≤ [(1#8 : Byte), 2#8, 3#8].length ∧
    (live tc1 []).Answers 1 := by decide

theorem test_witness_resolveFifoError :
    configOk (live tc1 []).cfg = true ∧ (live tc1 []).Admits .resolveFifoError ∧
    (live tc1 []).cfg.resolveSingleSample = false ∧ (live tc1 []).Answers 4 ∧
    (live { tc1 with resolveSingleSample := true } []).Admits .resolveFifoError ∧
    (live { tc1 with resolveSingleSample := true } []).cfg.resolveSingleSample = true ∧
    (live { tc1 with resolveSingleSample := true } []).Answers 2 := by decide

theorem test_witness_address :
    (live tc1 []).Admits (.setAddress 0x5A#8) ∧ (live tc1 []).Admits (.getAddress false) ∧
    (live tc1 []).shadow = some 0x00#8 ∧ (live tc1 []).Admits (.getAddress true) ∧
    (live tc1 []).Answers 1 := by decide

theorem test_witness_init : State.reset.engaged = false ∧ State.reset.life = .uninitialized := by decide

theorem test_witness_shutdown : (live tc1 []).Admits .shutdown := by decide

theorem test_witness_configure :
    (live tc1 []).Admits (.configure [⟨0x000A#16, 0x12#8⟩, ⟨0x2F01#16, 0x34#8⟩]) ∧
    (live tc1 []).Answers 1 := by decide

theorem test_witness_wire :
    (opened []).cs = .low ∧ (opened []).busOn = true ∧ (opened []).job = none := by decide

/-- An instruction that answers a next state, for the statements about what it leaves unchanged. -/
theorem test_witness_next : ∃ t, exec .idle (live tc1 [0#8]) = .next t ∧ Instr.idle ≠ .init ∧
    Instr.idle ≠ .shutdown ∧ Instr.idle ≠ .reset true ∧ Instr.idle ≠ .getAddress true ∧
    ∀ v, Instr.idle ≠ .setAddress v :=
  ⟨_, rfl, by decide, by decide, by decide, by decide, fun v h => by cases h⟩

/-- A step that answers a next state. -/
theorem test_witness_step_next : ∃ t, step (presented (live tc1 [0#8]) [0x21#8]) = .next t := ⟨_, rfl⟩

theorem live_inv (bytes : List Byte) : (live tc1 bytes).Inv where
  rst_absent := ⟨fun h => (by cases h), fun h => (by cases h)⟩
  down := fun h => by cases h
  up := fun _ => ⟨rfl, rfl, fun _ => rfl, rfl⟩
  latch := rfl
  held := fun _ h => by cases h

/-- An operation held at its ready wait, the frame it stands in on the trace. -/
def held : State :=
  { deaf tc1 with
    cs := .low, job := some ⟨[.wait none, .send 0x36#8, .deselect], .enter .idle⟩
    trace := [.pin .cs .out, .cs .high, .cs .low] }

theorem held_inv : held.Inv where
  rst_absent := ⟨fun h => (by cases h), fun h => (by cases h)⟩
  down := fun h => by cases h
  up := fun _ => ⟨rfl, rfl, fun _ => rfl, rfl⟩
  latch := rfl
  held := fun j h => by
    cases h
    exact ⟨none, [.send 0x36#8], rfl, by decide, by decide, by simp [After.sound]⟩

/-- The invariant holds of an operation in progress, and a step from it answers a next state. -/
theorem test_witness_held_framed : held.Framed ∧ ∃ t, step held = .next t :=
  ⟨⟨held_inv, by decide⟩, _, rfl⟩

theorem test_witness_no_stop : configOk (live tc1 []).cfg = true ∧ (live tc1 []).Inv :=
  ⟨by decide, live_inv []⟩

theorem test_witness_ready_peer :
    Instr.resolveFifoError.isWire = false ∧ (live tc1 []).Inv ∧ (live tc1 []).job = none ∧
    (live tc1 []).Answers 4 := ⟨rfl, live_inv [], rfl, by decide⟩

/-- The operations that open a transaction, each with operands that do, at the bounds where there are any. -/
def transacting : List Instr :=
  [.readRegister 0x0010#16 1, .writeRegister 0x2F01#16 [0#8], .updateRegister 0x0008#16 1#8, .configure [],
    .strobe 0x30#8, .strobe 0x3D#8, .reset false, .idle, .powerDown, .transmitArm, .receiveArm, .flushRx, .flushTx,
    .getStatus .status 0xFF#8 0, .getStatus .modemStatus1 0xFF#8 0, .readRxFifo, .writeTxFifo [0#8, 0#8, 0#8],
    .resolveFifoError, .setAddress 0#8, .getAddress true]

/-- Each opens a transaction and is admitted, with no timeout and with the least that holds. -/
theorem test_witness_unready :
    (∀ i ∈ transacting, (firstTransaction tc1 0#8 i).isSome = true ∧ (deaf tc1).Admits i) ∧
    (firstTransaction { tc1 with hasResetLine := false } 0#8 (.reset true)).isSome = true ∧
    configOk (deaf tc1).cfg = true ∧ (deaf tc1).Unready 1 ∧
    (deaf tc1).cfg.readyTimeout ≠ some 0 ∧ (deaf tc1).cfg.readyTimeout ≠ some 1 ∧
    (deaf { tc1 with readyTimeout := some 2 }).Admits .idle ∧
    (deaf { tc1 with readyTimeout := some 2 }).Unready 1 := by decide

/-- An operation held at a bounded wait with its last sample left, which is ready; the peer returns `v`. -/
def waking (sent : List Byte) (n : Nat) (k : After) (v : Byte) : State :=
  { live tc1 (List.replicate sent.length 0#8 ++ [v]) with
    cs := .low
    job := some ⟨.wait (some 1) :: (sent.map .send ++ List.replicate n (.recv 0xFF#8) ++ [.deselect]), k⟩ }

theorem test_witness_waking (sent : List Byte) (n : Nat) (k : After) (v : Byte) :
    configOk (waking sent n k v).cfg = true ∧ (waking sent n k v).buf = [] ∧ (some 1 : Option Nat) ≠ some 0 ∧
    (waking sent n k v).levelAt 0 = (waking sent n k v).cfg.readyActiveLevel ∧
    (waking sent n k v).job = some
      ⟨.wait (some 1) :: (sent.map .send ++ List.replicate n (.recv 0xFF#8) ++ [.deselect]), k⟩ :=
  ⟨(by decide : configOk tc1 = true), rfl, by decide, rfl, rfl⟩

/-- What the clauses ask of the byte read and of the variant of resolveFifoError, each of them met: `byteAt` is
the byte `v` that `waking` was given. -/
theorem test_witness_waking_byte :
    (waking [0x9E#8] 1 .drain 0#8).byteAt 1 = 0#8 ∧ (waking [0x9E#8] 1 .drain 1#8).byteAt 1 ≠ 0#8 ∧
    (waking [0x88#8] 1 (.merge 8#16 1#8) 0xA9#8).byteAt 1 ||| 1#8 = 0xA9#8 ∧
    (waking [0x88#8] 1 (.merge 8#16 1#8) 0xA8#8).byteAt 1 ||| 1#8 ≠ 0xA8#8 ∧
    ((waking [0xAF#8, 0x73#8] 1 .rxTest 0x71#8).byteAt 2).extractLsb' 0 5 = 17#5 ∧
    ((waking [0xAF#8, 0x73#8] 1 .rxTest 0x16#8).byteAt 2).extractLsb' 0 5 = 22#5 ∧
    ((waking [0xAF#8, 0x73#8] 1 .rxTest 0x12#8).byteAt 2).extractLsb' 0 5 = 18#5 ∧
    tc1.resolveSingleSample = false ∧ configOk { tc1 with resolveSingleSample := true } = true := by decide

/-- The same with one sample for both tests. -/
theorem test_witness_waking_single (sent : List Byte) (n : Nat) (k : After) (v : Byte) :
    let s := { waking sent n k v with cfg := { tc1 with resolveSingleSample := true } }
    configOk s.cfg = true ∧ s.buf = [] ∧ s.levelAt 0 = s.cfg.readyActiveLevel ∧
    s.cfg.resolveSingleSample = true ∧ s.job = (waking sent n k v).job :=
  ⟨(by decide : configOk { tc1 with resolveSingleSample := true } = true), rfl, rfl, rfl, rfl⟩

theorem test_witness_hang :
    configOk held.cfg = true ∧
    held.job = some ⟨.wait none :: [.send 0x36#8, .deselect], .enter .idle⟩ ∧ held.Unready 8 := by decide

/-- A wait with one sample left and a wait with three. -/
theorem test_witness_bounded :
    configOk held.cfg = true ∧ held.Unready (2 + 1) ∧
    ({ held with job := some ⟨.wait (some (0 + 1)) :: [.deselect], .ack⟩ } : State).job =
      some ⟨.wait (some (0 + 1)) :: [.deselect], .ack⟩ ∧
    ({ held with job := some ⟨.wait (some (2 + 1)) :: [.deselect], .ack⟩ } : State).job =
      some ⟨.wait (some (2 + 1)) :: [.deselect], .ack⟩ := by decide

/-- Both clauses; writeTxFifo is the operation that also draws a pad. -/
theorem test_witness_short_timeout :
    let i := Instr.writeTxFifo [0#8, 0#8, 0#8]
    let c0 : Params := { tc1 with readyTimeout := some 0 }
    let c1 : Params := { tc1 with readyTimeout := some 1 }
    (firstTransaction c0 0#8 i).isSome = true ∧ configOk c0 = true ∧ (deaf c0).Admits i ∧
    (deaf c0).cfg.readyTimeout = some 0 ∧
    (firstTransaction c1 0#8 i).isSome = true ∧ configOk c1 = true ∧ (deaf c1).Admits i ∧
    (deaf c1).cfg.readyTimeout = some 1 ∧ (deaf c1).Unready 1 := by decide

/-- A bounded wait after two unready samples, with one left and with none to count. -/
theorem test_witness_counting :
    configOk held.cfg = true ∧ held.Unready 2 ∧
    ({ held with job := some ⟨.wait (some (2 + 0 + 1)) :: [.deselect], .ack⟩ } : State).job =
      some ⟨.wait (some (2 + 0 + 1)) :: [.deselect], .ack⟩ := by decide

/-- A held operation of each continuation that the frame statements name, and its step. -/
theorem test_witness_held_step :
    (held.job = some ⟨[.wait none, .send 0x36#8, .deselect], .enter .idle⟩ ∧ ∃ t, step held = .next t) ∧
    (∃ t, step (waking [0x1E#8, 0x5A#8] 0 (.setShadow 0x5A#8) 0#8) = .next t ∧ t.job = none ∧
      t.shadow = some 0x5A#8) ∧
    (∃ t, step (waking [0x9E#8] 1 .adopt 0x5B#8) = .next t ∧ t.job = none ∧ t.shadow = some 0x5B#8) :=
  ⟨⟨rfl, _, rfl⟩, ⟨_, rfl, rfl, rfl⟩, ⟨_, rfl, rfl, rfl⟩⟩

theorem test_witness_samples :
    ∃ t, exec .idle (deaf tc1) = .next t ∧ t.job ≠ none ∧ Instr.idle.isWire = false ∧
      configOk (deaf tc1).cfg = true ∧ (deaf tc1).cfg.readyTimeout = none ∧ (deaf tc1).Unready 1 :=
  ⟨_, rfl, by decide, by decide, by decide, by decide, by decide⟩

theorem test_witness_lifecycle_values :
    (live tc1 [0#8]).life ≠ .uninitialized ∧ Life.poweredDown ≠ .uninitialized ∧
    ∃ t, exec .idle (live tc1 [0#8]) = .next t := ⟨by decide, by decide, _, rfl⟩

theorem test_witness_round_trip_assumption :
    (live tc1 [0#8, 0#8, 0#8, 0x77#8]).Admits (.writeRegister 0x0010#16 [0x77#8]) ∧
    (live tc1 [0#8, 0#8, 0#8, 0x77#8]).Answers 2 ∧
    (live tc1 [0#8, 0#8, 0#8, 0x77#8]).RoundTrip 0x0010#16 0x77#8 := by decide

theorem test_witness_never_hangs :
    (live tc1 []).Inv ∧ (live tc1 []).job = none ∧ (live tc1 []).cfg.hasResetLine = true :=
  ⟨live_inv [], rfl, rfl⟩

end Sys2Proof.Tests
end

section
/-! SUPPORT. What an admissible configuration satisfies (rules R9, R10, U21), and the stop of a step in any other:
the statements of 00_scope.md. -/

namespace Sys2Proof.Machine

/-! ### What `configOk` says -/

theorem isStrobe_iff {v : Byte} : isStrobe v = true ↔ 0x30#8 ≤ v ∧ v ≤ 0x3D#8 := by
  simp [isStrobe]

theorem isExtended_iff {a : Addr} : isExtended a = true ↔ highByte a = 0x2F#8 := by
  simp [isExtended, extSelector]

theorem allDistinct_iff_nodup (l : List Byte) : allDistinct l = true ↔ l.Nodup := by
  induction l with
  | nil => simp [allDistinct]
  | cons b bs ih => simp [allDistinct, ih]

theorem configOk_iff {c : Params} :
    configOk c = true ↔
      (∀ v ∈ strobes c, isStrobe v = true) ∧ (∀ a ∈ statusAddresses c, isExtended a = true) ∧
        (strobes c).Nodup := by
  simp only [configOk, Bool.and_eq_true, List.all_eq_true, allDistinct_iff_nodup, and_assoc]

/-! ### The stop of a step -/

theorem step_of_not_configOk {s : State} (h : ¬ configOk s.cfg = true) :
    step s = .refused .badConfiguration := by
  simp [step, h]

/-- Settles O17: an admissible configuration bounds every strobe and puts every status address in Extended
space, so the hypothesis denies `configOk`. -/
theorem configurationOutsideItsConstraintsIsRefused :
    Obligations.ConfigurationOutsideItsConstraintsIsRefused := by
  intro s h
  refine step_of_not_configOk fun hc => ?_
  obtain ⟨hstrobe, haddr, -⟩ := configOk_iff.mp hc
  obtain ⟨v, hv, hout⟩ | ⟨a, ha, hhigh⟩ := h
  · obtain ⟨hmin, hmax⟩ := isStrobe_iff.mp (hstrobe v hv)
    exact hout.elim (BitVec.not_lt.mpr hmin) (BitVec.not_lt.mpr hmax)
  · exact hhigh (isExtended_iff.mp (haddr a ha))

/-- Settles O18: the strobes of an admissible configuration have no duplicates. -/
theorem equalStrobesAreRefused : Obligations.EqualStrobesAreRefused := by
  intro s h
  refine step_of_not_configOk fun hc => h ?_
  obtain ⟨-, -, hnodup⟩ := configOk_iff.mp hc
  exact hnodup

end Sys2Proof.Machine
end

section
/-! SUPPORT. Power-on, the registers an instruction and a step write, and the inertness of the initialized values
of `life`: the statements of 10_state.md. -/

namespace Sys2Proof.Machine

/-! ### Power-on (rule R43) -/

/-- Settles O12: each field as `State.powerOn` writes it out. -/
theorem powerOnState : Obligations.PowerOnState :=
  ⟨fun _ => ⟨rfl, rfl, rfl, rfl, rfl, rfl, rfl, rfl, rfl⟩, rfl⟩

/-- Power-on is outside the lifetime, so the half of the invariant on initialized states is not in play. -/
theorem State.powerOn_inv (c : Params) : (State.powerOn c).Inv := by
  obtain ⟨hlife, hshadow, hcs, hrst, hbus, hjob, hbuf, -, -⟩ := powerOnState.1 c
  refine ⟨?_, fun _ => ⟨hshadow, hcs, hbus, hjob, fun hline => ?_⟩, fun hup => absurd hlife hup, hbuf,
    fun j hj => ?_⟩
  · show (State.powerOn c).rst = .absent ↔ c.hasResetLine = false
    rw [hrst]
    cases c.hasResetLine <;> simp
  · rw [hrst]
    exact if_pos hline
  · rw [hjob] at hj
    cases hj

/-- The empty trace leaves the select line released, as the register `cs` says. -/
theorem State.powerOn_framed (c : Params) : (State.powerOn c).Framed :=
  ⟨State.powerOn_inv c, rfl⟩

/-- Settles O13: `State.reset` is the power-on state of one configuration. -/
theorem powerOnMeetsTheInvariant : Obligations.PowerOnMeetsTheInvariant :=
  ⟨State.powerOn_framed, State.powerOn_framed testConfiguration⟩

/-! ### What the lifecycle bodies leave alone -/

@[simp] theorem hwResetPulse_cfg (s : State) : (hwResetPulse s).cfg = s.cfg := rfl

@[simp] theorem hwResetPulse_shadow (s : State) : (hwResetPulse s).shadow = s.shadow := rfl

@[simp] theorem hwResetPulse_busOn (s : State) : (hwResetPulse s).busOn = s.busOn := rfl

@[simp] theorem pinSetup_cfg (s : State) : (pinSetup s).cfg = s.cfg := by
  simp only [pinSetup]; split <;> rfl

@[simp] theorem bringUp_cfg (s : State) : (bringUp s).cfg = s.cfg := by
  simp only [bringUp]; split <;> simp

@[simp] theorem tearDown_cfg (s : State) : (tearDown s).cfg = s.cfg := by
  simp only [tearDown]; split <;> rfl

/-! ### What an instruction leaves alone (rules R22, R24, R25, R45) -/

/-- The reset line and the byte-transfer unit are the lifecycle operations' alone, and the configuration is
nobody's. -/
theorem exec_frame {i : Instr} {s t : State} (h : exec i s = .next t) :
    t.cfg = s.cfg ∧ (i ≠ .init → i ≠ .shutdown → t.busOn = s.busOn) ∧
      (i ≠ .init → i ≠ .shutdown → i ≠ .reset true → t.rst = s.rst) := by
  cases exec_ran h with
  | answer r => exact ⟨rfl, fun _ _ => rfl, fun _ _ _ => rfl⟩
  | bringUp hi _ => exact ⟨bringUp_cfg s, fun hn => absurd hi hn, fun hn => absurd hi hn⟩
  | tearDown hi => exact ⟨tearDown_cfg s, fun _ hn => absurd hi hn, fun _ hn => absurd hi hn⟩
  | pulse hi => exact ⟨hwResetPulse_cfg s, fun _ _ => hwResetPulse_busOn s, fun _ _ hn => absurd hi hn⟩
  | job s0 seq k hs0 _ _ _ =>
    obtain ⟨hcfg, hrst, hbus⟩ := runJob_frame maxTransactions ⟨seq, k⟩ { s0 with buf := [] }
    obtain rfl | rfl := hs0 <;> exact ⟨hcfg, fun _ _ => hbus, fun _ _ _ => hrst⟩
  | wire ms =>
    obtain ⟨hcfg, -, -, hrst, hbus, -, -⟩ := runSeq_frame ms s
    exact ⟨hcfg, fun _ _ => hbus, fun _ _ _ => hrst⟩

/-- A job writes the shadow only by its continuation, and only setAddress and getAddress true start one that
does. -/
theorem exec_shadow {i : Instr} {s t : State} (hinit : i ≠ .init) (hshut : i ≠ .shutdown)
    (hset : ∀ v, i ≠ .setAddress v) (hget : i ≠ .getAddress true) (h : exec i s = .next t) :
    t.shadow = s.shadow := by
  cases exec_ran h with
  | answer r => rfl
  | bringUp hi _ => exact absurd hi hinit
  | tearDown hi => exact absurd hi hshut
  | pulse _ => exact hwResetPulse_shadow s
  | job s0 seq k hs0 _ hsetk hadopt =>
    have hjob : (s0.start seq k).shadow = s0.shadow :=
      runJob_shadow _ _ _ (fun v hk => hset v (hsetk v hk)) fun hk => hget (hadopt hk)
    obtain rfl | rfl := hs0 <;> exact hjob
  | wire ms =>
    obtain ⟨-, -, hshadow, -⟩ := runSeq_frame ms s
    exact hshadow

/-- Settles O44: the frame of `exec`, and of the job a held operation stands in. -/
theorem resetLineAndBusAreTheLifecyclesAlone : Obligations.ResetLineAndBusAreTheLifecyclesAlone := by
  refine ⟨fun i s t => exec_frame, fun s t j hj h => ?_⟩
  rw [step_job_next hj h]
  obtain ⟨hcfg, hrst, hbus⟩ := runJob_frame maxTransactions j s
  exact ⟨hcfg, hbus, hrst⟩

/-- Settles O43: the frame of `exec`, and the continuation of a held operation. -/
theorem shadowIsWrittenByFourOperationsOnly : Obligations.ShadowIsWrittenByFourOperationsOnly := by
  refine ⟨fun i s t => exec_shadow, fun s t j hj h => ?_⟩
  rw [step_job_next hj h]
  exact runJob_shadow_cases maxTransactions j s

/-! ### The inversion of `step` -/

/-- Everything a step that answers a next state can have done. -/
inductive Stepped (s : State) : State → Prop where
  /-- The operation in progress went on. -/
  | resume (j : Job) : s.job = some j → Stepped s (s.resume j)
  /-- No descriptor was there. -/
  | wait : s.job = none → s.env.host = [] → Stepped s s
  /-- The next descriptor was taken and its operation run. -/
  | run {t : State} (d : List Byte) (rest : List (List Byte)) (i : Instr) : s.job = none →
      s.env.host = d :: rest → decode d = .ok i → exec i (s.accepted rest) = .next t → Stepped s t
  /-- The next descriptor was taken and is no operation. -/
  | reject (d : List Byte) (rest : List (List Byte)) (e : DecodeError) : s.job = none →
      s.env.host = d :: rest → decode d = .error e → Stepped s (s.accepted rest).rejected

theorem step_stepped {s t : State} (h : step s = .next t) : Stepped s t := by
  cases hj : s.job with
  | some j => rw [step_job_next hj h]; exact .resume j hj
  | none =>
    simp only [step, hj] at h
    split at h
    · cases h
    split at h
    next hh => cases h; exact .wait hj hh
    next d rest hh =>
      split at h
      next i hd => exact .run d rest i hj hh hd h
      next e hd => cases h; exact .reject d rest e hj hh hd

/-- Settles O45: neither a job nor an instruction writes `cfg`. -/
theorem stepKeepsTheConfiguration : Obligations.StepKeepsTheConfiguration := by
  intro s t h
  cases step_stepped h with
  | resume j _ => exact (runJob_frame maxTransactions j s).1
  | wait _ _ => rfl
  | run d rest i _ _ _ hexec => exact (exec_frame hexec).1
  | reject d rest e _ _ _ => rfl

/-! ### The initialized values of `life` are inert (rule R21) -/

/-- Where the answer `a` is a next state, `b` is the same but for `life`. -/
def Answer.SameButLife (a b : Answer) : Prop :=
  ∀ t, a = .next t → ∃ l, b = .next { t with life := l }

theorem Answer.sameButLife_next {t u : State} {l : Life} (h : u = { t with life := l }) :
    Answer.SameButLife (.next t) (.next u) := by
  rintro _ ⟨⟩
  exact ⟨l, by rw [h]⟩

theorem Answer.sameButLife_refused (r : Refusal) (b : Answer) : Answer.SameButLife (.refused r) b :=
  fun _ h => nomatch h

theorem Answer.sameButLife_fault (r : Fault) (b : Answer) : Answer.SameButLife (.fault r) b :=
  fun _ h => nomatch h

theorem start_sameButLife (seq : List Micro) (k : After) (l : Life) (s : State) :
    Answer.SameButLife (.next (s.start seq k)) (.next (({ s with life := l } : State).start seq k)) := by
  obtain ⟨l', h⟩ := runJob_setLife l maxTransactions ⟨seq, k⟩ { s with buf := [] }
  exact Answer.sameButLife_next h

theorem emit_sameButLife (ms : List Micro) (l : Life) (s : State) :
    Answer.SameButLife (emit ms s) (emit ms { s with life := l }) := by
  simp only [emit, runSeq_setLife]
  split
  · exact Answer.sameButLife_next rfl
  · exact Answer.sameButLife_refused _ _

theorem State.engaged_setLife (l : Life) (s : State) : ({ s with life := l } : State).engaged = s.engaged := rfl

/-- The lifetime check is the only one that reads `life`, and it lets every initialized value through. -/
theorem issue_sameButLife {i : Instr} {l : Life} {s : State} {body : State → Answer}
    (hs : s.life ≠ .uninitialized) (hl : l ≠ .uninitialized)
    (hbody : Answer.SameButLife (body s) (body { s with life := l })) :
    Answer.SameButLife (issue i s body) (issue i { s with life := l } body) := by
  simp only [issue, if_neg hs, if_neg hl, State.engaged_setLife]
  split
  · exact Answer.sameButLife_refused _ _
  split
  · exact Answer.sameButLife_next rfl
  split
  · exact Answer.sameButLife_next rfl
  · exact hbody

theorem issueSeq_sameButLife {i : Instr} {l : Life} {s : State} {seq : List Micro} {k : After}
    (hs : s.life ≠ .uninitialized) (hl : l ≠ .uninitialized) :
    Answer.SameButLife (issueSeq i s seq k) (issueSeq i { s with life := l } seq k) :=
  issue_sameButLife hs hl (start_sameButLife seq k l s)

theorem tearDown_setLife (l : Life) (s : State) : tearDown { s with life := l } = tearDown s := by
  cases h : s.cfg.hasResetLine <;> simp [tearDown, h]

/-- The operations whose body is one sequence and the wire patterns go by their shared operation; the others
branch on what is no part of `life`. -/
theorem exec_sameButLife (i : Instr) {l : Life} {s : State} (hs : s.life ≠ .uninitialized)
    (hl : l ≠ .uninitialized) : Answer.SameButLife (exec i s) (exec i { s with life := l }) := by
  cases i with
  | init =>
    simp only [exec, execInit, if_neg hs, if_neg hl, State.engaged_setLife]
    split
    · exact Answer.sameButLife_refused _ _
    · exact Answer.sameButLife_next rfl
  | shutdown =>
    simp only [exec, execShutdown]
    refine issue_sameButLife hs hl ?_
    rw [tearDown_setLife l s]
    exact Answer.sameButLife_next rfl
  | reset hardware =>
    simp only [exec, execReset]
    refine issue_sameButLife hs hl ?_
    dsimp only
    split
    · exact Answer.sameButLife_next rfl
    · exact start_sameButLife _ _ l s
  | writeTxFifo bytes =>
    simp only [exec, execWriteTxFifo]
    refine issue_sameButLife hs hl ?_
    dsimp only
    split
    · exact Answer.sameButLife_next rfl
    · exact start_sameButLife _ _ l s.padDrawn
  | getAddress force =>
    simp only [exec, execGetAddress]
    refine issue_sameButLife hs hl ?_
    dsimp only
    split
    · exact start_sameButLife _ _ l s
    · split
      · exact Answer.sameButLife_next rfl
      · exact Answer.sameButLife_fault _ _
  | configure | readRegister | writeRegister | updateRegister | strobe | idle | powerDown | transmitArm
  | receiveArm | flushRx | flushTx | getStatus | readRxFifo | resolveFifoError | setAddress =>
    exact issueSeq_sameButLife hs hl
  | wireWriteSingleNormal | wireWriteBurstNormal | wireReadSingleNormal | wireReadBurstNormal
  | wireWriteSingleExtended | wireWriteBurstExtended | wireReadSingleExtended | wireReadBurstExtended
  | wireStrobe | wireFifoReadSingle | wireFifoReadBurst | wireFifoWriteBurst | wireFifoWriteSingle
  | wireDummy =>
    exact emit_sameButLife _ l s

/-- Settles O58: `life` is read by the lifetime check alone, which every initialized value passes. -/
theorem busActivityIsIndependentOfTheLifecycle : Obligations.BusActivityIsIndependentOfTheLifecycle :=
  fun i _ _ t hs hl => exec_sameButLife i hs hl t

end Sys2Proof.Machine
end

section
/-! SUPPORT. Address classes and the address check, the growth of the trace and of the outcomes over a step, and the
register accesses a peer ready at once completes: the statements of 20_memory.md. -/

namespace Sys2Proof.Machine

/-! ### The address check (rules R52, R182, R214) -/

theorem badAddress_eq_false_iff {c : Params} {a : Addr} :
    badAddress c a = false ↔ highByte a = 0x2F#8 ∨
      (lowByte a ≠ 0x2F#8 ∧ (lowByte a ≤ 0x3F#8 ∨ c.refuseWideAddress = false)) := by
  rw [← Bool.not_eq_true, badAddress_iff, ← BitVec.not_lt, ← Bool.not_eq_true]
  tauto

theorem issue_badAddress {i : Instr} {s : State} (he : s.engaged = false) (hw : i.wf = true)
    (hl : s.life ≠ .uninitialized) (hb : namesBadAddress s.cfg i = true) (body : State → Answer) :
    issue i s body = .next (s.answer (.refused .badAddress)) := by
  simp [issue, he, hw, hl, hb]

/-- Every operation of the command port but `init` is issued through the checks. -/
theorem exec_eq_issue {i : Instr} (hwire : i.isWire = false) (hinit : i ≠ .init) (s : State) :
    ∃ body, exec i s = issue i s body := by
  cases i with
  | init => exact absurd rfl hinit
  | wireWriteSingleNormal | wireWriteBurstNormal | wireReadSingleNormal | wireReadBurstNormal
  | wireWriteSingleExtended | wireWriteBurstExtended | wireReadSingleExtended | wireReadBurstExtended
  | wireStrobe | wireFifoReadSingle | wireFifoReadBurst | wireFifoWriteBurst | wireFifoWriteSingle
  | wireDummy =>
    cases hwire
  | shutdown | reset | configure | readRegister | writeRegister | updateRegister | strobe | idle | powerDown
  | transmitArm | receiveArm | flushRx | flushTx | getStatus | readRxFifo | writeTxFifo | resolveFifoError
  | setAddress | getAddress =>
    simp only [exec, execShutdown, execReset, execConfigure, execReadRegister, execWriteRegister,
      execUpdateRegister, execStrobe, execIdle, execPowerDown, execTransmitArm, execReceiveArm, execFlushRx,
      execFlushTx, execGetStatus, execReadRxFifo, execWriteTxFifo, execResolveFifoError, execSetAddress,
      execGetAddress, issueSeq]
    exact ⟨_, rfl⟩

theorem addresses_of_isWire {i : Instr} (c : Params) (h : i.isWire = true) : addresses c i = [] := by
  cases i with
  | wireWriteSingleNormal | wireWriteBurstNormal | wireReadSingleNormal | wireReadBurstNormal
  | wireWriteSingleExtended | wireWriteBurstExtended | wireReadSingleExtended | wireReadBurstExtended
  | wireStrobe | wireFifoReadSingle | wireFifoReadBurst | wireFifoWriteBurst | wireFifoWriteSingle
  | wireDummy =>
    rfl
  | _ => cases h

/-- What names a bad address is an operation of the command port and not `init`. -/
theorem exec_badAddress {i : Instr} {s : State} (he : s.engaged = false) (hw : i.wf = true)
    (hl : s.life ≠ .uninitialized) (hb : namesBadAddress s.cfg i = true) :
    exec i s = .next (s.answer (.refused .badAddress)) := by
  obtain ⟨a, ha, -⟩ := namesBadAddress_iff.mp hb
  have hwire : i.isWire = false := by
    by_contra h
    rw [addresses_of_isWire s.cfg (by simpa using h)] at ha
    cases ha
  have hinit : i ≠ .init := by
    rintro rfl
    cases ha
  obtain ⟨body, hbody⟩ := exec_eq_issue hwire hinit s
  rw [hbody, issue_badAddress he hw hl hb]

/-- Settles O22: a bad address among those an operation accesses refuses it, and a good one passes the check of
the operations that access it alone. -/
theorem badAddressesAreRefused : Obligations.BadAddressesAreRefused := by
  refine ⟨fun s a he hl hnormal hlow => ?_, fun s a he hl hgood => ?_⟩
  · have hbad : badAddress s.cfg a = true := badAddress_iff.mpr ⟨hnormal, hlow.imp_right And.symm⟩
    have refused : ∀ {i : Instr}, i.wf = true → a ∈ addresses s.cfg i →
        exec i s = .next (s.answer (.refused .badAddress)) := fun hw ha =>
      exec_badAddress he hw hl (namesBadAddress_iff.mpr ⟨a, ha, hbad⟩)
    exact ⟨fun n hn => refused (decide_eq_true hn) (by simp [addresses]),
      fun bs hbs => refused (decide_eq_true hbs) (by simp [addresses]),
      fun b => refused rfl (by simp [addresses]),
      fun es v hes hmem => refused (decide_eq_true hes) (List.mem_map_of_mem (f := Setting.address) hmem),
      fun hdev => ⟨fun v => refused rfl (by simp [addresses, hdev]), refused rfl (by simp [addresses, hdev])⟩,
      fun hnum => refused rfl (by simp [addresses, hnum])⟩
  · have hok : badAddress s.cfg a = false := badAddress_eq_false_iff.mpr hgood
    have admitted : ∀ {i : Instr}, i.wf = true → addresses s.cfg i = [a] → s.Admits i := fun hw ha =>
      ⟨he, hw, hl, by simp [namesBadAddress, ha, hok]⟩
    exact ⟨fun n hn => admitted (decide_eq_true hn) rfl, fun bs hbs => admitted (decide_eq_true hbs) rfl,
      fun b => admitted rfl rfl, fun v => admitted rfl rfl⟩

/-! ### Normal addresses with the same low byte (rules R51, R85, R86) -/

theorem hdr_eq (d : Dir) (a : Addr) (n : Nat) :
    hdr d a n = if highByte a = 0x2F#8 then [opcode d n ||| 0x2F#8, lowByte a]
      else [opcode d n ||| lowByte a] := by
  simp only [hdr, isExtended_iff, extSelector]

/-- Two Normal addresses with the same low byte: they name the same register of the peer (C1). -/
structure NormalTwins (a a' : Addr) : Prop where
  left_normal : highByte a ≠ 0x2F#8
  right_normal : highByte a' ≠ 0x2F#8
  low : lowByte a = lowByte a'

section Twins

variable {a a' : Addr} (h : NormalTwins a a')
include h

theorem NormalTwins.hdr_eq (d : Dir) (n : Nat) : hdr d a n = hdr d a' n := by
  rw [Machine.hdr_eq, Machine.hdr_eq, if_neg h.left_normal, if_neg h.right_normal, h.low]

theorem NormalTwins.badAddress_eq (c : Params) : badAddress c a = badAddress c a' := by
  rw [Bool.eq_iff_iff, badAddress_iff, badAddress_iff]
  simp only [ne_eq, h.left_normal, h.right_normal, h.low]

theorem NormalTwins.writeBody_eq (bs : List Byte) : writeBody a bs = writeBody a' bs := by
  simp only [writeBody, h.hdr_eq]

theorem NormalTwins.readSeq_eq (c : Params) (n : Nat) : readSeq c a n = readSeq c a' n := by
  simp only [readSeq, readBody, h.hdr_eq]

theorem NormalTwins.writeSeq_eq (c : Params) (bs : List Byte) : writeSeq c a bs = writeSeq c a' bs := by
  simp only [writeSeq, h.writeBody_eq]

theorem NormalTwins.configureSeq_eq (c : Params) (es fs : List Setting) (v : Byte) :
    configureSeq c (es ++ ⟨a, v⟩ :: fs) = configureSeq c (es ++ ⟨a', v⟩ :: fs) := by
  simp only [configureSeq, List.flatMap_append, List.flatMap_cons, h.writeBody_eq]

theorem NormalTwins.continueWith_merge_eq (bits : Byte) (s : State) :
    continueWith (.merge a bits) s = continueWith (.merge a' bits) s := by
  simp only [continueWith, h.writeSeq_eq]

end Twins

/-- Where the checks of two operations agree, what is seen of their answers agrees if it does of the answers of
their bodies. -/
theorem issue_congr {α : Type} (see : Answer → α) {i i' : Instr} {s : State} {body body' : State → Answer}
    (hw : i.wf = i'.wf) (hb : namesBadAddress s.cfg i = namesBadAddress s.cfg i')
    (hbody : see (body s) = see (body' s)) : see (issue i s body) = see (issue i' s body') := by
  simp only [issue, hw, hb]
  split_ifs <;> [rfl; rfl; rfl; rfl; exact hbody]

theorem issueSeq_congr {i i' : Instr} {s : State} {seq seq' : List Micro} (k : After) (hw : i.wf = i'.wf)
    (hb : namesBadAddress s.cfg i = namesBadAddress s.cfg i') (hseq : seq = seq') :
    issueSeq i s seq k = issueSeq i' s seq' k :=
  issue_congr id hw hb (by rw [hseq])

/-- The same state, but for the address that a held updateRegister is to write back to. -/
def State.SameButMergeAddress (a a' : Addr) (bits : Byte) (t u : State) : Prop :=
  t = u ∨ ∃ seq, t.job = some ⟨seq, .merge a bits⟩ ∧ u = { t with job := some ⟨seq, .merge a' bits⟩ }

/-- Only while the job is held does its address remain in the state: what follows the read is the same. -/
theorem NormalTwins.runJob_merge {a a' : Addr} (h : NormalTwins a a') (bits : Byte) (fuel : Nat)
    (seq : List Micro) (s : State) :
    State.SameButMergeAddress a a' bits (runJob fuel ⟨seq, .merge a bits⟩ s)
      (runJob fuel ⟨seq, .merge a' bits⟩ s) := by
  cases fuel with
  | zero => exact .inr ⟨seq, rfl, rfl⟩
  | succ fuel =>
    rcases hr : runSeq seq s with ⟨e, s'⟩
    cases e with
    | held rest =>
      rw [runJob_held hr, runJob_held hr]
      exact .inr ⟨rest, rfl, rfl⟩
    | expired => exact .inl ((runJob_expired hr).trans (runJob_expired hr).symm)
    | done =>
      left
      simp only [runJob, hr, h.continueWith_merge_eq]
      rfl

theorem observed_succ (k : Nat) (t : State) : observed (k + 1) (.next t) = observed k (step t) := by
  simp only [observed, run]
  cases step t <;> rfl

/-- The address a held updateRegister names shows neither at once nor after further steps. -/
theorem NormalTwins.observed_eq {a a' : Addr} (h : NormalTwins a a') {bits : Byte} (k : Nat) :
    ∀ {t u : State}, State.SameButMergeAddress a a' bits t u → observed k (.next t) = observed k (.next u) := by
  induction k with
  | zero =>
    rintro t u (rfl | ⟨seq, -, rfl⟩) <;> rfl
  | succ k ih =>
    rintro t u (rfl | ⟨seq, hjob, rfl⟩)
    · rfl
    rw [observed_succ, observed_succ]
    by_cases hc : configOk t.cfg = true
    · rw [step_job hc hjob, step_job (s := { t with job := some ⟨seq, .merge a' bits⟩ }) hc rfl]
      refine ih ?_
      simp only [State.resume, runJob_setJob]
      exact h.runJob_merge bits maxTransactions seq t
    · rw [step_of_not_configOk hc,
        step_of_not_configOk (s := { t with job := some ⟨seq, .merge a' bits⟩ }) hc]

/-- Settles O7: the address enters an operation through the header and the address check alone, and neither
reads the high byte of a Normal address. -/
theorem classIsTheHighByteAlone : Obligations.ClassIsTheHighByteAlone := by
  refine ⟨fun a => ⟨isExtended_iff, fun d n => hdr_eq d a n⟩, fun a a' hnormal hnormal' hlow => ?_⟩
  have h : NormalTwins a a' := ⟨hnormal, hnormal', hlow⟩
  refine ⟨h.hdr_eq, fun n s => ?_, fun bs s => ?_, fun es fs v s => ?_, fun bits s k => ?_⟩
  · exact issueSeq_congr _ rfl (by simp [namesBadAddress, addresses, h.badAddress_eq]) (h.readSeq_eq _ n)
  · exact issueSeq_congr _ rfl (by simp [namesBadAddress, addresses, h.badAddress_eq]) (h.writeSeq_eq _ bs)
  · exact issueSeq_congr _ (by simp [Instr.wf]) (by simp [namesBadAddress, addresses, h.badAddress_eq])
      (h.configureSeq_eq _ es fs v)
  · simp only [exec, execUpdateRegister, issueSeq]
    refine issue_congr (observed k) rfl ?_ ?_
    · simp [namesBadAddress, addresses, h.badAddress_eq]
    · refine h.observed_eq (bits := bits) k ?_
      rw [h.readSeq_eq]
      exact h.runJob_merge bits maxTransactions _ _

/-! ### The trace and the outcomes over a step (rules R44, R67) -/

theorem hwResetPulse_trace (s : State) : (hwResetPulse s).trace =
    s.trace ++ [.rst .low, .dly s.cfg.tRstLowMs, .rst .high, .dly s.cfg.tRstHighMs] := by
  simp [hwResetPulse]

theorem pinSetup_trace (s : State) : (pinSetup s).trace =
    s.trace ++ ([.pin .cs .out, .cs .high, .pin .ready .inp] ++
      if s.cfg.hasResetLine then [.pin .rst .out, .rst .high] else []) := by
  cases h : s.cfg.hasResetLine <;> simp [pinSetup, h]

@[simp] theorem hwResetPulse_replies (s : State) : (hwResetPulse s).replies = s.replies := rfl

@[simp] theorem pinSetup_replies (s : State) : (pinSetup s).replies = s.replies := by
  simp only [pinSetup]; split <;> rfl

theorem bringUp_trace_prefix (s : State) : s.trace <+: (bringUp s).trace := by
  simp only [bringUp]
  split <;> simp [hwResetPulse_trace, pinSetup_trace]

@[simp] theorem bringUp_replies (s : State) : (bringUp s).replies = s.replies := by
  simp only [bringUp]; split <;> simp

theorem tearDown_trace_prefix (s : State) : s.trace <+: (tearDown s).trace := by
  simp only [tearDown]
  split <;> simp

@[simp] theorem tearDown_replies (s : State) : (tearDown s).replies = s.replies := by
  simp only [tearDown]; split <;> rfl

/-- The trace and the outcomes of the one state go on in the other (rule R44). -/
def State.Grows (s t : State) : Prop := s.trace <+: t.trace ∧ s.replies <+: t.replies

theorem State.grows_answer {s t : State} (r : Reply) (htrace : s.trace <+: t.trace)
    (hreplies : t.replies = s.replies) : s.Grows (t.answer r) :=
  ⟨htrace, by rw [State.answer_replies, hreplies]; exact List.prefix_append _ _⟩

theorem exec_grows {i : Instr} {s t : State} (h : exec i s = .next t) : s.Grows t := by
  cases exec_ran h with
  | answer r => exact State.grows_answer r (List.prefix_refl _) rfl
  | bringUp _ _ => exact State.grows_answer _ (bringUp_trace_prefix s) (bringUp_replies s)
  | tearDown _ => exact State.grows_answer _ (tearDown_trace_prefix s) (tearDown_replies s)
  | pulse _ =>
    exact State.grows_answer _ (hwResetPulse_trace s ▸ List.prefix_append _ _) (hwResetPulse_replies s)
  | job s0 seq k hs0 _ _ _ =>
    have hjob := runJob_grows maxTransactions ⟨seq, k⟩ { s0 with buf := [] }
    obtain rfl | rfl := hs0 <;> exact hjob
  | wire ms =>
    obtain ⟨-, -, -, -, -, -, hreplies⟩ := runSeq_frame ms s
    exact ⟨runSeq_grows ms s, hreplies ▸ List.prefix_refl _⟩

theorem step_grows {s t : State} (h : step s = .next t) : s.Grows t := by
  cases step_stepped h with
  | resume j _ => exact runJob_grows maxTransactions j s
  | wait _ _ => exact ⟨List.prefix_refl _, List.prefix_refl _⟩
  | run d rest i _ _ _ hexec => exact (exec_grows hexec : (s.accepted rest).Grows t)
  | reject d rest e _ _ _ => exact State.grows_answer _ (List.prefix_refl _) rfl

/-- Settles O46: what a step can do only appends. -/
theorem traceAndRepliesOnlyGrow : Obligations.TraceAndRepliesOnlyGrow := by
  intro s t h
  obtain ⟨htrace, hreplies⟩ := step_grows h
  exact ⟨List.prefix_iff_exists_eq_append.mp htrace, List.prefix_iff_exists_eq_append.mp hreplies⟩

/-! ### Register accesses (rules R62, R121, R122) -/

theorem State.job_of_not_engaged {s : State} (h : s.engaged = false) : s.job = none := by
  simp only [State.engaged, Bool.or_eq_false_iff, Option.isSome_eq_false_iff, Option.isNone_iff_eq_none] at h
  exact h.1

/-- With nothing latched, ending an operation only gives its outcome. -/
theorem State.finish_eq_answer {s : State} (r : Reply) (hjob : s.job = none) (hbuf : s.buf = []) :
    s.finish r = s.answer r := by
  simp only [State.finish, State.answer, ← hjob, ← hbuf]

/-- A job without micro-operations whose continuation writes nothing back and ends the operation. -/
theorem State.start_nil {s : State} {k : After} {r : Reply} (hk : continueWith k { s with buf := [] } = .reply r)
    (hw : writeBack k { s with buf := [] } = { s with buf := [] }) : s.start [] k = s.finish r := by
  rw [State.start, maxTransactions, runJob_ends (t := s) (kept := []) rfl hk, hw, State.finish_setBuf]

/-- The same between operations, where nothing is latched. -/
theorem State.start_nil_answer {s : State} {k : After} {r : Reply} (he : s.engaged = false) (hbuf : s.buf = [])
    (hk : continueWith k { s with buf := [] } = .reply r)
    (hw : writeBack k { s with buf := [] } = { s with buf := [] }) : s.start [] k = s.answer r :=
  (State.start_nil hk hw).trans (State.finish_eq_answer r (State.job_of_not_engaged he) hbuf)

theorem exec_readRegister {s : State} {a : Addr} {n : Nat} (h : s.Admits (.readRegister a n)) :
    exec (.readRegister a n) s = .next (s.start (readSeq s.cfg a n) .bytes) := by
  rw [exec, execReadRegister, issueSeq, issue_admitted h]

theorem exec_writeRegister {s : State} {a : Addr} {bs : List Byte} (h : s.Admits (.writeRegister a bs)) :
    exec (.writeRegister a bs) s = .next (s.start (writeSeq s.cfg a bs) .ack) := by
  rw [exec, execWriteRegister, issueSeq, issue_admitted h]

/-- Settles O25: the sequences of the two accesses are empty. -/
theorem zeroLengthAccessDoesNothing : Obligations.ZeroLengthAccessDoesNothing := fun _ _ hbuf =>
  ⟨fun hr => (exec_readRegister hr).trans (congrArg _ (State.start_nil_answer hr.1 hbuf rfl rfl)),
    fun hw => (exec_writeRegister hw).trans (congrArg _ (State.start_nil_answer hw.1 hbuf rfl rfl))⟩

/-- A read with a peer ready at once is one transaction, whose payload is the result (rule R121). -/
theorem exec_readRegister_ready {s : State} {a : Addr} {n : Nat} (h : s.Admits (.readRegister a n))
    (hp : s.Answers 1) (hn : n ≠ 0) :
    exec (.readRegister a n) s =
      .next ((s.exchanged (readFrame a n)).finish (.done (.bytes (s.payload (headerLength a) n)))) :=
  (exec_readRegister h).trans (congrArg _ (runJob_ends (runSeq_readSeq_start a hp hn) rfl))

/-- A write with a peer ready at once is one transaction without a result (rule R122). -/
theorem exec_writeRegister_ready {s : State} {a : Addr} {bs : List Byte} (h : s.Admits (.writeRegister a bs))
    (hp : s.Answers 1) (hb : bs ≠ []) :
    exec (.writeRegister a bs) s = .next ((s.exchanged (writeFrame a bs)).finish (.done .none)) :=
  (exec_writeRegister h).trans (congrArg _ (runJob_ends (runSeq_writeSeq_start a hp hb) rfl))

@[simp] theorem writeFrame_length (a : Addr) (bs : List Byte) :
    (writeFrame a bs).length = headerLength a + bs.length := by
  simp [writeFrame]

@[simp] theorem State.finish_byteAt (r : Reply) (s : State) (k : Nat) : (s.finish r).byteAt k = s.byteAt k := rfl

/-- After a transaction that ended an operation the engine is between operations. -/
theorem State.finish_exchanged_engaged (sent : List Byte) (r : Reply) (s : State) :
    ((s.exchanged sent).finish r).engaged = false := by
  simp [State.engaged]

/-- Settles O60: the write leaves the engine ready for the read and has drawn the bytes before the read's, so the
premise speaks of the payload byte of the read. -/
theorem roundTripUnderThePeerAssumption : Obligations.RoundTripUnderThePeerAssumption := by
  intro s a v hadmits hanswers hpeer
  set t : State := (s.exchanged (writeFrame a [v])).finish (.done .none) with ht
  have hwrite : exec (.writeRegister a [v]) s = .next t :=
    exec_writeRegister_ready hadmits (State.answers_mono hanswers (by omega)) (by simp)
  obtain ⟨-, -, hlife, haddress⟩ := hadmits
  have hread : exec (.readRegister a 1) t = .next ((t.exchanged (readFrame a 1)).finish
      (.done (.bytes (t.payload (headerLength a) 1)))) :=
    exec_readRegister_ready ⟨State.finish_exchanged_engaged _ _ s, rfl, hlife, haddress⟩
      (State.answers_exchanged (writeFrame a [v]) hanswers) (by omega)
  have hpayload : t.payload (headerLength a) 1 = [v] := by
    have hbyte : t.byteAt (headerLength a) = s.byteAt (2 * headerLength a + 1) := by
      rw [ht, State.finish_byteAt, State.byteAt_exchanged, writeFrame_length, List.length_singleton]
      congr 1
      omega
    rw [State.payload_one, hbyte, hpeer]
  rw [hpayload] at hread
  exact ⟨t, _, hwrite, hread, by simp [ht]⟩

end Sys2Proof.Machine
end

section
/-! SUPPORT. The descriptors of the host operations, the header bytes of the wire patterns, and the fields of the
status bytes: the statements of 30_encoding.md. -/

namespace Sys2Proof

/-! ### Descriptors (rules R99 to R103) -/

theorem decode_eq_ok_iff {d : List Byte} {i : Instr} : decode d = .ok i ↔ decodePrefix d = .ok (i, []) := by
  simp only [decode]
  split <;> simp [*]

/-- The bytes `d` are the descriptor of the well-formed host operation `i` with `r` after it. -/
structure BeginsWith (d : List Byte) (i : Instr) (r : List Byte) : Prop where
  bytes : d = encode i ++ r
  wf : i.wf = true
  host : i.isWire = false

/-- Each operation number selects its row of the table of rule R99, whose operands are read back in order. -/
theorem decodePrefix_encode {i : Instr} (hw : i.isWire = false) (hwf : i.wf = true) (r : List Byte) :
    decodePrefix (encode i ++ r) = .ok (i, r) := by
  cases i with
  | init | shutdown | idle | powerDown | transmitArm | receiveArm | flushRx | flushTx | readRxFifo
  | resolveFifoError => rfl
  | reset | updateRegister | strobe | setAddress | getAddress =>
    simp [encode, decodePrefix, takeOperands, Parsed.carry, Parsed.andThen]
  | configure es =>
    simp [encode, decodePrefix, takeOperands, Parsed.carry, takeSettings_encode (of_decide_eq_true hwf)]
  | readRegister a n =>
    obtain ⟨hcount, hn⟩ := takeU16_count (of_decide_eq_true hwf) r
    simp [encode, decodePrefix, takeOperands, Parsed.carry, Parsed.andThen, hcount, hn]
  | writeRegister a bs =>
    simp [encode, decodePrefix, takeOperands, Parsed.carry, Parsed.andThen,
      takeBytes_encode (of_decide_eq_true hwf)]
  | getStatus t keepBits shiftLR =>
    simp [encode, decodePrefix, takeOperands, Parsed.carry, Parsed.andThen,
      takeI8_encode (of_decide_eq_true hwf)]
  | writeTxFifo bs =>
    have hlen : bs.length + 1 ≤ maxLength := of_decide_eq_true hwf
    simp [encode, decodePrefix, takeOperands, Parsed.andThen, takeBytes_encode (Nat.le_of_succ_le hlen), hlen]
  | wireWriteSingleNormal | wireWriteBurstNormal | wireReadSingleNormal | wireReadBurstNormal
  | wireWriteSingleExtended | wireWriteBurstExtended | wireReadSingleExtended | wireReadBurstExtended
  | wireStrobe | wireFifoReadSingle | wireFifoReadBurst | wireFifoWriteBurst | wireFifoWriteSingle
  | wireDummy => cases hw

/-- What `p` answers, if it is an operation and the bytes after it, is what the bytes `d` hold. -/
def Parsed.Reads (d : List Byte) (p : Parsed Instr) : Prop :=
  ∀ i r, p = .ok (i, r) → BeginsWith d i r

theorem Parsed.Reads.error (d : List Byte) (e : DecodeError) : Parsed.Reads d (.error e) :=
  fun _ _ h => nomatch h

theorem Parsed.Reads.ok {d r : List Byte} {i : Instr} (h : BeginsWith d i r) : Parsed.Reads d (.ok (i, r)) := by
  rintro _ _ ⟨⟩
  exact h

theorem Parsed.Reads.carry {α : Type} {d : List Byte} {p : Parsed α} {f : α → Instr}
    (h : ∀ a r, p = .ok (a, r) → BeginsWith d (f a) r) : Parsed.Reads d (p.carry f) := by
  intro i r hi
  obtain ⟨a, ha, rfl⟩ := carry_inv hi
  exact h a r ha

theorem Parsed.Reads.andThen {α : Type} {d : List Byte} {p : Parsed α} {f : α → List Byte → Parsed Instr}
    (h : ∀ a r, p = .ok (a, r) → Parsed.Reads d (f a r)) : Parsed.Reads d (p.andThen f) := by
  intro i r hi
  obtain ⟨a, r', ha, hi⟩ := andThen_inv hi
  exact h a r' ha i r hi

/-- One row of a table of operation numbers. -/
theorem Parsed.Reads.row {op n : Byte} {bs : List Byte} {p q : Parsed Instr}
    (hp : Parsed.Reads (n :: bs) p) (hq : Parsed.Reads (op :: bs) q) :
    Parsed.Reads (op :: bs) (if op = n then p else q) := by
  split
  next hop => exact hop ▸ hp
  next => exact hq

/-- Row by row of the table of rule R99. -/
theorem takeOperands_reads (op : Byte) (bs : List Byte) : Parsed.Reads (op :: bs) (takeOperands op bs) := by
  unfold takeOperands
  refine .row ?init (.row ?shutdown (.row ?reset (.row ?configure
    (.row ?readRegister (.row ?writeRegister (.row ?updateRegister (.row ?strobe
    (.row ?idle (.row ?powerDown (.row ?transmitArm (.row ?receiveArm
    (.row ?flushRx (.row ?flushTx (.row ?getStatus (.row ?readRxFifo
    (.row ?writeTxFifo (.row ?resolveFifoError (.row ?setAddress
    (.row ?getAddress (.error _ _))))))))))))))))))))
  case init | shutdown | idle | powerDown | transmitArm | receiveArm | flushRx | flushTx | readRxFifo
    | resolveFifoError => exact .ok ⟨rfl, rfl, rfl⟩
  case reset | getAddress => exact .carry fun b r hb => ⟨by rw [takeBool_inv hb]; rfl, rfl, rfl⟩
  case strobe | setAddress => exact .carry fun v r hv => ⟨by rw [takeU8_inv hv]; rfl, rfl, rfl⟩
  case configure =>
    refine .carry fun es r hes => ?_
    obtain ⟨hbytes, hlen⟩ := takeSettings_inv hes
    exact ⟨by simp [hbytes, encode], decide_eq_true hlen, rfl⟩
  case readRegister =>
    refine .andThen fun a r' ha => .carry fun n r hn => ?_
    exact ⟨by simp [takeU16_inv ha, takeU16_inv hn, encode, encodeCount_toNat],
      decide_eq_true (Nat.le_of_lt_succ n.isLt), rfl⟩
  case writeRegister =>
    refine .andThen fun a r' ha => .carry fun bytes r hb => ?_
    obtain ⟨hbytes, hlen⟩ := takeBytes_inv hb
    exact ⟨by simp [takeU16_inv ha, hbytes, encode], decide_eq_true hlen, rfl⟩
  case updateRegister =>
    refine .andThen fun a r' ha => .carry fun bits r hb => ?_
    exact ⟨by simp [takeU16_inv ha, takeU8_inv hb, encode], rfl, rfl⟩
  case getStatus =>
    refine .andThen fun t r'' ht => .andThen fun k r' hk => .carry fun x r hx => ?_
    obtain ⟨hbyte, hrange⟩ := takeI8_inv hx
    exact ⟨by simp [takeStatus_inv ht, takeU8_inv hk, hbyte, encode], decide_eq_true hrange, rfl⟩
  case writeTxFifo =>
    refine .andThen fun bytes r hb => ?_
    obtain ⟨hbytes, -⟩ := takeBytes_inv hb
    split
    next hlen => exact .ok ⟨by simp [hbytes, encode], decide_eq_true hlen, rfl⟩
    next => exact .error _ _

theorem decodePrefix_inv {d r : List Byte} {i : Instr} (h : decodePrefix d = .ok (i, r)) : BeginsWith d i r := by
  cases d with
  | nil => cases h
  | cons op bs => exact takeOperands_reads op bs i r h

/-- Decoding a descriptor and encoding a well-formed host operation are inverse to each other. -/
theorem decode_eq_ok_iff_encode {d : List Byte} {i : Instr} :
    decode d = .ok i ↔ encode i = d ∧ i.wf = true ∧ i.isWire = false := by
  rw [decode_eq_ok_iff]
  constructor
  · intro h
    obtain ⟨hbytes, hwf, hhost⟩ := decodePrefix_inv h
    exact ⟨by simp [hbytes], hwf, hhost⟩
  · rintro ⟨rfl, hwf, hhost⟩
    simpa using decodePrefix_encode hhost hwf []

/-- Settles O1: each operand is read back from its encoding. -/
theorem hostOperationsRoundTrip : Obligations.HostOperationsRoundTrip :=
  fun _ hhost hwf => decode_eq_ok_iff_encode.mpr ⟨rfl, hwf, hhost⟩

/-- Settles O2: each operand is read from its encoding alone. -/
theorem decodedDescriptorIsItsEncoding : Obligations.DecodedDescriptorIsItsEncoding :=
  fun _ _ => decode_eq_ok_iff_encode.mp

/-- Settles O4: the decoder runs on each. -/
theorem sampleDescriptorsDecode : Obligations.SampleDescriptorsDecode :=
  ⟨rfl, rfl, rfl, rfl, rfl, rfl, rfl, rfl, rfl⟩

/-! ### Wire patterns named by their bytes (rules R82 to R92) -/

/-- Settles O3: the header bytes of a 6-bit or 4-bit field are finitely many, and the offset of an Extended
pattern is not examined. -/
theorem wirePatternsNamedByTheirHeader : Obligations.WirePatternsNamedByTheirHeader :=
  ⟨by decide, by decide, fun _ => ⟨rfl, rfl, rfl, rfl⟩, by decide, rfl, rfl, rfl, rfl⟩

/-- Format H1: the two bits of the opcode, then the six of the address (rule R82). -/
theorem headerH1_eq_append (op : BitVec 2) (a : BitVec 6) : headerH1 (op ++ 0#6) a = op ++ a := by
  apply BitVec.eq_of_getLsbD_eq
  intro i hi
  simp only [headerH1, BitVec.getLsbD_or, BitVec.getLsbD_append, BitVec.getLsbD_setWidth]
  by_cases h : i < 6
  · simp [h, hi]
  · simp [h, BitVec.getLsbD_of_ge a i (by omega)]

/-- Format S: 0011, then the low four bits (rule R89). -/
theorem strobeByte_eq_append (c : BitVec 4) : strobeByte c = 0x3#4 ++ c := by
  revert c
  decide

end Sys2Proof

namespace Sys2Proof.Machine

/-! ### Header assembly (rules R82 to R86) -/

/-- The opcode holds the direction in bit 7, burst in bit 6, and leaves bits 5:0 to the address (rule R83). -/
theorem opcode_fields (d : Dir) (n : Nat) :
    ((opcode d n).getLsbD 7 = true ↔ d = .read) ∧ ((opcode d n).getLsbD 6 = true ↔ n ≠ 1) ∧
      (opcode d n).extractLsb' 0 6 = 0#6 := by
  cases d <;> by_cases hn : n = 1 <;>
    simp [opcode, hn, opReadSingle, opReadBurst, opWriteSingle, opWriteBurst]

/-- A byte that fits the 6-bit field has no bit above it. -/
theorem getLsbD_eq_false_of_le_3F {b : Byte} (h : b ≤ 0x3F#8) {i : Nat} (hi : 6 ≤ i) : b.getLsbD i = false := by
  have hb : b.toNat < 2 ^ 6 := Nat.lt_succ_of_le h
  exact Nat.testBit_lt_two_pow (hb.trans_le (Nat.pow_le_pow_right (by omega) hi))

theorem extractLsb'_lowByte (a : Addr) : (lowByte a).extractLsb' 0 6 = a.extractLsb' 0 6 := by
  simp [lowByte]

/-- Settles O5: above the 6-bit field the header is the opcode, in it the address. -/
theorem normalHeaderFields : Obligations.NormalHeaderFields := by
  intro d a n _ hnormal hfits
  obtain ⟨hdir, hburst, hfield⟩ := opcode_fields d n
  refine ⟨opcode d n ||| lowByte a, by rw [hdr_eq, if_neg hnormal], ?_, ?_, ?_⟩
  · rwa [BitVec.getLsbD_or, getLsbD_eq_false_of_le_3F hfits (by omega), Bool.or_false]
  · rwa [BitVec.getLsbD_or, getLsbD_eq_false_of_le_3F hfits (by omega), Bool.or_false]
  · rw [BitVec.extractLsb'_or, hfield, BitVec.zero_or, extractLsb'_lowByte]

/-- Settles O6: one byte for each direction, single or burst. -/
theorem extendedHeaderBytes : Obligations.ExtendedHeaderBytes := by
  intro d a n _ hext
  refine ⟨opcode d n ||| 0x2F#8, by rw [hdr_eq, if_pos hext], rfl, ?_, ?_⟩
  · obtain ⟨-, -, hfield⟩ := opcode_fields d n
    rw [BitVec.extractLsb'_or, hfield, BitVec.zero_or]
    rfl
  · cases d <;> by_cases hn : n = 1 <;>
      simp [opcode, hn, opReadSingle, opReadBurst, opWriteSingle, opWriteBurst]

/-! ### The fields of the status bytes (rules R94, R95, R138) -/

theorem maskShift_right {k : Nat} (hk : k ≤ 8) (b mask : Byte) : maskShift b mask k = (b &&& mask) >>> k := by
  obtain rfl | hpos := Nat.eq_zero_or_pos k
  · simp [maskShift]
  · have hrange : (1 : Int) ≤ k ∧ (k : Int) ≤ 8 := by omega
    simp [maskShift, hrange]

/-- Masking the `n` bits from bit `k` on and shifting right by `k` leaves that field as a number. -/
theorem maskShift_field {k n : Nat} (h : k + n ≤ 8) {mask : Byte}
    (hmask : mask = (BitVec.allOnes n).setWidth 8 <<< k) (b : Byte) :
    (maskShift b mask k).toNat = (b.extractLsb' k n).toNat := by
  have hbits : (b &&& mask) >>> k = (b.extractLsb' k n).setWidth 8 := by
    apply BitVec.eq_of_getLsbD_eq
    intro i hi
    by_cases hin : i < n
    · have : k + i < 8 := by omega
      simp [hmask, hin, hi, this]
    · simp [hmask, hin]
  rw [maskShift_right (by omega), hbits, BitVec.toNat_setWidth_of_le (by omega)]

/-- Settles O10: each of the four is such a field. -/
theorem statusByteFields : Obligations.StatusByteFields := fun b =>
  ⟨maskShift_field (k := 7) (n := 1) (by omega) rfl b, maskShift_field (k := 4) (n := 3) (by omega) rfl b,
    maskShift_field (k := 0) (n := 5) (by omega) rfl b, maskShift_field (k := 5) (n := 2) (by omega) rfl b⟩

/-! ### Between operations (rules R98, R103) -/

section NextDescriptor

variable {s : State} {d : List Byte} {rest : List (List Byte)} (hc : configOk s.cfg = true)
  (hj : s.job = none) (hh : s.env.host = d :: rest)
include hc hj hh

theorem step_decoded {i : Instr} (hd : decode d = .ok i) : step s = exec i (s.accepted rest) := by
  simp [step, hc, hj, hh, hd]

theorem step_undecodable {e : DecodeError} (hd : decode d = .error e) :
    step s = .next (s.accepted rest).rejected := by
  simp [step, hc, hj, hh, hd]

end NextDescriptor

/-- Settles O14: the state with the descriptor taken is `State.accepted`. -/
theorem stepRunsTheDecodedOperation : Obligations.StepRunsTheDecodedOperation :=
  fun _ _ _ _ hc hj hh hd => step_decoded hc hj hh hd

/-- Settles O15: by the round trip a byte string that encodes no operation does not decode. -/
theorem undecodableDescriptorIsRefused : Obligations.UndecodableDescriptorIsRefused := by
  intro s d rest hc hj hh hnone
  cases hd : decode d with
  | ok i =>
    obtain ⟨hencode, hwf, hhost⟩ := decode_eq_ok_iff_encode.mp hd
    exact absurd hencode (hnone i hhost hwf)
  | error e => exact step_undecodable hc hj hh hd

/-! ### Wire patterns in an open transaction (rules R80, R110) -/

/-- Each wire pattern emits its exchanges. -/
theorem exec_wire {i : Instr} (h : i.isWire = true) (s : State) : exec i s = emit (wireMicros i) s := by
  cases i with
  | wireWriteSingleNormal | wireWriteBurstNormal | wireReadSingleNormal | wireReadBurstNormal
  | wireWriteSingleExtended | wireWriteBurstExtended | wireReadSingleExtended | wireReadBurstExtended
  | wireStrobe | wireFifoReadSingle | wireFifoReadBurst | wireFifoWriteBurst | wireFifoWriteSingle
  | wireDummy => rfl
  | _ => cases h

theorem wireMicros_isExchange (i : Instr) : ∀ m ∈ wireMicros i, m.isExchange = true := by
  cases i with
  | wireStrobe c =>
    simp only [wireMicros]
    split <;> simp [Micro.isExchange]
  | _ => simp [wireMicros, Micro.isExchange]

/-- Exchanges alone run to their end. -/
theorem runSeq_exchanges_done {ms : List Micro} (h : ∀ m ∈ ms, m.isExchange = true) :
    ∀ s : State, (runSeq ms s).1 = .done := by
  induction ms with
  | nil => intro s; rfl
  | cons m ms ih =>
    intro s
    obtain ⟨hm, hms⟩ := List.forall_mem_cons.mp h
    cases m with
    | send b => exact ih hms (s.xfer b)
    | recv b => exact ih hms ((s.xfer b).keep s.nextByte)
    | select | wait | deselect => cases hm

theorem emit_open {s : State} (hcs : s.cs = .low) (hbus : s.busOn = true) (hjob : s.job = none)
    (ms : List Micro) : emit ms s = .next (runSeq ms s).2 :=
  if_pos ⟨hcs, hbus, hjob⟩

/-- A pattern alone runs its exchanges and leaves the transaction open. -/
theorem runJob_leaveOpen {fuel : Nat} {ms : List Micro} {s : State} (hjob : s.job = none)
    (hdone : (runSeq ms s).1 = .done) : runJob (fuel + 1) ⟨ms, .leaveOpen⟩ s = (runSeq ms s).2 := by
  obtain ⟨-, -, -, -, -, hframe, -⟩ := runSeq_frame ms s
  rcases hr : runSeq ms s with ⟨e, t⟩
  simp only [hr] at hdone hframe
  subst hdone
  simp only [runJob, hr, continueWith, ← hframe.trans hjob]

/-- Settles O19: both run the exchanges of the pattern and leave the transaction open. -/
theorem stepEmitsThePlacedWirePattern : Obligations.StepEmitsThePlacedWirePattern := by
  intro s i hc hwire _
  set t : State := { s with cs := .low, busOn := true, buf := [], job := none }
  have hdone := runSeq_exchanges_done (wireMicros_isExchange i)
  calc step (s.presentWire i)
      = .next (runJob maxTransactions ⟨wireMicros i, .leaveOpen⟩ (s.presentWire i)) := step_job hc rfl
    _ = .next (runJob maxTransactions ⟨wireMicros i, .leaveOpen⟩ t) :=
        congrArg _ (runJob_setJob none _ _ (s.presentWire i)).symm
    _ = .next (runSeq (wireMicros i) t).2 := congrArg _ (runJob_leaveOpen rfl (hdone t))
    _ = exec i t := by rw [exec_wire hwire, emit_open rfl rfl rfl]

section OpenTransaction

variable {s : State} (hcs : s.cs = .low) (hbus : s.busOn = true) (hjob : s.job = none)
include hcs hbus hjob

theorem emit_sends (bs : List Byte) : emit (bs.map .send) s = .next (s.clocked bs []) := by
  have h := runSeq_sends bs [] s
  rw [List.append_nil] at h
  rw [emit_open hcs hbus hjob, h]
  rfl

theorem emit_recv (b : Byte) : emit [.recv b] s = .next (s.clocked [b] [s.byteAt 0]) := by
  rw [emit_open hcs hbus hjob, ← State.xfer_keep_eq]
  rfl

theorem exec_wireStrobe (c : BitVec 4) :
    exec (.wireStrobe c) s = .next (if c ≤ 13#4 then s.clocked [0x3#4 ++ c] [] else s) := by
  have hrange : isStrobe (strobeByte c) = true ↔ c ≤ 13#4 := by revert c; decide
  rw [exec_wire rfl]
  simp only [wireMicros, hrange]
  split
  · rw [← strobeByte_eq_append]
    exact emit_sends hcs hbus hjob [strobeByte c]
  · rw [emit_open hcs hbus hjob]
    rfl

theorem emit_headerH1 (op : BitVec 2) (a : BitVec 6) :
    emit [.send (headerH1 (op ++ 0#6) a)] s = .next (s.clocked [op ++ a] []) := by
  rw [headerH1_eq_append]
  exact emit_sends hcs hbus hjob [op ++ a]

end OpenTransaction

/-- Settles O41: a header of format H1 is its opcode bits and its field, every other pattern is a fixed byte, with
the offset or the low four bits of a strobe. -/
theorem wirePatternsEmitTheirBytes : Obligations.WirePatternsEmitTheirBytes := by
  intro s hcs hbus hjob
  have header := emit_headerH1 hcs hbus hjob
  have sends := emit_sends hcs hbus hjob
  exact ⟨fun a => ⟨header 0b00#2 a, header 0b01#2 a, header 0b10#2 a, header 0b11#2 a⟩,
    fun o => ⟨sends [0x2F#8, o], sends [0x6F#8, o], sends [0xAF#8, o], sends [0xEF#8, o]⟩,
    exec_wireStrobe hcs hbus hjob, sends [0xBF#8], sends [0xFF#8], sends [0x7F#8], sends [0x3F#8],
    emit_recv hcs hbus hjob 0xFF#8⟩

end Sys2Proof.Machine
end

section
/-! SUPPORT. What a host operation can do when it is issued, a held operation one step at a time, and the
frame invariant over a step: the statements of 40_bus_transport.md. -/

namespace Sys2Proof.Machine

/-! ### Nothing is issued inside a transaction (rules R26, R114, R116) -/

theorem State.engaged_iff {s : State} : s.engaged = true ↔ s.job ≠ none ∨ s.cs = .low := by
  simp [State.engaged, Option.isSome_iff_ne_none]

theorem exec_engaged {i : Instr} {s : State} (hwire : i.isWire = false) (he : s.engaged = true) :
    exec i s = .refused .transactionOpen := by
  by_cases hinit : i = .init
  · subst hinit
    exact if_pos he
  · obtain ⟨body, hbody⟩ := exec_eq_issue hwire hinit s
    rw [hbody]
    exact if_pos he

/-- Settles O23: the first check of every host operation, and the premise of `emit`. -/
theorem nothingIsIssuedInsideATransaction : Obligations.NothingIsIssuedInsideATransaction := by
  refine ⟨fun s i hwire h => exec_engaged hwire (State.engaged_iff.mpr h), fun s i hwire h => ?_⟩
  rw [exec_wire hwire]
  refine if_neg fun ⟨hcs, hbus, hjob⟩ => ?_
  simp [hcs, hbus, hjob] at h

/-! ### What issuing a host operation can do -/

/-- Everything a host operation that answers a next state can have done, between operations. -/
inductive Issued (i : Instr) (s : State) : State → Prop where
  /-- An outcome given, nothing else changed. -/
  | answer (r : Reply) : Issued i s (s.answer r)
  /-- No byte to move, or a strobe out of range: an outcome given and the latches dropped. -/
  | nothing (r : Reply) : Issued i s (s.finish r)
  | bringUp : i = .init → s.life = .uninitialized → Issued i s ((bringUp s).answer (.done .none))
  | tearDown : i = .shutdown → s.life ≠ .uninitialized → Issued i s ((tearDown s).answer (.done .none))
  | pulse : i = .reset true → s.life ≠ .uninitialized → s.cfg.hasResetLine = true →
      Issued i s ({ hwResetPulse s with life := .ready }.answer (.done .none))
  /-- The first transaction started. -/
  | opens (xs : List Micro) (k : After) : firstTransaction s.cfg s.nextPad i = some (xs, k) → s.Admits i →
      Issued i s ((s.padded i).start (transaction s.cfg xs) k)

/-- An admitted operation that opens no transaction. -/
theorem exec_opens_nothing {i : Instr} {s t : State} (hwire : i.isWire = false) (ha : s.Admits i)
    (hnone : firstTransaction s.cfg s.nextPad i = none) (h : exec i s = .next t) (hinit : i ≠ .init) :
    Issued i s t := by
  have hlife : s.life ≠ .uninitialized := ha.2.2.1
  cases i with
  | init => exact absurd rfl hinit
  | wireWriteSingleNormal | wireWriteBurstNormal | wireReadSingleNormal | wireReadBurstNormal
  | wireWriteSingleExtended | wireWriteBurstExtended | wireReadSingleExtended | wireReadBurstExtended
  | wireStrobe | wireFifoReadSingle | wireFifoReadBurst | wireFifoWriteBurst | wireFifoWriteSingle
  | wireDummy => cases hwire
  | shutdown =>
    rw [exec, execShutdown, issue_admitted ha] at h
    cases h
    exact .tearDown rfl hlife
  | reset hardware =>
    have hpulse : hardware = true ∧ s.cfg.hasResetLine = true := by simpa [firstTransaction] using hnone
    obtain ⟨rfl, hline⟩ := hpulse
    rw [exec, execReset, issue_admitted ha, if_pos (by simp [hline])] at h
    cases h
    exact .pulse rfl hlife hline
  | readRegister a n =>
    have hn : n = 0 := by simpa [firstTransaction] using hnone
    rw [exec_readRegister ha, readSeq, if_pos hn, State.start_nil rfl rfl] at h
    cases h
    exact .nothing _
  | writeRegister a bs =>
    have hbs : bs.length = 0 := by simpa [firstTransaction] using hnone
    rw [exec_writeRegister ha, writeSeq, if_pos hbs, State.start_nil rfl rfl] at h
    cases h
    exact .nothing _
  | strobe v =>
    have hv : isStrobe v ≠ true := by simpa [firstTransaction] using hnone
    rw [exec, execStrobe, issueSeq, issue_admitted ha, strobeSeq, if_neg hv, State.start_nil rfl rfl] at h
    cases h
    exact .nothing _
  | writeTxFifo bs =>
    have hbs : bs.length ≤ 2 := by simpa [firstTransaction] using hnone
    rw [exec, execWriteTxFifo, issue_admitted ha, if_pos hbs] at h
    cases h
    exact .answer _
  | getAddress force =>
    have hforce : force ≠ true := by simpa [firstTransaction] using hnone
    rw [exec, execGetAddress, issue_admitted ha, if_neg hforce] at h
    split at h <;> cases h
    exact .answer _
  | getStatus t =>
    simp only [firstTransaction] at hnone
    split at hnone <;> cases hnone
  | configure | updateRegister | idle | powerDown | transmitArm | receiveArm | flushRx | flushTx | readRxFifo
  | resolveFifoError | setAddress => cases hnone

theorem exec_issued {i : Instr} {s t : State} (hwire : i.isWire = false) (hc : configOk s.cfg = true)
    (h : exec i s = .next t) : s.engaged = false ∧ Issued i s t := by
  have he : s.engaged = false := by
    by_contra hne
    rw [exec_engaged hwire (by simpa using hne)] at h
    cases h
  refine ⟨he, ?_⟩
  by_cases hinit : i = .init
  · subst hinit
    simp only [exec, execInit, he, Bool.false_eq_true, if_false] at h
    split at h <;> cases h
    · exact .bringUp rfl ‹_›
    · exact .answer _
  obtain ⟨body, hbody⟩ := exec_eq_issue hwire hinit s
  obtain ⟨he', -⟩ | ⟨-, r, hr⟩ | ⟨ha, -⟩ := issue_cases i s body
  · simp [he] at he'
  · rw [hbody, hr] at h
    cases h
    exact .answer (.refused r)
  · cases hfirst : firstTransaction s.cfg s.nextPad i with
    | none => exact exec_opens_nothing hwire ha hfirst h hinit
    | some first =>
      obtain ⟨xs, k⟩ := first
      rw [exec_opens hc hfirst ha] at h
      cases h
      exact .opens xs k hfirst ha

/-! ### One step of a held operation (rules R112, R115) -/

theorem State.levelSampled_eq (s : State) : s.levelSampled = s.sampled 1 := by
  simp [State.levelSampled, State.sampled]

theorem State.sampled_sampled (m n : Nat) (s : State) : (s.sampled m).sampled n = s.sampled (m + n) := by
  simp [State.sampled, Nat.add_assoc]

@[simp] theorem State.levelAt_sampled (m k : Nat) (s : State) :
    (s.sampled m).levelAt k = s.levelAt (m + k) := by
  simp [State.sampled, State.levelAt, Nat.add_assoc]

/-- The first of the samples is the next. -/
theorem State.Unready.nextLevel {n : Nat} {s : State} (h : s.Unready (n + 1)) :
    s.nextLevel ≠ s.cfg.readyActiveLevel := by
  rw [State.nextLevel_eq]
  exact h 0 (by omega)

theorem State.Unready.sampled {n m : Nat} {s : State} (h : s.Unready (m + n)) : (s.sampled m).Unready n :=
  fun i hi => by
    rw [State.levelAt_sampled]
    exact h (m + i) (by omega)

section AtWait

variable {s : State} {left : Option Nat} {rest : List Micro} {k : After} (hc : configOk s.cfg = true)
  (hj : s.job = some ⟨.wait left :: rest, k⟩)
include hc hj

/-- A turn of the wait that holds draws its sample and counts it. -/
theorem step_wait_holding {left' : Option Nat} (hw : s.waitTurn left = (.holding left', s.levelSampled)) :
    step s = .next { s.sampled 1 with job := some ⟨.wait left' :: rest, k⟩ } := by
  rw [step_job hc hj, State.resume, maxTransactions, runJob_held (by simp only [runSeq, hw]; rfl),
    State.levelSampled_eq]

/-- A turn of the wait that gives up raises the select line and ends the operation. -/
theorem step_wait_expired {s' : State} (hw : s.waitTurn left = (.expired, s')) :
    step s = .next (s'.endTransaction.finish .busNotReady) := by
  rw [step_job hc hj, State.resume, maxTransactions, runJob_expired (by simp only [runSeq, hw]; rfl)]

end AtWait

/-- One unready sample at a wait with no bound. -/
theorem step_wait_unbounded {s : State} {rest : List Micro} {k : After} (hc : configOk s.cfg = true)
    (hj : s.job = some ⟨.wait none :: rest, k⟩) (hu : s.nextLevel ≠ s.cfg.readyActiveLevel) :
    step s = .next (s.sampled 1) := by
  rw [step_wait_holding hc hj (State.waitTurn_hold hu)]
  congr 1
  rw [← hj]
  rfl

theorem run_succ_of_step {s t : State} (h : step s = .next t) (n : Nat) : run (n + 1) s = run n t := by
  simp only [run, h]

/-- One step more at the end of a run. -/
theorem run_succ {n : Nat} : ∀ {s t : State}, run n s = .next t → run (n + 1) s = step t := by
  induction n with
  | zero =>
    rintro s t ⟨⟩
    simp only [run]
    cases step s <;> rfl
  | succ n ih =>
    intro s t h
    cases hs : step s with
    | next u =>
      rw [run_succ_of_step hs] at h ⊢
      exact ih h
    | fault r => simp [run, hs] at h
    | refused r => simp [run, hs] at h

/-- Settles O54, by induction on the steps: each draws one sample. -/
theorem hangIsForEver : Obligations.HangIsForEver := by
  intro n
  induction n with
  | zero => intro s rest k _ _ _; rfl
  | succ n ih =>
    intro s rest k hc hj hu
    rw [run_succ_of_step (step_wait_unbounded hc hj hu.nextLevel),
      ih (s.sampled 1) rest k hc hj (State.Unready.sampled (m := 1) (by rwa [Nat.add_comm])),
      State.sampled_sampled, Nat.add_comm]

/-- While samples are left each unready one is counted. -/
theorem run_wait_counting (m n : Nat) : ∀ (s : State) (rest : List Micro) (k : After), configOk s.cfg = true →
    s.job = some ⟨.wait (some (m + n + 1)) :: rest, k⟩ → s.Unready m →
    run m s = .next { s.sampled m with job := some ⟨.wait (some (n + 1)) :: rest, k⟩ } := by
  induction m with
  | zero =>
    intro s rest k _ hj _
    rw [Nat.zero_add] at hj
    rw [← hj]
    rfl
  | succ m ih =>
    intro s rest k hc hj hu
    have hcount : m + 1 + n + 1 = m + n + 2 := by omega
    rw [hcount] at hj
    have hu' : (s.sampled 1).Unready m := State.Unready.sampled (by rwa [Nat.add_comm])
    rw [run_succ_of_step (step_wait_holding hc hj (State.waitTurn_count hu.nextLevel)),
      ih { s.sampled 1 with job := some ⟨.wait (some (m + n + 1)) :: rest, k⟩ } rest k hc rfl hu',
      Nat.add_comm m 1, ← State.sampled_sampled]
    rfl

/-- Settles O55: the last of the samples ends the wait. -/
theorem boundedWaitGivesUpAfterItsSamples : Obligations.BoundedWaitGivesUpAfterItsSamples := by
  refine ⟨run_wait_counting, fun n s rest k hc hj hu => ?_⟩
  set t : State := { s.sampled n with job := some ⟨.wait (some 1) :: rest, k⟩ }
  have hrun : run n s = .next t := run_wait_counting n 0 s rest k hc hj fun i hi => hu i (by omega)
  have hlast : t.nextLevel ≠ t.cfg.readyActiveLevel := State.Unready.nextLevel (State.Unready.sampled hu)
  rw [run_succ hrun, step_wait_expired (s := t) hc rfl (State.waitTurn_last hlast), State.levelSampled_eq,
    ← State.sampled_sampled n 1 s]
  rfl

/-! ### The ready wait of the first transaction (rules R111, R115) -/

/-- A step from the ready wait a transaction has just come to. -/
theorem step_selectedAt {s : State} (hc : configOk s.cfg = true) (xs : List Micro) (k : After) :
    step (s.selectedAt xs k) = .next (s.start (transaction s.cfg xs) k) := by
  rw [step_job (s := s.selectedAt xs k) hc rfl]
  exact congrArg _ (runJob_transaction _ xs k s).symm

theorem exec_eq_step_selectedAt {i : Instr} {s : State} {xs : List Micro} {k : After}
    (hfirst : firstTransaction s.cfg s.nextPad i = some (xs, k)) (hc : configOk s.cfg = true)
    (ha : s.Admits i) :
    exec i s = step ((s.padded i).selectedAt xs k) := by
  have hcfg : (s.padded i).cfg = s.cfg := State.padded_cfg i s
  rw [exec_opens hc hfirst ha, step_selectedAt (by rwa [hcfg]), hcfg]

/-- Settles O51: an admitted operation starts its transaction, which comes to its ready wait at once. -/
theorem issuingIsSteppingFromTheReadyWait : Obligations.IssuingIsSteppingFromTheReadyWait :=
  fun _ _ _ _ => exec_eq_step_selectedAt

section Selected

variable {s : State} (hc : configOk s.cfg = true) (xs : List Micro) (k : After)
include hc

/-- With samples left, or no bound, an unready first sample holds the operation. -/
theorem step_selectedAt_unready (h0 : s.cfg.readyTimeout ≠ some 0) (h1 : s.cfg.readyTimeout ≠ some 1)
    (hu : s.nextLevel ≠ s.cfg.readyActiveLevel) : step (s.selectedAt xs k) = .next (s.heldAt xs k) := by
  have hw : (s.selectedAt xs k).waitTurn s.cfg.readyTimeout =
      (.holding (s.cfg.readyTimeout.map (· - 1)), (s.selectedAt xs k).levelSampled) := by
    match hleft : s.cfg.readyTimeout, h0, h1 with
    | none, _, _ => exact State.waitTurn_hold hu
    | some (n + 2), _, _ => exact State.waitTurn_count hu
  exact step_wait_holding (s := s.selectedAt xs k) hc rfl hw

/-- Giving up at the first wait leaves the frame `CS(LOW), CS(HIGH)`. -/
theorem step_selectedAt_expired {n : Nat}
    (hw : (s.selectedAt xs k).waitTurn s.cfg.readyTimeout = (.expired, (s.selectedAt xs k).sampled n)) :
    step (s.selectedAt xs k) = .next ({ s.sampled n with
      cs := .high, trace := s.trace ++ [Event.cs .low, Event.cs .high] }.finish .busNotReady) := by
  rw [step_wait_expired (s := s.selectedAt xs k) hc rfl hw]
  simp [State.endTransaction, State.driveCs, State.selectedAt, State.sampled, State.finish]

end Selected

/-- A pad draw leaves the samples to come alone. -/
theorem State.padded_sampled (i : Instr) (n : Nat) (s : State) :
    (s.padded i).sampled n = (s.sampled n).padded i := by
  simp only [State.padded]
  split <;> rfl

/-- Settles O50: the first sample holds the operation. -/
theorem unreadyPeerHoldsTheOperation : Obligations.UnreadyPeerHoldsTheOperation := by
  intro i s xs k hfirst hc ha h0 h1 hu
  have hcfg : (s.padded i).cfg = s.cfg := State.padded_cfg i s
  rw [exec_eq_step_selectedAt hfirst hc ha]
  refine step_selectedAt_unready ?_ xs k ?_ ?_ ?_ <;> rw [hcfg]
  · exact hc
  · exact h0
  · exact h1
  · rw [State.padded_nextLevel]
    exact hu.nextLevel

/-- Settles O56: no sample is left before the first, or after it. -/
theorem shortTimeoutFailsAtOnce : Obligations.ShortTimeoutFailsAtOnce := by
  intro i s xs k hfirst hc ha
  have hcfg : (s.padded i).cfg = s.cfg := State.padded_cfg i s
  have hc' : configOk (s.padded i).cfg = true := by rwa [hcfg]
  rw [exec_eq_step_selectedAt hfirst hc ha, ← State.padded_trace i s]
  refine ⟨fun h0 => ?_, fun h1 hu => ?_⟩
  · refine step_selectedAt_expired hc' xs k (n := 0) ?_
    rw [hcfg, h0]
    rfl
  · refine step_selectedAt_expired hc' xs k (n := 1) ?_
    have hlast : ((s.padded i).selectedAt xs k).nextLevel ≠
        ((s.padded i).selectedAt xs k).cfg.readyActiveLevel := by
      simpa using hu.nextLevel
    rw [hcfg, h1, State.waitTurn_last hlast, State.levelSampled_eq]

/-! ### The lifecycle bodies, field by field (rules R152, R164) -/

/-- The events of `init` (rule R152). -/
def bringUpEvents (c : Params) : List Event :=
  [Event.pin .cs .out, Event.cs .high, Event.pin .ready .inp] ++
    (if c.hasResetLine then [Event.pin .rst .out, Event.rst .high] else []) ++ [Event.bus true] ++
    (if c.hasResetLine && c.initHwReset then
      [Event.rst .low, Event.dly c.tRstLowMs, Event.rst .high, Event.dly c.tRstHighMs] else []) ++
    [Event.dly c.tInitMs]

theorem bringUp_eq (s : State) : bringUp s = { s with
    life := .ready, shadow := some 0#8, cs := .high, busOn := true
    rst := if s.cfg.hasResetLine then .high else s.rst
    trace := s.trace ++ bringUpEvents s.cfg } := by
  cases hline : s.cfg.hasResetLine <;> cases hpulse : s.cfg.initHwReset <;>
    simp [bringUp, bringUpEvents, pinSetup, hwResetPulse, State.log, State.pinMode, State.driveCs,
      State.driveRst, State.delayMs, State.setBus, hline, hpulse]

/-- The events of `shutdown` (rule R164). -/
def tearDownEvents (c : Params) : List Event :=
  [Event.bus false, Event.pin .cs .released, Event.pin .ready .released] ++
    (if c.hasResetLine then [Event.pin .rst .released] else [])

theorem tearDown_eq (s : State) : tearDown s = { s with
    life := .uninitialized, shadow := none, cs := .released, busOn := false
    rst := if s.cfg.hasResetLine then .released else s.rst
    trace := s.trace ++ tearDownEvents s.cfg } := by
  cases hline : s.cfg.hasResetLine <;>
    simp [tearDown, tearDownEvents, State.log, State.pinMode, State.setBus, hline]

theorem bringUp_job (s : State) : (bringUp s).job = s.job := by rw [bringUp_eq]

theorem tearDown_job (s : State) : (tearDown s).job = s.job := by rw [tearDown_eq]

/-! ### An unready first sample (rule R112) -/

/-- With nothing in progress before it, an operation that is held has opened a transaction. -/
theorem Issued.opens_of_job {i : Instr} {s t : State} (h : Issued i s t) (hs : s.job = none)
    (ht : t.job ≠ none) : ∃ xs k, firstTransaction s.cfg s.nextPad i = some (xs, k) ∧ s.Admits i := by
  cases h with
  | opens xs k hfirst ha => exact ⟨xs, k, hfirst, ha⟩
  | answer r => exact absurd hs ht
  | nothing r => exact absurd rfl ht
  | bringUp _ _ => exact absurd ((bringUp_job s).trans hs) ht
  | tearDown _ _ => exact absurd ((tearDown_job s).trans hs) ht
  | pulse _ _ _ => exact absurd hs ht

/-- Without a bound, a held first transaction is the same transaction one sample later. -/
theorem State.heldAt_eq_selectedAt {s : State} (hunbounded : s.cfg.readyTimeout = none) (xs : List Micro)
    (k : After) : s.heldAt xs k = (s.sampled 1).selectedAt xs k := by
  simp [State.heldAt, State.selectedAt, State.sampled, hunbounded]

/-- Settles O57: what is held and what is issued a sample later stand at the same ready wait. -/
theorem unreadySampleLeavesNoMark : Obligations.UnreadySampleLeavesNoMark := by
  intro i s t hwire hc hunbounded hu h hheld
  obtain ⟨he, hissued⟩ := exec_issued hwire hc h
  obtain ⟨xs, k, hfirst, ha⟩ := hissued.opens_of_job (State.job_of_not_engaged he) hheld
  have ht : t = (s.padded i).heldAt xs k := by
    have hexec := unreadyPeerHoldsTheOperation i s xs k hfirst hc ha (by simp [hunbounded])
      (by simp [hunbounded]) hu
    rw [h] at hexec
    cases hexec
    rfl
  have hunbounded' : (s.padded i).cfg.readyTimeout = none := by rwa [State.padded_cfg]
  rw [ht, State.heldAt_eq_selectedAt hunbounded', State.padded_sampled]
  exact (exec_eq_step_selectedAt (s := s.sampled 1) hfirst hc ha).symm

/-! ### A held operation whose next sample is ready (rules R112, R113) -/

/-- The 5-bit code of a MarcState byte, as resolveFifoError tests it (rules R95, R143). -/
theorem marcState_eq_iff {v : Byte} {code : BitVec 5} :
    marcState v = code.setWidth 8 ↔ v.extractLsb' 0 5 = code := by
  obtain ⟨-, -, hmarc, -⟩ := statusByteFields v
  rw [← BitVec.toNat_inj, ← BitVec.toNat_inj, hmarc, BitVec.toNat_setWidth_of_le (by omega)]

theorem marcState_eq_rxFifoErr_iff {v : Byte} : marcState v = marcRxFifoErr ↔ v.extractLsb' 0 5 = 17#5 :=
  marcState_eq_iff (code := 17#5)

theorem marcState_eq_txFifoErr_iff {v : Byte} : marcState v = marcTxFifoErr ↔ v.extractLsb' 0 5 = 22#5 :=
  marcState_eq_iff (code := 22#5)

/-- The state a transaction ends in from its ready wait: `sent` and `n` reads with `b` done, what the reads
returned latched. -/
def State.readBack (sent : List Byte) (b : Byte) (n : Nat) (s : State) : State :=
  { s.resumed (sent ++ List.replicate n b) with buf := s.payload sent.length n }

@[simp] theorem State.readBack_cfg (sent : List Byte) (b : Byte) (n : Nat) (s : State) :
    (s.readBack sent b n).cfg = s.cfg := rfl

theorem State.readBack_firstByte {sent : List Byte} {b : Byte} {n : Nat} {s : State} (hn : 1 ≤ n) :
    (s.readBack sent b n).firstByte = s.byteAt sent.length := by
  obtain ⟨m, rfl⟩ := Nat.exists_eq_add_of_le' hn
  rw [State.readBack, State.payload_succ]
  rfl

section HeldReady

variable {s : State} {left : Option Nat} {sent : List Byte} {b : Byte} {n : Nat} {k : After}
  (hc : configOk s.cfg = true) (hbuf : s.buf = []) (h0 : left ≠ some 0)
  (hready : s.levelAt 0 = s.cfg.readyActiveLevel)
  (hj : s.job =
    some ⟨.wait left :: (sent.map Micro.send ++ List.replicate n (Micro.recv b) ++ [Micro.deselect]), k⟩)
include hc hbuf h0 hready hj

/-- The transaction ends, and the operation with it. -/
theorem step_held_reply {r : Reply} (hk : continueWith k (s.readBack sent b n) = .reply r) :
    step s = .next ((writeBack k (s.readBack sent b n)).finish r) := by
  have hseq := runSeq_resumed sent b n h0 hready
  rw [hbuf, List.nil_append] at hseq
  rw [step_job hc hj]
  exact congrArg _ (runJob_reply hseq hk)

/-- The transaction ends, and the operation comes to the ready wait of its next. -/
theorem step_held_go {xs : List Micro} {k' : After}
    (hk : continueWith k (s.readBack sent b n) = .go ⟨transaction s.cfg xs, k'⟩) :
    step s = step ((s.resumed (sent ++ List.replicate n b)).selectedAt xs k') := by
  have hseq := runSeq_resumed sent b n h0 hready
  rw [hbuf, List.nil_append] at hseq
  have hfewer : k'.transactions ≤ 3 :=
    Nat.le_of_lt_succ ((continueWith_go_lt hk).trans_le (After.transactions_le k))
  rw [step_job hc hj, step_selectedAt (s := s.resumed (sent ++ List.replicate n b)) hc]
  refine congrArg _ ((runJob_go hseq hk).trans ?_)
  exact runJob_fuel 3 4 _ _ hfewer (After.transactions_le k')


end HeldReady

/-- Settles O52: the continuation ends the operation, from the byte read where it uses one. -/
theorem heldOperationEndsWhenReady : Obligations.HeldOperationEndsWhenReady := by
  intro s left sent b n k hc hbuf h0 hready hj t v code
  have ends := fun {r} => step_held_reply (r := r) hc hbuf h0 hready hj
  refine ⟨?_, ?_, ?_, ?_, ?_, ?_, ?_, fun hn => ?_⟩
  · rintro rfl
    exact ends rfl
  · rintro rfl
    exact ends rfl
  · rintro l rfl
    exact ends rfl
  · rintro rfl
    exact ends rfl
  · rintro a rfl
    exact ends rfl
  · rintro c rfl
    exact ends rfl
  · rintro rfl hsingle
    exact ends ((if_pos hsingle).trans rfl)
  have hv : (s.readBack sent b n).firstByte = v := State.readBack_firstByte hn
  refine ⟨?_, ?_, ?_, ?_, ?_, ?_⟩
  · rintro keepBits shiftLR rfl
    exact ends (by rw [continueWith, hv])
  · rintro rfl
    rw [ends rfl, writeBack, hv]
    rfl
  · rintro a bits rfl hsame
    exact ends (by rw [continueWith, hv, if_pos hsame])
  · rintro rfl hzero
    exact ends (by rw [continueWith, hv, hzero]; rfl)
  · rintro rfl hsingle hrx htx
    refine ends ?_
    rw [continueWith, hv, if_neg (marcState_eq_rxFifoErr_iff.not.mpr hrx)]
    exact (if_pos hsingle).trans (if_neg (marcState_eq_txFifoErr_iff.not.mpr htx))
  · rintro c rfl htx
    refine ends ?_
    rw [continueWith, hv]
    exact if_neg (marcState_eq_txFifoErr_iff.not.mpr htx)

/-! ### The transactions that follow (rules R123, R141, R143) -/

theorem strobeSeq_of_configOk {c : Params} (hc : configOk c = true) {v : Byte} (hv : v ∈ strobes c) :
    strobeSeq c v = transaction c [.send v] :=
  if_pos (isStrobe_of_configOk hc hv)

theorem readSeq_of_ne_zero (c : Params) (a : Addr) {n : Nat} (hn : n ≠ 0) :
    readSeq c a n = transaction c (readBody a n) :=
  if_neg hn

theorem writeSeq_singleton (c : Params) (a : Addr) (v : Byte) :
    writeSeq c a [v] = transaction c (writeBody a [v]) := rfl

theorem statusSeq_marcState (c : Params) :
    statusSeq c .marcState = transaction c (readBody c.addrMarcState 1) := rfl

/-- The TX flush, where the code asks for it. -/
theorem txDecide_flush {c : Params} (hc : configOk c = true) {m : Byte} (hm : m = marcTxFifoErr)
    (count : Nat) : txDecide c m count = .go ⟨transaction c [.send c.strobeSFTX], .txFlushed count⟩ := by
  rw [txDecide, if_pos hm, strobeSeq_of_configOk hc (by simp [strobes])]

/-- Settles O53: the continuation asks for one more transaction. -/
theorem heldOperationGoesOnToItsNextTransaction : Obligations.HeldOperationGoesOnToItsNextTransaction := by
  intro s left sent b n k hc hbuf h0 hready hj t v code
  have goes := fun {xs k'} => step_held_go (xs := xs) (k' := k') hc hbuf h0 hready hj
  refine ⟨?_, fun hn => ?_⟩
  · rintro rfl hsingle
    exact goes (if_neg (by simp [hsingle]))
  have hv : (s.readBack sent b n).firstByte = v := State.readBack_firstByte hn
  refine ⟨?_, ?_, ?_, ?_, ?_, ?_⟩
  · rintro a bits rfl hchange
    exact goes (by rw [continueWith, hv, if_neg hchange]; rfl)
  · rintro rfl hcount
    have hcount' : v.toNat ≠ 0 := fun h => hcount (BitVec.eq_of_toNat_eq h)
    exact goes (by rw [continueWith, hv, if_neg hcount', readSeq_of_ne_zero _ _ hcount']; rfl)
  · rintro rfl hrx
    refine goes ?_
    rw [continueWith, hv, if_pos (marcState_eq_rxFifoErr_iff.mpr hrx)]
    have hflush : strobeSeq s.cfg s.cfg.strobeSFRX = transaction s.cfg [.send s.cfg.strobeSFRX] :=
      strobeSeq_of_configOk hc (by simp [strobes])
    rw [State.readBack_cfg, hflush]
  · rintro rfl hrx hsingle
    refine goes ?_
    rw [continueWith, hv, if_neg (marcState_eq_rxFifoErr_iff.not.mpr hrx)]
    exact if_neg (by simp [hsingle])
  · rintro rfl htx hsingle
    have hrx : code ≠ 17#5 := by
      rw [htx]
      decide
    refine goes ?_
    rw [continueWith, hv, if_neg (marcState_eq_rxFifoErr_iff.not.mpr hrx)]
    exact (if_pos hsingle).trans (txDecide_flush hc (marcState_eq_txFifoErr_iff.mpr htx) 0)
  · rintro c rfl htx
    refine goes ?_
    rw [continueWith, hv]
    exact txDecide_flush hc (marcState_eq_txFifoErr_iff.mpr htx) c

/-! ### Transactions whose exchanges fit what follows them (rule R29) -/

/-- Exchanges a transaction may stand around where `k` follows: what `Job.Held` asks of both. -/
def Fits (xs : List Micro) (k : After) : Prop :=
  (∀ m ∈ xs, m.isExchange = true) ∧ k.sound (xs.any fun m => m matches .recv _)

theorem Job.held_iff {j : Job} : j.Held ↔
    ∃ left xs, j.seq = .wait left :: (xs ++ [Micro.deselect]) ∧ left ≠ some 0 ∧ Fits xs j.after := Iff.rfl

theorem fits_sends (bs : List Byte) {k : After} (hk : k.sound false) : Fits (bs.map .send) k := by
  refine ⟨by simp [Micro.isExchange], ?_⟩
  have hnone : ((bs.map Micro.send).any fun m => m matches .recv _) = false := by simp
  rwa [hnone]

theorem fits_readBody (a : Addr) {n : Nat} {k : After} (hn : n ≠ 0) (hk : k.sound true) :
    Fits (readBody a n) k := by
  refine ⟨?_, ?_⟩
  · intro m hm
    simp only [readBody, List.mem_append, List.mem_map, List.mem_replicate] at hm
    obtain ⟨b, -, rfl⟩ | ⟨-, rfl⟩ := hm <;> rfl
  · have hsome : ((readBody a n).any fun m => m matches .recv _) = true := by simp [readBody, hn]
    rwa [hsome]

theorem writeBody_eq (a : Addr) (bs : List Byte) : writeBody a bs = (writeFrame a bs).map .send := by
  simp [writeBody, writeFrame]

theorem fits_writeBody (a : Addr) (bs : List Byte) {k : After} (hk : k.sound false) :
    Fits (writeBody a bs) k := by
  rw [writeBody_eq]
  exact fits_sends _ hk

/-- The first transaction of an operation reads what the operation goes on with. -/
theorem firstTransaction_fits {c : Params} {pad : Byte} {i : Instr} {xs : List Micro} {k : After}
    (h : firstTransaction c pad i = some (xs, k)) : Fits xs k := by
  cases i with
  | readRegister a n =>
    simp only [firstTransaction] at h
    split at h <;> cases h
    exact fits_readBody a ‹_› trivial
  | writeRegister a bs =>
    simp only [firstTransaction] at h
    split at h <;> cases h
    exact fits_writeBody a bs trivial
  | updateRegister a bits =>
    cases h
    exact fits_readBody a (by omega) rfl
  | configure es =>
    cases h
    simp only [writeBody_eq, ← List.map_flatMap]
    exact fits_sends _ trivial
  | strobe v =>
    simp only [firstTransaction] at h
    split at h <;> cases h
    exact fits_sends [v] trivial
  | reset hardware =>
    simp only [firstTransaction] at h
    split at h <;> cases h
    exact fits_sends [c.strobeSRES] (by simp [After.sound])
  | idle | powerDown | transmitArm | receiveArm =>
    cases h
    exact fits_sends [_] (by simp [After.sound])
  | flushRx | flushTx =>
    cases h
    exact fits_sends [_] trivial
  | getStatus t keepBits shiftLR =>
    simp only [firstTransaction] at h
    split at h <;> cases h
    · exact ⟨by simp [Micro.isExchange], rfl⟩
    · exact fits_readBody _ (by omega) rfl
  | readRxFifo | resolveFifoError =>
    cases h
    exact fits_readBody _ (by omega) rfl
  | writeTxFifo bs =>
    simp only [firstTransaction] at h
    split at h <;> cases h
    exact fits_writeBody _ _ trivial
  | setAddress v =>
    cases h
    exact fits_writeBody _ _ trivial
  | getAddress force =>
    simp only [firstTransaction] at h
    split at h <;> cases h
    exact fits_readBody _ (by omega) rfl
  | init | shutdown | wireWriteSingleNormal | wireWriteBurstNormal | wireReadSingleNormal
  | wireReadBurstNormal | wireWriteSingleExtended | wireWriteBurstExtended | wireReadSingleExtended
  | wireReadBurstExtended | wireStrobe | wireFifoReadSingle | wireFifoReadBurst | wireFifoWriteBurst
  | wireFifoWriteSingle | wireDummy => cases h

/-- So does every further one. -/
theorem continueWith_go_fits {k : After} {kept : Bool} {s : State} {j : Job} (hc : configOk s.cfg = true)
    (hk : k.sound kept) (h : continueWith k s = .go j) :
    ∃ xs k', j = ⟨transaction s.cfg xs, k'⟩ ∧ Fits xs k' := by
  obtain ⟨a, b, rfl, -⟩ | ⟨n, hn, rfl, -⟩ | ⟨rfl, -⟩ | ⟨n, rfl, hfrom⟩ | ⟨n, rfl, hfrom⟩ := continueWith_go h
  · exact ⟨_, _, rfl, fits_writeBody a [b] trivial⟩
  · exact ⟨_, .bytes, by rw [readSeq_of_ne_zero _ _ hn], fits_readBody _ hn trivial⟩
  · exact ⟨[.send s.cfg.strobeSFRX], .rxFlushed, by rw [strobeSeq_of_configOk hc (by simp [strobes])],
      fits_sends [s.cfg.strobeSFRX] trivial⟩
  · have hn : n ≤ 1 := by
      obtain ⟨-, rfl⟩ | ⟨-, rfl⟩ | rfl := hfrom
      · omega
      · omega
      · exact hk.2
    exact ⟨[.send s.cfg.strobeSFTX], .txFlushed n, by rw [strobeSeq_of_configOk hc (by simp [strobes])],
      fits_sends [s.cfg.strobeSFTX] hn⟩
  · have hn : n ≤ 1 := by
      obtain ⟨-, rfl⟩ | ⟨-, rfl⟩ := hfrom <;> omega
    exact ⟨_, .txTest n, by rw [statusSeq_marcState], fits_readBody _ (by omega) ⟨rfl, hn⟩⟩

/-- Only a wire pattern alone leaves its transaction open. -/
theorem continueWith_leave {k : After} {s : State} (h : continueWith k s = .leave) : k = .leaveOpen := by
  cases k with
  | leaveOpen => rfl
  | merge | drain | rxTest | rxFlushed | txTest =>
    simp only [continueWith, txDecide, marcSample] at h
    split_ifs at h
  | ack | bytes | masked | enter | settle | setShadow | adopt | txFlushed => cases h

theorem After.transactions_ne_zero (k : After) : k.transactions ≠ 0 := by
  cases k <;> simp [After.transactions]

/-! ### The phase of the trace (rule R116) -/

/-- The trace keeps the frame invariant and leaves the select line in the phase `p`. -/
def State.InPhase (p : Phase) (s : State) : Prop := Phase.after .released s.trace = some p

theorem State.InPhase.append {p q : Phase} {s t : State} {es : List Event} (h : s.InPhase p)
    (ht : t.trace = s.trace ++ es) (hq : p.after es = some q) : t.InPhase q := by
  rw [State.InPhase, ht, Phase.after_append, h]
  exact hq

/-- Exchanges alone go on to what follows them, and keep an opened frame open. -/
theorem runSeq_exchanges {xs : List Micro} (hx : ∀ m ∈ xs, m.isExchange = true) (ms : List Micro) :
    ∀ s : State, s.InPhase .opened →
      ∃ s' : State, s'.InPhase .opened ∧ runSeq (xs ++ ms) s = runSeq ms s' := by
  induction xs with
  | nil => intro s hp; exact ⟨s, hp, rfl⟩
  | cons m xs ih =>
    intro s hp
    obtain ⟨hm, hxs⟩ := List.forall_mem_cons.mp hx
    cases m with
    | send b => exact ih hxs (s.xfer b) (hp.append (es := [.x b s.nextByte]) rfl rfl)
    | recv b => exact ih hxs ((s.xfer b).keep s.nextByte) (hp.append (es := [.x b s.nextByte]) rfl rfl)
    | select | wait | deselect => cases hm

/-- A transaction at its ready wait holds there, or ends with the select line high, run or given up. -/
theorem runSeq_wait_cases {xs : List Micro} (hx : ∀ m ∈ xs, m.isExchange = true) (left : Option Nat)
    {s : State} (hp : s.InPhase .selected) :
    (∃ left', left' ≠ some 0 ∧
      runSeq (.wait left :: (xs ++ [Micro.deselect])) s =
        (.held (.wait left' :: (xs ++ [Micro.deselect])), s.levelSampled)) ∨
    ∃ e s', (e = .expired ∨ e = .done) ∧ runSeq (.wait left :: (xs ++ [Micro.deselect])) s = (e, s') ∧
      s'.cs = .high ∧ s'.InPhase .idle := by
  obtain ⟨-, hw⟩ | ⟨-, -, hw⟩ | ⟨-, -, hw | ⟨left', hleft, hw⟩⟩ := State.waitTurn_cases left s
  · exact .inr ⟨_, s.endTransaction, .inl rfl, by simp only [runSeq, hw], rfl,
      hp.append (es := [.cs .high]) rfl rfl⟩
  · have hopened : (s.levelSampled.log .rdy).InPhase .opened := hp.append (es := [.rdy]) rfl rfl
    obtain ⟨s', hp', hrun⟩ := runSeq_exchanges hx [.deselect] _ hopened
    exact .inr ⟨_, s'.endTransaction, .inr rfl, by simp only [runSeq, hw, hrun], rfl,
      hp'.append (es := [.cs .high]) rfl rfl⟩
  · exact .inr ⟨_, s.levelSampled.endTransaction, .inl rfl, by simp only [runSeq, hw], rfl,
      hp.append (es := [.cs .high]) rfl rfl⟩
  · exact .inl ⟨left', hleft, by simp only [runSeq, hw]⟩

/-! ### The invariant inside the lifetime -/

/-- What the invariant says of an initialized state whatever the operation in progress (rules R22 to R25). -/
structure State.Alive (s : State) : Prop where
  rst_absent : s.rst = .absent ↔ s.cfg.hasResetLine = false
  life : s.life ≠ .uninitialized
  shadow : s.shadow.isSome = true
  busOn : s.busOn = true
  rst_high : s.cfg.hasResetLine = true → s.rst = .high

theorem State.Inv.alive {s : State} (h : s.Inv) (hlife : s.life ≠ .uninitialized) : s.Alive := by
  obtain ⟨hshadow, hbus, hrst, -⟩ := h.up hlife
  exact ⟨h.rst_absent, hlife, hshadow, hbus, hrst⟩

/-- Micro-operations write nothing of it. -/
theorem State.Alive.runSeq {s s' : State} {ms : List Micro} {e : SeqEnd} (h : s.Alive)
    (hrun : runSeq ms s = (e, s')) : s'.cfg = s.cfg ∧ s'.Alive := by
  obtain ⟨hcfg, hlife, hshadow, hrst, hbus, -, -⟩ := runSeq_frame ms s
  rw [hrun] at hcfg hlife hshadow hrst hbus
  refine ⟨hcfg, ?_, ?_, ?_, ?_, ?_⟩
  · rw [hrst, hcfg]
    exact h.rst_absent
  · rw [hlife]
    exact h.life
  · rw [hshadow]
    exact h.shadow
  · rw [hbus]
    exact h.busOn
  · rw [hrst, hcfg]
    exact h.rst_high

/-- What an operation writes back is in the lifetime. -/
theorem State.Alive.writeBack {k : After} {kept : Bool} {s : State} (h : s.Alive) (hk : k.sound kept) :
    (writeBack k s).Alive := by
  obtain ⟨hrst, hlife, hshadow, hbus, hhigh⟩ := h
  cases k with
  | enter l => exact ⟨hrst, hk, hshadow, hbus, hhigh⟩
  | setShadow | adopt => exact ⟨hrst, hlife, rfl, hbus, hhigh⟩
  | _ => exact ⟨hrst, hlife, hshadow, hbus, hhigh⟩

/-- The settle delay falls outside the frame. -/
theorem State.InPhase.writeBack {s : State} (k : After) (h : s.InPhase .idle) :
    (writeBack k s).InPhase .idle := by
  cases k with
  | settle => exact h.append (es := [.dly s.cfg.tCfgMs]) rfl rfl
  | _ => exact h

/-- Between operations, inside the lifetime. -/
theorem State.Alive.framed {s : State} (h : s.Alive) (hjob : s.job = none) (hcs : s.cs = .high)
    (hbuf : s.buf = []) (hp : s.InPhase .idle) : s.Framed := by
  refine ⟨⟨h.rst_absent, fun hdown => absurd hdown h.life, fun _ => ⟨h.shadow, h.busOn, h.rst_high, ?_⟩, hbuf,
    fun j hj => ?_⟩, ?_⟩
  · simp [hcs, hjob]
  · rw [hjob] at hj
    cases hj
  · rw [hcs]
    exact hp

theorem State.Alive.finish_framed {s : State} (h : s.Alive) (hcs : s.cs = .high) (hp : s.InPhase .idle)
    (r : Reply) : (s.finish r).Framed :=
  State.Alive.framed (s := s.finish r) ⟨h.rst_absent, h.life, h.shadow, h.busOn, h.rst_high⟩ rfl hcs rfl hp

/-- The state of an operation at a ready wait, whatever its `job` says. -/
structure State.Waiting (s : State) : Prop where
  alive : s.Alive
  config : configOk s.cfg = true
  cs : s.cs = .low
  latch : s.buf = []
  phase : s.InPhase .selected

/-- Held there, it keeps the frame invariant. -/
theorem State.Waiting.framed {s : State} {j : Job} (h : s.Waiting) (hj : j.Held) :
    ({ s with job := some j } : State).Framed := by
  obtain ⟨⟨hrst, hlife, hshadow, hbus, hhigh⟩, -, hcs, hbuf, hp⟩ := h
  refine ⟨⟨hrst, fun hdown => absurd hdown hlife, fun _ => ⟨hshadow, hbus, hhigh, hcs⟩, hbuf, ?_⟩, ?_⟩
  · rintro _ ⟨⟩
    exact hj
  · show Phase.after .released s.trace = some s.cs.phase
    rw [hcs]
    exact hp

/-- A transaction started from between operations comes to its ready wait. -/
theorem State.Alive.waiting {s : State} (h : s.Alive) (hc : configOk s.cfg = true) (hp : s.InPhase .idle)
    (xs : List Micro) (k : After) : (s.selectedAt xs k).Waiting :=
  ⟨⟨h.rst_absent, h.life, h.shadow, h.busOn, h.rst_high⟩, hc, rfl, rfl, hp.append (es := [.cs .low]) rfl rfl⟩

/-- A job at a ready wait, with fuel for the transactions it may still make, keeps the frame invariant: it
holds at that wait or a later one, gives up, or ends, the select line high between its transactions. -/
theorem runJob_framed (fuel : Nat) : ∀ {left : Option Nat} {xs : List Micro} {k : After} {s : State},
    k.transactions ≤ fuel → Fits xs k → s.Waiting →
    (runJob fuel ⟨.wait left :: (xs ++ [Micro.deselect]), k⟩ s).Framed := by
  induction fuel with
  | zero =>
    intro left xs k s hfuel
    exact absurd (Nat.le_zero.mp hfuel) k.transactions_ne_zero
  | succ fuel ih =>
    intro left xs k s hfuel hfits hs
    obtain ⟨hx, hsound⟩ := hfits
    obtain ⟨left', hleft, hrun⟩ | ⟨e, s', he, hrun, hcs, hp⟩ := runSeq_wait_cases hx left hs.phase
    · rw [runJob_held hrun]
      have hwaiting : s.levelSampled.Waiting :=
        ⟨(hs.alive.runSeq hrun).2, hs.config, hs.cs, hs.latch, hs.phase⟩
      exact hwaiting.framed ⟨left', xs, rfl, hleft, hx, hsound⟩
    obtain ⟨hcfg, halive⟩ := hs.alive.runSeq hrun
    obtain rfl | rfl := he
    · rw [runJob_expired hrun]
      exact halive.finish_framed hcs hp _
    cases hnext : continueWith k s' with
    | reply r =>
      obtain ⟨-, -, -, hcs', -⟩ := writeBack_frame k s'
      rw [runJob_reply hrun hnext]
      exact (halive.writeBack hsound).finish_framed (hcs'.trans hcs) (hp.writeBack k) r
    | go j =>
      have hc : configOk s'.cfg = true := by
        rw [hcfg]
        exact hs.config
      obtain ⟨xs', k', rfl, hfits'⟩ := continueWith_go_fits hc hsound hnext
      have hfewer : k'.transactions < k.transactions := continueWith_go_lt hnext
      have hpos : k'.transactions ≠ 0 := k'.transactions_ne_zero
      obtain ⟨fuel, rfl⟩ := Nat.exists_eq_succ_of_ne_zero (n := fuel) (by omega)
      rw [runJob_go hrun hnext, runJob_transaction]
      exact ih (by omega) hfits' (halive.waiting hc hp xs' k')
    | leave =>
      obtain rfl := continueWith_leave hnext
      exact absurd hsound not_false

/-! ### The invariant over a step -/

/-- The invariant speaks neither of the outside nor of the outcomes. -/
theorem State.Framed.setEnv {s : State} (h : s.Framed) (e : Env) (rs : List Reply) :
    ({ s with env := e, replies := rs } : State).Framed :=
  ⟨⟨h.1.rst_absent, h.1.down, h.1.up, h.1.latch, h.1.held⟩, h.2⟩

theorem State.Framed.answer {s : State} (h : s.Framed) (r : Reply) : (s.answer r).Framed := h.setEnv s.env _

theorem State.Framed.padded {s : State} (h : s.Framed) (i : Instr) : (s.padded i).Framed := by
  simp only [State.padded]
  split
  · exact h.setEnv _ s.replies
  · exact h

/-- Between operations in the lifetime the select line is high. -/
theorem State.Framed.idle {s : State} (h : s.Framed) (hjob : s.job = none) (hlife : s.life ≠ .uninitialized) :
    s.cs = .high ∧ s.InPhase .idle := by
  obtain ⟨-, -, -, hcs⟩ := h.1.up hlife
  have hhigh : s.cs = .high := by simpa [hjob] using hcs
  refine ⟨hhigh, ?_⟩
  have hp := h.2
  rwa [hhigh] at hp

theorem bringUpEvents_after (c : Params) : Phase.after .released (bringUpEvents c) = some .idle := by
  cases hline : c.hasResetLine <;> cases hpulse : c.initHwReset <;>
    simp [bringUpEvents, hline, hpulse, Phase.after, Phase.next]

theorem tearDownEvents_after (c : Params) : Phase.after .idle (tearDownEvents c) = some .released := by
  cases hline : c.hasResetLine <;> simp [tearDownEvents, hline, Phase.after, Phase.next]

/-- Where there is a reset line, driving it leaves it present. -/
theorem rst_absent_ite {driven before : RstLine} {line : Bool} (hdriven : driven ≠ .absent)
    (hbefore : before = .absent ↔ line = false) :
    (if line then driven else before) = .absent ↔ line = false := by
  cases line with
  | false => simpa using hbefore
  | true => simpa using hdriven

theorem bringUp_framed {s : State} (h : s.Framed) (hdown : s.life = .uninitialized) : (bringUp s).Framed := by
  obtain ⟨hinv, hp⟩ := h
  obtain ⟨-, hcs, -, hjob, -⟩ := hinv.down hdown
  rw [hcs] at hp
  rw [bringUp_eq]
  exact State.Alive.framed
    ⟨rst_absent_ite nofun hinv.rst_absent, nofun, rfl, rfl, fun hline => if_pos hline⟩ hjob rfl hinv.latch
    (State.InPhase.append hp rfl (bringUpEvents_after s.cfg))

theorem tearDown_framed {s : State} (h : s.Framed) (hjob : s.job = none) (hlife : s.life ≠ .uninitialized) :
    (tearDown s).Framed := by
  obtain ⟨-, hp⟩ := h.idle hjob hlife
  rw [tearDown_eq]
  refine ⟨⟨rst_absent_ite nofun h.1.rst_absent, fun _ => ⟨rfl, rfl, rfl, hjob, fun hline => if_pos hline⟩,
    fun hup => absurd rfl hup, h.1.latch, fun j hj => ?_⟩,
    State.InPhase.append hp rfl (tearDownEvents_after s.cfg)⟩
  exact absurd (hjob.symm.trans hj) nofun

theorem hwResetPulse_framed {s : State} (h : s.Framed) (hjob : s.job = none) (hlife : s.life ≠ .uninitialized)
    (hline : s.cfg.hasResetLine = true) : ({ hwResetPulse s with life := .ready } : State).Framed := by
  obtain ⟨hcs, hp⟩ := h.idle hjob hlife
  obtain ⟨-, -, hshadow, hbus, -⟩ := h.1.alive hlife
  have habsent : RstLine.high = .absent ↔ s.cfg.hasResetLine = false := by simp [hline]
  have halive : ({ hwResetPulse s with life := .ready } : State).Alive :=
    ⟨habsent, by simp, hshadow, hbus, fun _ => rfl⟩
  exact halive.framed hjob hcs h.1.latch (hp.append (hwResetPulse_trace s) rfl)

theorem issued_framed {i : Instr} {s t : State} (h : s.Framed) (hc : configOk s.cfg = true)
    (hjob : s.job = none) (hi : Issued i s t) : t.Framed := by
  cases hi with
  | answer r => exact h.answer r
  | nothing r =>
    rw [State.finish_eq_answer r hjob h.1.latch]
    exact h.answer r
  | bringUp _ hdown => exact (bringUp_framed h hdown).answer _
  | tearDown _ hlife => exact (tearDown_framed h hjob hlife).answer _
  | pulse _ hlife hline => exact (hwResetPulse_framed h hjob hlife hline).answer _
  | opens xs k hfirst ha =>
    obtain ⟨-, -, hlife, -⟩ := ha
    obtain ⟨-, hp⟩ := h.idle hjob hlife
    have halive : (s.padded i).Alive := (h.padded i).1.alive (by rwa [State.padded_life])
    have hwaiting : ((s.padded i).selectedAt xs k).Waiting :=
      halive.waiting (by rwa [State.padded_cfg]) (by rwa [State.InPhase, State.padded_trace]) xs k
    rw [State.start, maxTransactions, ← State.padded_cfg i s, runJob_transaction]
    exact runJob_framed _ k.transactions_le (firstTransaction_fits hfirst) hwaiting

/-- Settles O47: a held operation goes on from its ready wait, an issued one from between operations. -/
theorem everyStepKeepsTheFrameInvariant : Obligations.EveryStepKeepsTheFrameInvariant := by
  intro s t h hstep
  have hc : configOk s.cfg = true := by
    by_contra hc
    rw [step_of_not_configOk hc] at hstep
    cases hstep
  cases step_stepped hstep with
  | wait _ _ => exact h
  | reject d rest e _ _ _ => exact h.setEnv _ _
  | run d rest i hjob _ hd hexec =>
    obtain ⟨-, -, hwire⟩ := decode_eq_ok_iff_encode.mp hd
    have haccepted : (s.accepted rest).Framed := h.setEnv _ s.replies
    exact issued_framed haccepted hc hjob (exec_issued (s := s.accepted rest) hwire hc hexec).2
  | resume j hj =>
    have hlife : s.life ≠ .uninitialized := by
      intro hdown
      obtain ⟨-, -, -, hnone, -⟩ := h.1.down hdown
      rw [hj] at hnone
      cases hnone
    obtain ⟨-, -, -, hcs⟩ := h.1.up hlife
    have hlow : s.cs = .low := by simpa [hj] using hcs
    have hp : s.InPhase .selected := by
      have hp := h.2
      rwa [hlow] at hp
    obtain ⟨left, xs, hseq, -, hfits⟩ := Job.held_iff.mp (h.1.held j hj)
    obtain ⟨seq, k⟩ := j
    subst hseq
    exact runJob_framed _ k.transactions_le hfits ⟨h.1.alive hlife, hc, hlow, h.1.latch, hp⟩

end Sys2Proof.Machine
end

section
/-! SUPPORT. Register accesses with a peer ready at once: the statements of 41_register_access.md. -/

namespace Sys2Proof.Machine

/-- Settles O24: the read's one transaction ends the operation with the payload latched. -/
theorem readRegisterReturnsThePayload : Obligations.ReadRegisterReturnsThePayload :=
  fun _ _ _ hadmits hanswers hn => exec_readRegister_ready hadmits hanswers (Nat.one_le_iff_ne_zero.mp hn)

/-- Settles O26: the write's one transaction latches nothing and ends the operation. -/
theorem writeRegisterSendsTheBytes : Obligations.WriteRegisterSendsTheBytes :=
  fun _ _ _ hadmits hanswers hbytes => exec_writeRegister_ready hadmits hanswers hbytes

/-! ### updateRegister (rule R123) -/

theorem exec_updateRegister {s : State} {a : Addr} {bits : Byte} (h : s.Admits (.updateRegister a bits)) :
    exec (.updateRegister a bits) s = .next (s.start (readSeq s.cfg a 1) (.merge a bits)) := by
  rw [exec, execUpdateRegister, issueSeq, issue_admitted h]

/-- What follows the read depends on the state by its configuration and the byte read alone. -/
theorem continueWith_merge {s : State} {old : Byte} (a : Addr) (bits : Byte) (h : s.firstByte = old) :
    continueWith (.merge a bits) s =
      if old ||| bits = old then .reply (.done .none) else .go ⟨writeSeq s.cfg a [old ||| bits], .ack⟩ := by
  rw [← h, continueWith]

/-- The first byte of a latch that holds the payload of a one-byte read. -/
theorem State.firstByte_setBuf_payload_one (s t : State) (k : Nat) :
    ({ t with buf := s.payload k 1 } : State).firstByte = s.byteAt k := by
  rw [State.payload_one]
  rfl

/-- Settles O27: the continuation of the read tests the byte read, and the write back starts where the read's
transaction ended. -/
theorem updateRegisterWritesOnlyAChange : Obligations.UpdateRegisterWritesOnlyAChange := by
  intro s a bits hadmits hanswers
  set t : State := s.exchanged (readFrame a 1)
  have hread := runSeq_readSeq_start a (State.answers_mono hanswers one_le_two) one_ne_zero
  have hafter := continueWith_merge a bits (State.firstByte_setBuf_payload_one s t (headerLength a))
  rw [exec_updateRegister hadmits, State.start, maxTransactions]
  dsimp only
  split
  case isTrue hsame =>
    rw [if_pos hsame] at hafter
    exact congrArg _ (runJob_ends hread hafter)
  case isFalse hchange =>
    rw [if_neg hchange] at hafter
    have hwrite := runSeq_writeSeq_start a (State.answers_exchanged (readFrame a 1) hanswers)
      (List.cons_ne_nil (s.byteAt (headerLength a) ||| bits) [])
    exact congrArg _ ((runJob_continues hread hafter).trans (runJob_ends hwrite rfl))

end Sys2Proof.Machine
end

section
/-! SUPPORT. The strobe command: the statements of 42_command_strobe.md. -/

namespace Sys2Proof.Machine

theorem exec_strobe {s : State} {c : Byte} (h : s.Admits (.strobe c)) :
    exec (.strobe c) s = .next (s.start (strobeSeq s.cfg c) .ack) := by
  rw [exec, execStrobe, issueSeq, issue_admitted h]

theorem isStrobe_eq_false_iff {c : Byte} : isStrobe c = false ↔ c < 0x30#8 ∨ 0x3D#8 < c := by
  rw [Bool.eq_false_iff, ne_eq, isStrobe_iff, not_and_or, BitVec.not_le, BitVec.not_le]

/-- A strobe in range is one transaction of one exchange: its byte, unchanged. -/
theorem exec_strobe_ready {s : State} {c : Byte} (h : s.Admits (.strobe c)) (hanswers : s.Answers 1)
    (hvalid : isStrobe c = true) :
    exec (.strobe c) s = .next ((s.exchanged [c]).finish (.done .none)) :=
  (exec_strobe h).trans (congrArg _ (runJob_ends (runSeq_strobeSeq_start hanswers hvalid) rfl))

/-- A strobe out of range has no transaction. -/
theorem exec_strobe_dropped {s : State} {c : Byte} (h : s.Admits (.strobe c)) (hinvalid : isStrobe c = false) :
    exec (.strobe c) s = .next (s.finish (.done .none)) := by
  have hnone : strobeSeq s.cfg c = [] := if_neg (Bool.eq_false_iff.mp hinvalid)
  rw [exec_strobe h, hnone, State.start_nil rfl rfl]

/-- Settles O28: the two ranges are those of a valid and of an invalid strobe. -/
theorem strobeSendsItsByte : Obligations.StrobeSendsItsByte :=
  fun _ _ hadmits =>
    ⟨fun hmin hmax hanswers => exec_strobe_ready hadmits hanswers (isStrobe_iff.mpr ⟨hmin, hmax⟩),
      fun hout => exec_strobe_dropped hadmits (isStrobe_eq_false_iff.mpr hout)⟩

/-- Settles O8: the order of bytes is that of their numbers; the boundary values and the count are evaluated. -/
theorem strobeRangeIsThirtyToThreeD : Obligations.StrobeRangeIsThirtyToThreeD :=
  ⟨fun _ => isStrobe_iff, rfl, rfl, rfl, rfl, rfl⟩

end Sys2Proof.Machine
end

section
/-! SUPPORT. The status reader: the statements of 43_status_reader.md. -/

namespace Sys2Proof.Machine

/-! ### maskShift (rule R135) -/

theorem maskShift_left {k : Nat} (hk : k ≤ 8) (b mask : Byte) :
    maskShift b mask (-(k : Int)) = (b &&& mask) <<< k := by
  obtain rfl | hpos := Nat.eq_zero_or_pos k
  · simp [maskShift]
  · have hright : ¬ ((1 : Int) ≤ -(k : Int) ∧ -(k : Int) ≤ 8) := by omega
    have hleft : (-8 : Int) ≤ -(k : Int) ∧ -(k : Int) ≤ -1 := by omega
    have hamount : (0 - -(k : Int)).toNat = k := by omega
    rw [maskShift, if_neg hright, if_pos hleft, hamount]

theorem maskShift_unshifted {shift : Int} (h : shift = 0 ∨ 8 < shift ∨ shift < -8) (b mask : Byte) :
    maskShift b mask shift = b &&& mask := by
  have hright : ¬ (1 ≤ shift ∧ shift ≤ 8) := by omega
  have hleft : ¬ (-8 ≤ shift ∧ shift ≤ -1) := by omega
  rw [maskShift, if_neg hright, if_neg hleft]

/-- A right shift reads nothing above bit 7. -/
theorem getLsbD_ushiftRight_and (b mask : Byte) (k i : Nat) :
    ((b &&& mask) >>> k).getLsbD i = (decide (i + k < 8) && (b.getLsbD (i + k) && mask.getLsbD (i + k))) := by
  rw [BitVec.getLsbD_ushiftRight, BitVec.getLsbD_and, Nat.add_comm k i]
  by_cases h : i + k < 8
  · simp [h]
  · simp [h, BitVec.getLsbD_of_ge b (i + k) (by omega)]

/-- A left shift fills the bits below its amount with 0; what it moves above bit 7 is dropped (D26). -/
theorem getLsbD_shiftLeft_and (b mask : Byte) (k : Nat) {i : Nat} (hi : i < 8) :
    ((b &&& mask) <<< k).getLsbD i = (decide (k ≤ i) && (b.getLsbD (i - k) && mask.getLsbD (i - k))) := by
  rw [BitVec.getLsbD_shiftLeft, BitVec.getLsbD_and]
  by_cases h : k ≤ i
  · simp [hi, h]
  · simp [hi, h, Nat.lt_of_not_le h]

/-- Settles O9: in each range of the amount maskShift is that shift of the masked byte, or the masked byte. -/
theorem maskThenShiftBitByBit : Obligations.MaskThenShiftBitByBit := by
  intro raw keep shift i hi
  refine ⟨?_, ?_, fun hother => ?_⟩
  · rintro k rfl - hk
    rw [maskShift_right hk, getLsbD_ushiftRight_and]
  · rintro k rfl - hk
    rw [maskShift_left hk, getLsbD_shiftLeft_and raw keep k hi]
  · rw [maskShift_unshifted hother, BitVec.getLsbD_and]

/-! ### The addresses of the status types (rule R137) -/

theorem statusAddress_mem {c : Params} {t : StatusType} {a : Addr} (h : statusAddress c t = some a) :
    a ∈ statusAddresses c := by
  cases t with
  | status => cases h
  | marcState | marcStatus0 | marcStatus1 | modemStatus0 | modemStatus1 =>
    cases h
    simp [statusAddresses]

theorem statusAddress_highByte {c : Params} (hc : configOk c = true) {t : StatusType} {a : Addr}
    (h : statusAddress c t = some a) : highByte a = 0x2F#8 := by
  obtain ⟨-, haddr, -⟩ := configOk_iff.mp hc
  exact isExtended_iff.mp (haddr a (statusAddress_mem h))

/-- Settles O11: the lookup is its table; an Extended address has the two-byte header. -/
theorem statusTypesMapToExtendedAddresses : Obligations.StatusTypesMapToExtendedAddresses := by
  refine fun c => ⟨rfl, rfl, rfl, rfl, rfl, fun hc t a ht => ?_⟩
  rw [hdr_eq, if_pos (statusAddress_highByte hc ht)]
  rfl

/-! ### getStatus (rule R136) -/

theorem statusSeq_register {c : Params} {t : StatusType} {a : Addr} (h : statusAddress c t = some a) :
    statusSeq c t = readSeq c a 1 := by
  simp only [statusSeq, h]

/-- The register's byte is the one returned with the dummy, after those returned with the header. -/
theorem runSeq_statusSeq_register_start {s : State} {t : StatusType} {a : Addr} (h : s.Answers 1)
    (ht : statusAddress s.cfg t = some a) :
    runSeq (statusSeq s.cfg t) { s with buf := [] } =
      (.done, { s.exchanged (readFrame a 1) with buf := [s.byteAt (headerLength a)] }) := by
  rw [statusSeq_register ht, runSeq_readSeq_start a h one_ne_zero, State.payload_one]

section GetStatus

variable {s : State} {t : StatusType} {keep : Byte} {shift : Int} (h : s.Admits (.getStatus t keep shift))
include h

theorem exec_getStatus :
    exec (.getStatus t keep shift) s = .next (s.start (statusSeq s.cfg t) (.masked keep shift)) := by
  rw [exec, execGetStatus, issueSeq, issue_admitted h]

/-- A status query that latches one byte ends with that byte, masked and shifted. -/
theorem exec_getStatus_of_latched {u : State} {b : Byte}
    (hrun : runSeq (statusSeq s.cfg t) { s with buf := [] } = (.done, { u with buf := [b] })) :
    exec (.getStatus t keep shift) s = .next (u.finish (.done (.byte (maskShift b keep shift)))) :=
  (exec_getStatus h).trans (congrArg _ (runJob_ends (t := u) (kept := [b]) hrun rfl))

end GetStatus

/-- Settles O31: the no-op strobe and the register read each latch the one byte. -/
theorem getStatusReadsMasksAndShifts : Obligations.GetStatusReadsMasksAndShifts := by
  intro s t keep shift hadmits hanswers
  cases ht : statusAddress s.cfg t with
  | none => exact exec_getStatus_of_latched hadmits (runSeq_statusSeq_strobe_start hanswers ht)
  | some a => exact exec_getStatus_of_latched hadmits (runSeq_statusSeq_register_start hanswers ht)

end Sys2Proof.Machine
end

section
/-! SUPPORT. The FIFO manager: the statements of 44_fifo_manager.md. -/

namespace Sys2Proof.Machine

/-! ### Accesses to the FIFO (rules R90, R140) -/

theorem headerLength_fifoAddr : headerLength fifoAddr = 1 := rfl

/-- A read of one byte takes the single-access header, one of any other length the burst header (C3). -/
theorem readFrame_fifoAddr (n : Nat) :
    readFrame fifoAddr n = (if n = 1 then 0xBF#8 else 0xFF#8) :: List.replicate n 0xFF#8 := by
  by_cases h : n = 1
  · rw [if_pos h, h]
    rfl
  · have hburst : opcode .read n = opReadBurst := if_neg h
    rw [if_neg h, readFrame, hdr, hburst]
    rfl

theorem writeFrame_fifoAddr {bs : List Byte} (h : bs.length ≠ 1) : writeFrame fifoAddr bs = 0x7F#8 :: bs := by
  have hburst : opcode .write bs.length = opWriteBurst := if_neg h
  rw [writeFrame, hdr, hburst]
  rfl

/-! ### readRxFifo (rule R141) -/

theorem exec_readRxFifo {s : State} (h : s.Admits .readRxFifo) :
    exec .readRxFifo s = .next (s.start (readSeq s.cfg s.cfg.addrNumRxBytes 1) .drain) := by
  rw [exec, execReadRxFifo, issueSeq, issue_admitted h]

/-- What follows the count read depends on the state by its configuration and the count alone. -/
theorem continueWith_drain {s : State} {count : Byte} (h : s.firstByte = count) :
    continueWith .drain s =
      if count.toNat = 0 then .reply (.done (.bytes [])) else .go ⟨readSeq s.cfg fifoAddr count.toNat, .bytes⟩ := by
  rw [← h, continueWith]

/-- Settles O32: the continuation of the count read tests the count, and the FIFO read starts where the count
read's transaction ended. -/
theorem readRxFifoReadsTheCountedBytes : Obligations.ReadRxFifoReadsTheCountedBytes := by
  intro s hadmits hanswers
  set t : State := s.exchanged (readFrame s.cfg.addrNumRxBytes 1)
  have hcount := runSeq_readSeq_start s.cfg.addrNumRxBytes (State.answers_mono hanswers one_le_two) one_ne_zero
  have hafter := continueWith_drain (State.firstByte_setBuf_payload_one s t (headerLength s.cfg.addrNumRxBytes))
  rw [exec_readRxFifo hadmits, State.start, maxTransactions]
  dsimp only
  split
  case isTrue hempty =>
    rw [if_pos hempty] at hafter
    exact congrArg _ (runJob_ends hcount hafter)
  case isFalse hsome =>
    rw [if_neg hsome] at hafter
    have hread := runSeq_readSeq_start fifoAddr
      (State.answers_exchanged (readFrame s.cfg.addrNumRxBytes 1) hanswers) hsome
    rw [readFrame_fifoAddr, headerLength_fifoAddr] at hread
    exact congrArg _ ((runJob_continues hcount hafter).trans (runJob_ends hread rfl))

/-! ### writeTxFifo (rule R142) -/

theorem exec_writeTxFifo {s : State} {bs : List Byte} (h : s.Admits (.writeTxFifo bs)) :
    exec (.writeTxFifo bs) s =
      if bs.length ≤ 2 then .next (s.answer (.done .none))
      else .next (s.padDrawn.start (writeSeq s.cfg fifoAddr (bs ++ [s.nextPad])) .ack) := by
  rw [exec, execWriteTxFifo, issue_admitted h]

/-- The pad draw and a transaction do not read what the other writes. -/
theorem State.padDrawn_exchanged (sent : List Byte) (s : State) :
    s.padDrawn.exchanged sent = (s.exchanged sent).padDrawn := by
  have h := State.exchangesFrom_congr (s := s) (t := s.padDrawn) (fun _ => rfl) sent 0
  simp only [State.exchanged, h]
  rfl

/-- Settles O33: with its pad byte a buffer above two bytes is no single access, and the write latches nothing. -/
theorem writeTxFifoAppendsOneByte : Obligations.WriteTxFifoAppendsOneByte := by
  intro s bs hadmits
  rw [exec_writeTxFifo hadmits]
  refine ⟨fun hshort => if_pos hshort, fun hlong hanswers => (if_neg (by omega)).trans ?_⟩
  have hburst : (bs ++ [s.nextPad]).length ≠ 1 := by
    rw [List.length_append, List.length_singleton]
    omega
  have hwrite := runSeq_writeSeq_start (s := s.padDrawn) fifoAddr hanswers
    (List.append_ne_nil_of_right_ne_nil bs (List.cons_ne_nil s.nextPad []))
  rw [writeFrame_fifoAddr hburst, State.padDrawn_exchanged] at hwrite
  exact congrArg _ (runJob_ends hwrite rfl)

/-! ### resolveFifoError (rule R143) -/

theorem exec_resolveFifoError {s : State} (h : s.Admits .resolveFifoError) :
    exec .resolveFifoError s = .next (s.start (statusSeq s.cfg .marcState) .rxTest) := by
  rw [exec, execResolveFifoError, issueSeq, issue_admitted h]

theorem txDecide_marcState (c : Params) (v : Byte) (count : Nat) :
    txDecide c (marcState v) count =
      if v.extractLsb' 0 5 = 22#5 then .go ⟨strobeSeq c c.strobeSFTX, .txFlushed count⟩
      else .reply (.done (.count count)) := by
  simp only [txDecide, marcState_eq_txFifoErr_iff]

/-- The RX test on a latched sample. -/
theorem continueWith_rxTest (s : State) (v : Byte) :
    continueWith .rxTest { s with buf := [v] } =
      if v.extractLsb' 0 5 = 17#5 then .go ⟨strobeSeq s.cfg s.cfg.strobeSFRX, .rxFlushed⟩
      else if s.cfg.resolveSingleSample then txDecide s.cfg (marcState v) 0
      else marcSample s.cfg (.txTest 0) := by
  simp only [continueWith, State.firstByte_mk, marcState_eq_rxFifoErr_iff]

section Resolve

variable {s : State} (hc : configOk s.cfg = true)
include hc

/-- MarcState is an Extended address, so the sampled byte is the one after two header bytes. -/
theorem runSeq_marcState_start (h : s.Answers 1) :
    runSeq (statusSeq s.cfg .marcState) { s with buf := [] } =
      (.done, { s.exchanged (readFrame s.cfg.addrMarcState 1) with buf := [s.byteAt 2] }) := by
  have hlength : headerLength s.cfg.addrMarcState = 2 :=
    if_pos (isExtended_iff.mpr (statusAddress_highByte hc (t := .marcState) rfl))
  rw [← hlength]
  exact runSeq_statusSeq_register_start h rfl

/-- A strobe parameter is in range, so its strobe is sent. -/
theorem runSeq_strobe_parameter_start (h : s.Answers 1) {v : Byte} (hv : v ∈ strobes s.cfg) :
    runSeq (strobeSeq s.cfg v) { s with buf := [] } = (.done, { s.exchanged [v] with buf := [] }) :=
  runSeq_strobeSeq_start h (isStrobe_of_configOk hc hv)

/-- A first sample of code 17 asks for the RX flush. -/
theorem runJob_rxTest_flush (fuel : Nat) (h : s.Answers 1) (hrx : (s.byteAt 2).extractLsb' 0 5 = 17#5) :
    runJob (fuel + 1) ⟨statusSeq s.cfg .marcState, .rxTest⟩ { s with buf := [] } =
      runJob fuel ⟨strobeSeq s.cfg s.cfg.strobeSFRX, .rxFlushed⟩
        { s.exchanged (readFrame s.cfg.addrMarcState 1) with buf := [] } :=
  runJob_continues (runSeq_marcState_start hc h) ((continueWith_rxTest _ _).trans (if_pos hrx))

/-- With two samples the RX flush is followed by the second. -/
theorem runJob_rxFlushed_two (fuel : Nat) (h : s.Answers 1) (htwo : s.cfg.resolveSingleSample = false) :
    runJob (fuel + 1) ⟨strobeSeq s.cfg s.cfg.strobeSFRX, .rxFlushed⟩ { s with buf := [] } =
      runJob fuel ⟨statusSeq s.cfg .marcState, .txTest 1⟩
        { s.exchanged [s.cfg.strobeSFRX] with buf := [] } :=
  runJob_continues (runSeq_strobe_parameter_start hc h (by simp [strobes]))
    (if_neg (Bool.eq_false_iff.mp htwo))

/-- With a single sample, of code 17 and so not 22, the RX flush ends the operation. -/
theorem runJob_rxFlushed_single (fuel : Nat) (h : s.Answers 1) (hsingle : s.cfg.resolveSingleSample = true) :
    runJob (fuel + 1) ⟨strobeSeq s.cfg s.cfg.strobeSFRX, .rxFlushed⟩ { s with buf := [] } =
      (s.exchanged [s.cfg.strobeSFRX]).finish (.done (.count 1)) :=
  runJob_ends (runSeq_strobe_parameter_start hc h (by simp [strobes])) (if_pos hsingle)

/-- The TX flush ends the operation and counts itself. -/
theorem runJob_txFlushed (fuel count : Nat) (h : s.Answers 1) :
    runJob (fuel + 1) ⟨strobeSeq s.cfg s.cfg.strobeSFTX, .txFlushed count⟩ { s with buf := [] } =
      (s.exchanged [s.cfg.strobeSFTX]).finish (.done (.count (count + 1))) :=
  runJob_ends (runSeq_strobe_parameter_start hc h (by simp [strobes])) rfl

/-- A sample whose continuation is the TX test, with `count` flushes before: the TX flush where the code is 22. -/
theorem runJob_txDecide {k : After} (fuel count : Nat) (h : s.Answers 2)
    (hk : continueWith k { s.exchanged (readFrame s.cfg.addrMarcState 1) with buf := [s.byteAt 2] } =
      txDecide s.cfg (marcState (s.byteAt 2)) count)
    (hw : ∀ u, writeBack k u = u) :
    runJob (fuel + 2) ⟨statusSeq s.cfg .marcState, k⟩ { s with buf := [] } =
      (let t := s.exchanged (readFrame s.cfg.addrMarcState 1)
       if (s.byteAt 2).extractLsb' 0 5 = 22#5 then
         (t.exchanged [s.cfg.strobeSFTX]).finish (.done (.count (count + 1)))
       else t.finish (.done (.count count))) := by
  have hsample := runSeq_marcState_start hc (State.answers_mono h one_le_two)
  rw [txDecide_marcState] at hk
  dsimp only
  split
  case isTrue htx =>
    rw [if_pos htx] at hk
    exact (runJob_continues hsample hk).trans
      (runJob_txFlushed (s := s.exchanged _) hc fuel count (State.answers_exchanged _ h))
  case isFalse hother =>
    rw [if_neg hother] at hk
    rw [runJob_ends hsample hk, hw]
    rfl

end Resolve

/-- Settles O34: the RX half, with or without its flush, comes to the second sample, and the TX half runs from
there. -/
theorem resolveFifoErrorTwoSamples : Obligations.ResolveFifoErrorTwoSamples := by
  intro s hc hadmits htwo hanswers
  have hanswers₁ : s.Answers 1 := State.answers_mono hanswers (by omega)
  have hanswers₃ := State.answers_exchanged (readFrame s.cfg.addrMarcState 1) hanswers
  rw [exec_resolveFifoError hadmits, State.start, maxTransactions]
  refine congrArg _ ?_
  by_cases hrx : (s.byteAt 2).extractLsb' 0 5 = 17#5
  · have hflush := runJob_rxFlushed_two (s := s.exchanged _) hc 2 (State.answers_mono hanswers₃ (by omega)) htwo
    have htest := runJob_txDecide (s := (s.exchanged _).exchanged [s.cfg.strobeSFRX]) (k := .txTest 1) hc 0 1
      (State.answers_exchanged _ hanswers₃) rfl (fun _ => rfl)
    simp only [if_pos hrx]
    refine (runJob_rxTest_flush hc 3 hanswers₁ hrx).trans (hflush.trans (htest.trans ?_))
    dsimp only [State.exchanged_cfg]
    split <;> rfl
  · have hpass := (continueWith_rxTest (s.exchanged (readFrame s.cfg.addrMarcState 1)) (s.byteAt 2)).trans
      ((if_neg hrx).trans (if_neg (Bool.eq_false_iff.mp htwo)))
    have htest := runJob_txDecide (s := s.exchanged _) (k := .txTest 0) hc 1 0
      (State.answers_mono hanswers₃ (by omega)) rfl (fun _ => rfl)
    simp only [if_neg hrx]
    refine (runJob_continues (runSeq_marcState_start hc hanswers₁) hpass).trans (htest.trans ?_)
    dsimp only [State.exchanged_cfg]
    split <;> rfl

/-- Settles O35: a code of 17 asks for the RX flush alone, any other leaves the decision to the TX test of the same
sample. -/
theorem resolveFifoErrorSingleSample : Obligations.ResolveFifoErrorSingleSample := by
  intro s hc hadmits hsingle hanswers
  rw [exec_resolveFifoError hadmits, State.start, maxTransactions]
  dsimp only
  split
  case isTrue hrx =>
    have hflush := runJob_rxFlushed_single (s := s.exchanged (readFrame s.cfg.addrMarcState 1)) hc 2
      (State.answers_exchanged _ hanswers) hsingle
    exact congrArg _ ((runJob_rxTest_flush hc 3 (State.answers_mono hanswers one_le_two) hrx).trans hflush)
  case isFalse hrx =>
    have hpass := (continueWith_rxTest (s.exchanged (readFrame s.cfg.addrMarcState 1)) (s.byteAt 2)).trans
      ((if_neg hrx).trans (if_pos hsingle))
    rw [runJob_txDecide hc 2 0 hanswers hpass (fun _ => rfl)]
    exact apply_ite _ _ _ _

end Sys2Proof.Machine
end

section
/-! SUPPORT. The device controller: the statements of 45_device_controller.md. -/

namespace Sys2Proof.Machine

/-! ### The lifetime check (rule R165) -/

theorem issue_notInitialized {i : Instr} {s : State} (he : s.engaged = false) (hw : i.wf = true)
    (hl : s.life = .uninitialized) (body : State → Answer) :
    issue i s body = .next (s.answer (.refused .notInitialized)) := by
  simp [issue, he, hw, hl]

/-- Settles O20: every host operation but `init` is issued through the lifetime check. -/
theorem operationsOutsideTheLifetimeAreRefused : Obligations.OperationsOutsideTheLifetimeAreRefused := by
  intro s i hwire hinit hw he hl
  obtain ⟨body, hbody⟩ := exec_eq_issue hwire hinit s
  rw [hbody]
  exact issue_notInitialized he hw hl body

/-- `init` has a lifetime check of its own, the other way round. -/
theorem exec_init {s : State} (he : s.engaged = false) :
    exec .init s = if s.life = .uninitialized then .next ((bringUp s).answer (.done .none))
      else .next (s.answer (.refused .alreadyInitialized)) :=
  if_neg (Bool.eq_false_iff.mp he)

/-- Settles O21: the check of `init` fails in every initialized state. -/
theorem initIsRefusedWhileInitialized : Obligations.InitIsRefusedWhileInitialized :=
  fun _ he hl => (exec_init he).trans (if_neg hl)

/-! ### The lifecycle operations (rules R152 to R154, R164) -/

/-- Settles O38: an admitted `init` runs its body, whose fields `bringUp_eq` gives. -/
theorem initBringsTheEngineUp : Obligations.InitBringsTheEngineUp := by
  intro s he hl
  rw [exec_init he, if_pos hl, bringUp_eq]
  rfl

theorem exec_shutdown {s : State} (h : s.Admits .shutdown) :
    exec .shutdown s = .next ((tearDown s).answer (.done .none)) := by
  rw [exec, execShutdown, issue_admitted h]

/-- Settles O39: an admitted `shutdown` runs its body, whose fields `tearDown_eq` gives. -/
theorem shutdownReleasesThePins : Obligations.ShutdownReleasesThePins := by
  intro s h
  rw [exec_shutdown h, tearDown_eq]
  rfl

theorem hwResetPulse_eq (s : State) : hwResetPulse s = { s with
    rst := .high
    trace := s.trace ++
      [Event.rst .low, Event.dly s.cfg.tRstLowMs, Event.rst .high, Event.dly s.cfg.tRstHighMs] } := by
  simp [hwResetPulse, State.driveRst, State.delayMs, State.log]

/-- Without the reset line the same operation is a strobe. -/
theorem exec_reset_pulse {s : State} (h : s.Admits (.reset true)) (hline : s.cfg.hasResetLine = true) :
    exec (.reset true) s = .next ({ hwResetPulse s with life := .ready }.answer (.done .none)) := by
  rw [exec, execReset, issue_admitted h, Bool.true_and, if_pos hline]

/-- Settles O30: the pulse writes the reset line and the trace, `reset` then `life`. -/
theorem hardwareResetPulsesTheLine : Obligations.HardwareResetPulsesTheLine := by
  intro s h hline
  rw [exec_reset_pulse h hline, hwResetPulse_eq]
  rfl

/-! ### The semantic strobes (rules R153, R156 to R161, R167) -/

/-- A transaction of one exchange whose answer is discarded latches nothing. -/
theorem runSeq_send_start {s : State} (h : s.Answers 1) (v : Byte) :
    runSeq (transaction s.cfg [.send v]) { s with buf := [] } =
      (.done, { s.exchanged [v] with buf := [] }) := by
  rw [← State.exchanged_setBuf]
  exact runSeq_transaction_send (s := { s with buf := [] }) [v] h

/-- An operation whose one transaction is the exchange of `v`, with a peer ready at once. -/
theorem exec_one_exchange_ready {i : Instr} {s : State} {v : Byte} {k : After} {r : Reply}
    (hc : configOk s.cfg = true) (ha : s.Admits i) (hp : s.Answers 1)
    (hfirst : firstTransaction s.cfg s.nextPad i = some ([.send v], k)) (hpad : s.padded i = s)
    (hk : continueWith k { s.exchanged [v] with buf := [] } = .reply r) :
    exec i s = .next ((writeBack k { s.exchanged [v] with buf := [] }).finish r) := by
  rw [exec_opens hc hfirst ha, hpad]
  exact congrArg _ (runJob_ends (runSeq_send_start hp v) hk)

/-- Settles O29: the first transaction of each operation is the exchange of its parameter, and its continuation
writes `life` or nothing. -/
theorem semanticStrobesEnterTheirState : Obligations.SemanticStrobesEnterTheirState := by
  intro s hc he hl hp
  have admits : ∀ {i : Instr}, i.wf = true → addresses s.cfg i = [] → s.Admits i := fun hw ha =>
    ⟨he, hw, hl, by rw [namesBadAddress, ha, List.any_nil]⟩
  have enters : ∀ {i : Instr} {v : Byte} {l : Life}, s.Admits i → s.padded i = s →
      firstTransaction s.cfg s.nextPad i = some ([.send v], .enter l) →
      exec i s = .next ({ s.exchanged [v] with life := l }.finish (.done .none)) :=
    fun ha hpad hfirst => exec_one_exchange_ready hc ha hp hfirst hpad rfl
  have acks : ∀ {i : Instr} {v : Byte}, s.Admits i → s.padded i = s →
      firstTransaction s.cfg s.nextPad i = some ([.send v], .ack) →
      exec i s = .next ((s.exchanged [v]).finish (.done .none)) :=
    fun ha hpad hfirst => exec_one_exchange_ready hc ha hp hfirst hpad rfl
  refine ⟨enters (admits rfl rfl) rfl rfl, enters (admits rfl rfl) rfl rfl, enters (admits rfl rfl) rfl rfl,
    enters (admits rfl rfl) rfl rfl, acks (admits rfl rfl) rfl rfl, acks (admits rfl rfl) rfl rfl,
    fun hardware hstrobe => enters (admits rfl rfl) rfl (if_neg ?_)⟩
  obtain h | h := hstrobe <;> simp [h]

/-! ### Configuration (rules R97, R155) -/

theorem exec_configure {s : State} {es : List Setting} (h : s.Admits (.configure es)) :
    exec (.configure es) s = .next (s.start (configureSeq s.cfg es) .settle) := by
  rw [exec, execConfigure, issueSeq, issue_admitted h]

/-- Settles O40: the batch is one transaction, whose continuation is the settle delay. -/
theorem configureSendsOneBatch : Obligations.ConfigureSendsOneBatch :=
  fun _ es hadmits hanswers =>
    (exec_configure hadmits).trans (congrArg _ (runJob_ends (runSeq_configureSeq_start es hanswers) rfl))

/-! ### The device address (rules R162, R163) -/

theorem exec_setAddress {s : State} {v : Byte} (h : s.Admits (.setAddress v)) :
    exec (.setAddress v) s = .next (s.start (writeSeq s.cfg s.cfg.addrDevAddr [v]) (.setShadow v)) := by
  rw [exec, execSetAddress, issueSeq, issue_admitted h]

/-- Settles O36: the write is one transaction, whose continuation writes the shadow. -/
theorem setAddressWritesRegisterAndShadow : Obligations.SetAddressWritesRegisterAndShadow :=
  fun s v hadmits hanswers => (exec_setAddress hadmits).trans (congrArg _
    (runJob_ends (runSeq_writeSeq_start s.cfg.addrDevAddr hanswers (List.cons_ne_nil v [])) rfl))

/-- Without force a shadow that holds a byte is the result. -/
theorem exec_getAddress_shadow {s : State} {v : Byte} (h : s.Admits (.getAddress false))
    (hshadow : s.shadow = some v) :
    exec (.getAddress false) s = .next (s.answer (.done (.byte v))) := by
  rw [exec, execGetAddress, issue_admitted h, if_neg Bool.false_ne_true, hshadow]

theorem exec_getAddress_force {s : State} (h : s.Admits (.getAddress true)) :
    exec (.getAddress true) s = .next (s.start (readSeq s.cfg s.cfg.addrDevAddr 1) .adopt) := by
  rw [exec, execGetAddress, issue_admitted h, if_pos rfl]

/-- Settles O37: the forced read is one transaction that latches the byte its continuation adopts. -/
theorem getAddressReturnsShadowOrRegister : Obligations.GetAddressReturnsShadowOrRegister := by
  refine fun s => ⟨fun v hadmits hshadow => exec_getAddress_shadow hadmits hshadow,
    fun hadmits hanswers => ?_⟩
  have hread := runSeq_readSeq_start s.cfg.addrDevAddr hanswers one_ne_zero
  rw [State.payload_one] at hread
  exact (exec_getAddress_force hadmits).trans (congrArg _ (runJob_ends hread rfl))

/-! ### What writes `life` (rules R21, R151) -/

/-- A host operation answers a next state only with nothing in progress before it. -/
theorem job_eq_none_of_exec_next {i : Instr} {s t : State} (hwire : i.isWire = false)
    (h : exec i s = .next t) : s.job = none := by
  refine State.job_of_not_engaged (Bool.eq_false_iff.mpr fun he => ?_)
  rw [exec_engaged hwire he] at h
  cases h

/-- The lifecycle bodies end the operation with `life` as in the table, a job does so by its continuation `enter`,
and nothing else writes `life`. -/
theorem exec_life {i : Instr} {s t : State} (h : exec i s = .next t) :
    t.life = s.life ∨ (t.job = none ∧ t.life = lifeAfter i s.life) := by
  cases exec_ran h with
  | answer r => exact .inl rfl
  | bringUp hi _ =>
    subst hi
    exact .inr ⟨(bringUp_job s).trans (job_eq_none_of_exec_next rfl h), rfl⟩
  | tearDown hi =>
    subst hi
    exact .inr ⟨(tearDown_job s).trans (job_eq_none_of_exec_next rfl h), rfl⟩
  | pulse hi =>
    subst hi
    exact .inr ⟨job_eq_none_of_exec_next (s := s) rfl h, rfl⟩
  | job s0 seq k hs0 henter _ _ =>
    have hlife : s0.life = s.life := by obtain rfl | rfl := hs0 <;> rfl
    obtain hkept | ⟨hended, hwritten⟩ := runJob_life maxTransactions ⟨seq, k⟩ { s0 with buf := [] }
    · exact .inl (hkept.trans hlife)
    · exact .inr ⟨hended, (henter _ hwritten).symm⟩
  | wire ms =>
    obtain ⟨-, hlife, -⟩ := runSeq_frame ms s
    exact .inl hlife

/-- Settles O42: what an instruction writes, and the continuation of a held operation. -/
theorem lifeIsWrittenAsTheTableSays : Obligations.LifeIsWrittenAsTheTableSays := by
  refine ⟨fun i s t => exec_life, fun s t j hj h => ?_⟩
  rw [step_job_next hj h]
  exact runJob_life maxTransactions j s

end Sys2Proof.Machine
end

section
/-! SUPPORT. Progress: what a host operation issued between operations does, and its end with a peer that is
ready: the statements of 60_exceptions.md. -/

namespace Sys2Proof.Machine

/-! ### Between operations (rules R26, R182) -/

theorem State.Inv.not_engaged {s : State} (h : s.Inv) (hjob : s.job = none) : s.engaged = false := by
  by_cases hlife : s.life = .uninitialized
  · obtain ⟨-, hcs, -⟩ := h.down hlife
    simp [State.engaged, hjob, hcs]
  · obtain ⟨-, -, -, hcs⟩ := h.up hlife
    simp [State.engaged, hjob, hcs]

theorem State.Inv.shadow_isSome {s : State} (h : s.Inv) (hlife : s.life ≠ .uninitialized) :
    s.shadow.isSome = true := (h.up hlife).1

/-- Between operations the checks give the host a refusal or admit the operation. -/
theorem exec_refused_or_admits {i : Instr} {s : State} (hwire : i.isWire = false) (hinit : i ≠ .init)
    (he : s.engaged = false) : (∃ r, exec i s = .next (s.answer (.refused r))) ∨ s.Admits i := by
  obtain ⟨body, hbody⟩ := exec_eq_issue hwire hinit s
  obtain ⟨hopen, -⟩ | ⟨-, r, hr⟩ | ⟨ha, -⟩ := issue_cases i s body
  · exact absurd (he.symm.trans hopen) Bool.false_ne_true
  · exact .inl ⟨r, hbody.trans hr⟩
  · exact .inr ha

/-! ### Micro-operations that close what they open (rule R114) -/

/-- No micro-operation at all, or one transaction around exchanges. -/
def Whole (c : Params) (seq : List Micro) : Prop :=
  seq = [] ∨ ∃ xs, (∀ m ∈ xs, m.isExchange = true) ∧ seq = transaction c xs

theorem readSeq_whole (c : Params) (a : Addr) (n : Nat) : Whole c (readSeq c a n) := by
  by_cases hn : n = 0
  · exact .inl (if_pos hn)
  · exact .inr ⟨_, (fits_readBody a hn (k := .bytes) trivial).1, if_neg hn⟩

theorem writeSeq_whole (c : Params) (a : Addr) (bs : List Byte) : Whole c (writeSeq c a bs) := by
  by_cases hbs : bs.length = 0
  · exact .inl (if_pos hbs)
  · exact .inr ⟨_, (fits_writeBody a bs (k := .ack) trivial).1, if_neg hbs⟩

theorem strobeSeq_whole (c : Params) (v : Byte) : Whole c (strobeSeq c v) := by
  by_cases hv : isStrobe v = true
  · exact .inr ⟨_, (fits_sends [v] (k := .ack) trivial).1, if_pos hv⟩
  · exact .inl (if_neg hv)

theorem statusSeq_whole (c : Params) (t : StatusType) : Whole c (statusSeq c t) := by
  cases ht : statusAddress c t with
  | none => exact .inr ⟨[.recv c.strobeSNOP], by simp [Micro.isExchange], by simp only [statusSeq, ht]⟩
  | some a =>
    rw [statusSeq_register ht]
    exact readSeq_whole c a 1

theorem configureSeq_whole (c : Params) (es : List Setting) : Whole c (configureSeq c es) := by
  refine .inr ⟨_, ?_, rfl⟩
  simp only [writeBody_eq, ← List.map_flatMap]
  exact (fits_sends _ (k := .settle) trivial).1

/-- A job that goes on runs such micro-operations, whatever the configuration. -/
theorem continueWith_go_whole {k : After} {s : State} {j : Job} (h : continueWith k s = .go j) :
    Whole s.cfg j.seq ∧ j.after ≠ .leaveOpen := by
  obtain ⟨a, b, rfl, -⟩ | ⟨n, -, rfl, -⟩ | ⟨rfl, -⟩ | ⟨n, rfl, -⟩ | ⟨n, rfl, -⟩ := continueWith_go h
  · exact ⟨writeSeq_whole s.cfg a [b], nofun⟩
  · exact ⟨readSeq_whole s.cfg fifoAddr n, nofun⟩
  · exact ⟨strobeSeq_whole s.cfg s.cfg.strobeSFRX, nofun⟩
  · exact ⟨strobeSeq_whole s.cfg s.cfg.strobeSFTX, nofun⟩
  · exact ⟨statusSeq_whole s.cfg .marcState, nofun⟩

/-! ### What an admitted operation does -/

/-- What an operation can do between operations: give an outcome, run a lifecycle body, or start
micro-operations, once a pad byte is drawn where there is one. -/
inductive Performed (s : State) : State → Prop where
  | answer (r : Reply) : r ≠ .busNotReady → Performed s (s.answer r)
  | bringUp : Performed s ((bringUp s).answer (.done .none))
  | tearDown : Performed s ((tearDown s).answer (.done .none))
  | pulse : Performed s ({ hwResetPulse s with life := .ready }.answer (.done .none))
  | start (s0 : State) (seq : List Micro) (k : After) : s0 = s ∨ s0 = s.padDrawn → Whole s.cfg seq →
      k ≠ .leaveOpen → Performed s (s0.start seq k)

theorem issueSeq_performed {i : Instr} {s : State} (ha : s.Admits i) {seq : List Micro} {k : After}
    (hseq : Whole s.cfg seq) (hk : k ≠ .leaveOpen) :
    ∃ t, issueSeq i s seq k = .next t ∧ Performed s t :=
  ⟨_, issue_admitted ha _, .start s seq k (.inl rfl) hseq hk⟩

/-- With a byte in the shadow nothing stops an admitted operation. -/
theorem exec_admitted_performed {i : Instr} {s : State} (hwire : i.isWire = false) (hinit : i ≠ .init)
    (ha : s.Admits i) (hshadow : s.shadow.isSome = true) : ∃ t, exec i s = .next t ∧ Performed s t := by
  cases i with
  | init => exact absurd rfl hinit
  | wireWriteSingleNormal | wireWriteBurstNormal | wireReadSingleNormal | wireReadBurstNormal
  | wireWriteSingleExtended | wireWriteBurstExtended | wireReadSingleExtended | wireReadBurstExtended
  | wireStrobe | wireFifoReadSingle | wireFifoReadBurst | wireFifoWriteBurst | wireFifoWriteSingle
  | wireDummy => cases hwire
  | shutdown => exact ⟨_, exec_shutdown ha, .tearDown⟩
  | reset hardware =>
    rw [exec, execReset, issue_admitted ha]
    split
    · exact ⟨_, rfl, .pulse⟩
    · exact ⟨_, rfl, .start s _ _ (.inl rfl) (strobeSeq_whole _ _) nofun⟩
  | writeTxFifo bs =>
    rw [exec_writeTxFifo ha]
    split
    · exact ⟨_, rfl, .answer _ nofun⟩
    · exact ⟨_, rfl, .start s.padDrawn _ _ (.inr rfl) (writeSeq_whole _ _ _) nofun⟩
  | getAddress force =>
    cases force with
    | true => exact ⟨_, exec_getAddress_force ha, .start s _ _ (.inl rfl) (readSeq_whole _ _ _) nofun⟩
    | false =>
      obtain ⟨v, hv⟩ := Option.isSome_iff_exists.mp hshadow
      exact ⟨_, exec_getAddress_shadow ha hv, .answer _ nofun⟩
  | configure es => exact issueSeq_performed ha (configureSeq_whole _ es) nofun
  | readRegister | updateRegister | readRxFifo => exact issueSeq_performed ha (readSeq_whole _ _ _) nofun
  | writeRegister | setAddress => exact issueSeq_performed ha (writeSeq_whole _ _ _) nofun
  | getStatus | resolveFifoError => exact issueSeq_performed ha (statusSeq_whole _ _) nofun
  | strobe | idle | powerDown | transmitArm | receiveArm | flushRx | flushTx =>
    exact issueSeq_performed ha (strobeSeq_whole _ _) nofun

/-- Between operations, with a byte in the shadow of an initialized state, no host operation stops. -/
theorem exec_performed {i : Instr} {s : State} (hwire : i.isWire = false) (he : s.engaged = false)
    (hshadow : s.life ≠ .uninitialized → s.shadow.isSome = true) : ∃ t, exec i s = .next t ∧ Performed s t := by
  by_cases hinit : i = .init
  · subst hinit
    rw [exec_init he]
    split
    · exact ⟨_, rfl, .bringUp⟩
    · exact ⟨_, rfl, .answer _ nofun⟩
  obtain ⟨r, hr⟩ | ha := exec_refused_or_admits hwire hinit he
  · exact ⟨_, hr, .answer _ nofun⟩
  · exact exec_admitted_performed hwire hinit ha (hshadow ha.2.2.1)

/-- Settles O48: a held operation goes on, a descriptor is refused or its operation performed. -/
theorem noStepStopsUnderTheInvariant : Obligations.NoStepStopsUnderTheInvariant := by
  intro s hc hinv
  cases hjob : s.job with
  | some j => exact ⟨_, step_job hc hjob⟩
  | none =>
    cases hhost : s.env.host with
    | nil => exact ⟨s, by simp [step, hc, hjob, hhost]⟩
    | cons d rest =>
      cases hd : decode d with
      | error e => exact ⟨_, step_undecodable hc hjob hhost hd⟩
      | ok i =>
        obtain ⟨-, -, hwire⟩ := decode_eq_ok_iff_encode.mp hd
        obtain ⟨t, ht, -⟩ :=
          exec_performed (s := s.accepted rest) hwire (hinv.not_engaged hjob) hinv.shadow_isSome
        exact ⟨t, (step_decoded hc hjob hhost hd).trans ht⟩

/-! ### Transactions with a peer ready at once (rules R112, R173) -/

/-- A sample taken is one of those the peer answers. -/
theorem State.Answers.levelSampled {n : Nat} {s : State} (h : s.Answers (n + 1)) : s.levelSampled.Answers n := by
  obtain ⟨htimeout, hlevels⟩ := h
  refine ⟨htimeout, fun i hi => ?_⟩
  rw [State.levelSampled_eq, State.levelAt_sampled]
  exact hlevels (1 + i) (by omega)

/-- Exchanges take no sample. -/
theorem runSeq_exchanges_answers {xs : List Micro} (hx : ∀ m ∈ xs, m.isExchange = true) (ms : List Micro)
    {n : Nat} : ∀ s : State, s.Answers n → ∃ t : State, t.Answers n ∧ runSeq (xs ++ ms) s = runSeq ms t := by
  induction xs with
  | nil => exact fun s h => ⟨s, h, rfl⟩
  | cons m xs ih =>
    intro s h
    obtain ⟨hm, hxs⟩ := List.forall_mem_cons.mp hx
    cases m with
    | send b => exact ih hxs (s.xfer b) h
    | recv b => exact ih hxs ((s.xfer b).keep s.nextByte) h
    | select | wait | deselect => cases hm

/-- Each run takes at most one of the answers and leaves the select line not low. -/
theorem Whole.runSeq_done {seq : List Micro} {n : Nat} {s : State} (hseq : Whole s.cfg seq)
    (h : s.Answers (n + 1)) (hcs : s.cs ≠ .low) :
    ∃ t, runSeq seq s = (.done, t) ∧ t.cs ≠ .low ∧ t.Answers n := by
  obtain rfl | ⟨xs, hx, rfl⟩ := hseq
  · exact ⟨s, rfl, hcs, State.answers_mono h (by omega)⟩
  · have hready : (s.driveCs .low).nextLevel = s.cfg.readyActiveLevel :=
      (State.nextLevel_eq s).trans (h.2 0 (by omega))
    have hwait : (s.driveCs .low).waitTurn s.cfg.readyTimeout = (.ready, (s.driveCs .low).levelSampled) :=
      State.waitTurn_ready h.1 hready
    have hopened : ((s.driveCs .low).levelSampled.log .rdy).Answers n :=
      State.Answers.levelSampled (s := s.driveCs .low) h
    obtain ⟨t, ht, hrun⟩ := runSeq_exchanges_answers hx [.deselect] _ hopened
    refine ⟨t.endTransaction, ?_, nofun, ht⟩
    simp only [transaction, List.cons_append, List.nil_append, runSeq, hwait, hrun]

/-! ### The end of an operation with a peer ready at once (rules R179, R202) -/

/-- The operation issued in `s` has ended in `t`: nothing is in progress or latched, the select line is not low,
and the host has been given one outcome, which is not BusNotReady. -/
structure State.EndsIn (s t : State) : Prop where
  job : t.job = none
  cs : t.cs ≠ .low
  buf : t.buf = []
  reply : ∃ r, t.replies = s.replies ++ [r] ∧ r ≠ .busNotReady

/-- Of the state it began in, the outcomes given alone matter. -/
theorem State.EndsIn.congr {s s' t : State} (h : s.EndsIn t) (hreplies : s.replies = s'.replies) :
    s'.EndsIn t := by
  obtain ⟨hjob, hcs, hbuf, hreply⟩ := h
  exact ⟨hjob, hcs, hbuf, hreplies ▸ hreply⟩

theorem continueWith_reply_ne_busNotReady {k : After} {s : State} {r : Reply}
    (h : continueWith k s = .reply r) : r ≠ .busNotReady := by
  cases k with
  | merge | drain | rxTest | rxFlushed | txTest =>
    simp only [continueWith, txDecide, marcSample] at h
    split_ifs at h
    cases h
    nofun
  | ack | bytes | masked | enter | settle | setShadow | adopt | txFlushed =>
    cases h
    nofun
  | leaveOpen => cases h

/-- A job with an answer of the peer for each transaction it may still make ends its operation. -/
theorem runJob_endsIn (fuel : Nat) : ∀ {seq : List Micro} {k : After} {s : State}, k.transactions ≤ fuel →
    s.Answers fuel → Whole s.cfg seq → k ≠ .leaveOpen → s.cs ≠ .low →
    s.EndsIn (runJob fuel ⟨seq, k⟩ s) := by
  induction fuel with
  | zero =>
    intro seq k s hfuel
    exact absurd (Nat.le_zero.mp hfuel) k.transactions_ne_zero
  | succ fuel ih =>
    intro seq k s hfuel hanswers hseq hk hcs
    obtain ⟨t, hrun, hcs', hanswers'⟩ := hseq.runSeq_done hanswers hcs
    obtain ⟨-, -, -, -, -, -, hreplies⟩ := runSeq_frame seq s
    rw [hrun] at hreplies
    cases hnext : continueWith k t with
    | reply r =>
      obtain ⟨-, -, -, hwcs, -, hwreplies⟩ := writeBack_frame k t
      rw [runJob_reply hrun hnext]
      refine ⟨rfl, ?_, rfl, r, ?_, continueWith_reply_ne_busNotReady hnext⟩
      · rwa [State.finish_cs, hwcs]
      · rw [State.finish_replies, hwreplies, hreplies]
    | go j =>
      obtain ⟨hseq', hk'⟩ := continueWith_go_whole hnext
      have hfewer : j.after.transactions < k.transactions := continueWith_go_lt hnext
      rw [runJob_go hrun hnext]
      exact (ih (s := { t with buf := [] }) (by omega) hanswers' hseq' hk' hcs').congr hreplies
    | leave => exact absurd (continueWith_leave hnext) hk

theorem State.start_endsIn {s : State} {seq : List Micro} {k : After} (h : s.Answers 4)
    (hseq : Whole s.cfg seq) (hk : k ≠ .leaveOpen) (hcs : s.cs ≠ .low) : s.EndsIn (s.start seq k) :=
  (runJob_endsIn maxTransactions (s := { s with buf := [] }) k.transactions_le h hseq hk hcs).congr rfl

theorem Performed.endsIn {s t : State} (h : Performed s t) (hjob : s.job = none) (hcs : s.cs ≠ .low)
    (hbuf : s.buf = []) (hanswers : s.Answers 4) : s.EndsIn t := by
  cases h with
  | answer r hr => exact ⟨hjob, hcs, hbuf, r, rfl, hr⟩
  | bringUp =>
    rw [bringUp_eq]
    exact ⟨hjob, nofun, hbuf, _, rfl, nofun⟩
  | tearDown =>
    rw [tearDown_eq]
    exact ⟨hjob, nofun, hbuf, _, rfl, nofun⟩
  | pulse => exact ⟨hjob, hcs, hbuf, _, rfl, nofun⟩
  | start s0 seq k hs0 hseq hk =>
    obtain rfl | rfl := hs0
    · exact State.start_endsIn hanswers hseq hk hcs
    · exact (State.start_endsIn (s := s.padDrawn) hanswers hseq hk hcs).congr rfl

/-- Settles O49: each transaction takes one of the four answers, and what an operation performs without one ends
it at once. -/
theorem readyPeerCompletesEveryOperation : Obligations.ReadyPeerCompletesEveryOperation := by
  intro s i hwire hinv hjob hanswers
  have he : s.engaged = false := hinv.not_engaged hjob
  have hcs : s.cs ≠ .low := fun hlow => absurd (State.engaged_iff.mpr (.inr hlow)) (Bool.eq_false_iff.mp he)
  obtain ⟨t, ht, hperformed⟩ := exec_performed hwire he hinv.shadow_isSome
  obtain ⟨hjob', hcs', hbuf', r, hr, hne⟩ := hperformed.endsIn hjob hcs hinv.latch hanswers
  exact ⟨t, r, ht, hjob', hcs', hbuf', hr, hne⟩

/-! ### The operations without an exchange (rules R173, R179) -/

/-- Settles O59: a refusal, a lifecycle body and the shadow's byte each only write registers and the trace. -/
theorem operationsWithoutExchangeNeverHang : Obligations.OperationsWithoutExchangeNeverHang := by
  intro s i hinv hjob hi
  have he : s.engaged = false := hinv.not_engaged hjob
  have unless_refused : ∀ {i : Instr}, i.isWire = false → i ≠ .init →
      (s.Admits i → ∃ t, exec i s = .next t ∧ t.job = none ∧ t.env = s.env) →
      ∃ t, exec i s = .next t ∧ t.job = none ∧ t.env = s.env := fun hwire hinit hadmitted =>
    (exec_refused_or_admits hwire hinit he).elim (fun ⟨r, hr⟩ => ⟨_, hr, hjob, rfl⟩) hadmitted
  obtain rfl | rfl | ⟨rfl, hline⟩ | rfl := hi
  · rw [exec_init he, bringUp_eq]
    split
    · exact ⟨_, rfl, hjob, rfl⟩
    · exact ⟨_, rfl, hjob, rfl⟩
  · refine unless_refused rfl nofun fun ha => ⟨_, exec_shutdown ha, ?_⟩
    rw [tearDown_eq]
    exact ⟨hjob, rfl⟩
  · exact unless_refused rfl nofun fun ha => ⟨_, exec_reset_pulse ha hline, hjob, rfl⟩
  · refine unless_refused rfl nofun fun ha => ?_
    have hlife : s.life ≠ .uninitialized := ha.2.2.1
    obtain ⟨v, hv⟩ := Option.isSome_iff_exists.mp (hinv.shadow_isSome hlife)
    exact ⟨_, exec_getAddress_shadow ha hv, hjob, rfl⟩

end Sys2Proof.Machine
end

section
/-! SUPPORT. The engine between operations: the statement of 70_reset_and_hazards.md. -/

namespace Sys2Proof.Machine

/-- Settles O16: with no operation held and an empty command port, `step` takes its waiting branch (rule R201). -/
theorem engineWaitsForADescriptor : Obligations.EngineWaitsForADescriptor := by
  intro s hc hj hh
  simp [step, hc, hj, hh]

end Sys2Proof.Machine
end
